-- ==== Sys2Proof/Word.lean ====
section
/-! DEFINITION. The widths the spec fixes: the 32-bit register word, the byte of DMEM, the bit string. -/

namespace Sys2Proof

/-- A host register or command word (00_scope.md R10, "register width 32 bits"). -/
abbrev Word := BitVec 32

/-- A symbol, and a byte of data memory (00_scope.md R10). -/
abbrev Byte := BitVec 8

/-- A bit string, first bit first; `false` is the bit 0 and `true` the bit 1 (00_scope.md R13). -/
abbrev Bits := List Bool

end Sys2Proof
end

