-- ==== Sys2Proof/Config.lean ====
section
/-! DEFINITION. What is fixed for one block: its parameters (92_eei_decisions.md, "Open parameters"), and the free
values: constants without a body that stand for every value the spec leaves open. -/

namespace Sys2Proof

/-- The parameters of one block. They are carried in the state as plain data and no step changes them, so a statement
about every state is a statement about every block. -/
structure Config where
  /-- `MEM_BYTES`, the size of DMEM in bytes (00_scope.md R9). -/
  memBytes : Nat
  /-- `REG_BASE`, the host address of register offset 0x000; no rule of the block reads it (20_memory.md R65). -/
  regBase : Nat
  /-- `DMEM_BASE`, the host address of DMEM byte 0; no rule of the block reads it (20_memory.md R65). -/
  dmemBase : Nat
  deriving DecidableEq, Repr

namespace Config

/-- The free values. `free d i` is the `i`-th value of draw `d`; every draw of a run has a number of its own
(`State.draws`), so nothing relates one open value to another. It is cut to the width it is used at. It stands for the
"any value" of 93_implementation_defined.md U2, U3, U4, U5 and U6. -/
opaque free : Nat → Nat → Nat

/-- What DMEM byte `a` holds after the `e`-th power-on and before anything is written to it: "DMEM contents after hard
reset", "any value for every byte" (93_implementation_defined.md U1). -/
opaque powerOn : Nat → Nat → BitVec 8

end Config

end Sys2Proof
end

