-- ==== Sys2Proof/Syntax.lean ====
section
/-! DEFINITION. The commands: one constructor per row of spec/opcode_table.json (30_encoding.md R83). No command has an
operand in its encoding; all its operands are registers and tables of the state (R82). -/

namespace Sys2Proof

/-- The fourteen commands of 30_encoding.md R83, in opcode order. -/
inductive Instr where
  | nop
  | scan
  | build
  | assign
  | measure
  | encode
  | pack
  | packBits
  | unpackBits
  | decodeBody
  | parse
  | decompress
  | compress
  | clear
  deriving DecidableEq, Repr

/-- The two fields of a command word (30_encoding.md R81): `[7:0]` OP and `[31:8]` RSVD. -/
structure CommandWord where
  rsvd : BitVec 24
  op : BitVec 8
  deriving DecidableEq, Repr

end Sys2Proof
end

