-- ==== Sys2Proof/WellFormed.lean ====
section
/-! DEFINITION. The checks on raw data: a command word (30_encoding.md R86), and the parameters of a block (00_scope.md R9).
A command has no operand that could be ill formed (30_encoding.md R82): every term of `Instr` is well formed. -/

namespace Sys2Proof

/-- A legal command word: RSVD is 0 and OP is below 0x0E, the complement of 30_encoding.md R86. -/
def CommandWord.wf (c : CommandWord) : Bool := c.rsvd == 0#24 && decide (c.op.toNat < 0x0E)

/-- `1 <= MEM_BYTES <= 2^24` (00_scope.md R9). REG_BASE and DMEM_BASE may be anything (20_memory.md R65). -/
def Config.wf (c : Config) : Bool := decide (1 ≤ c.memBytes) && decide (c.memBytes ≤ 2 ^ 24)

end Sys2Proof
end

