-- ==== Sys2Proof/Decode.lean ====
section
/-! DEFINITION. Decoding of a 32-bit command word, total and rejecting by name, and the encoder beside it
(30_encoding.md R80 to R87). A command word is one register word: there is no byte order to decide (20_memory.md R59). -/

namespace Sys2Proof

/-- Why a command word is illegal (30_encoding.md R86). -/
inductive DecodeError where
  /-- `w[31:8] ≠ 0`. It is checked before OP (R87). -/
  | reservedField
  /-- `w[7:0] >= 0x0E`, an opcode of the reserved range of R83. -/
  | reservedOpcode
  deriving DecidableEq, Repr

/-- The fields of a word (30_encoding.md R81). -/
def CommandWord.ofWord (w : Word) : CommandWord := ⟨w.extractLsb' 8 24, w.extractLsb' 0 8⟩

/-- The word of two fields (30_encoding.md R81). -/
def CommandWord.toWord (c : CommandWord) : Word := c.rsvd ++ c.op

/-- The opcode map of 30_encoding.md R83, read from OP to command. -/
def Instr.ofOpcode (op : BitVec 8) : Option Instr :=
  match op.toNat with
  | 0x00 => some .nop
  | 0x01 => some .scan
  | 0x02 => some .build
  | 0x03 => some .assign
  | 0x04 => some .measure
  | 0x05 => some .encode
  | 0x06 => some .pack
  | 0x07 => some .packBits
  | 0x08 => some .unpackBits
  | 0x09 => some .decodeBody
  | 0x0A => some .parse
  | 0x0B => some .decompress
  | 0x0C => some .compress
  | 0x0D => some .clear
  | _ => none

/-- Decode a command word: "the opcode field alone selects the command, and only after the RSVD check of rule R86 has
passed" (30_encoding.md R87). -/
def decode (w : Word) : Except DecodeError Instr :=
  let c := CommandWord.ofWord w
  if c.rsvd = 0#24 then
    match Instr.ofOpcode c.op with
    | some i => .ok i
    | none => .error .reservedOpcode
  else .error .reservedField

/-- The opcode of a command (30_encoding.md R83, column OP). -/
def Instr.opcode : Instr → BitVec 8
  | .nop => 0x00#8
  | .scan => 0x01#8
  | .build => 0x02#8
  | .assign => 0x03#8
  | .measure => 0x04#8
  | .encode => 0x05#8
  | .pack => 0x06#8
  | .packBits => 0x07#8
  | .unpackBits => 0x08#8
  | .decodeBody => 0x09#8
  | .parse => 0x0A#8
  | .decompress => 0x0B#8
  | .compress => 0x0C#8
  | .clear => 0x0D#8

/-- Encode a command: OP from 30_encoding.md R83 and RSVD = 0. -/
def encode (i : Instr) : Word := CommandWord.toWord ⟨0#24, i.opcode⟩

/-- The command that `decode` reads from a word of spec/opcode_table.json's numbering. A command is exactly one 32-bit
word (30_encoding.md R80); bits above `nbits` are 0, and a number that has more bits is no command word. -/
def decodeTableWord (nbits w : Nat) : Option Instr :=
  if nbits ≤ 32 ∧ w < 2 ^ nbits then (decode (BitVec.ofNat 32 w)).toOption else none

end Sys2Proof
end

