-- ==== Sys2Proof/Machine/State.lean ====
section
/-! DEFINITION. The state of the block as plain data (10_state.md R19), the reasons a run is marked or refused, and the
state after reset (10_state.md R54). Functions over it stand in the other files of Machine/. -/

namespace Sys2Proof.Machine

/-- The one fault of the model that is not a STATUS error. -/
inductive Fault where
  /-- HOST_RACE (20_memory.md R72, 60_exceptions.md R160): the host wrote DMEM inside a window of the running command.
  The host's DMEM write raises it; it is recorded in `State.recorded`, never cleared, and stops nothing: the raced
  command completes with free values (Machine/Race.lean). Safe: a claim takes `recorded = none` as a premise. -/
  | hostRace
  deriving DecidableEq, Repr

/-- Why the model would have no meaning for a command. -/
inductive Refusal where
  /-- Raised by an arm of `exec` whose command has no meaning yet; no arm does. Safe: the run stops. -/
  | notModelled (mnemonic : String)
  deriving DecidableEq, Repr

/-- The line terminator that CTRL.TERM selects: 0 is LF, 1 is CR LF (10_state.md R25). -/
inductive Term where
  | lf
  | crlf
  deriving DecidableEq, Repr

/-- CTRL without its write-only SOFT_RESET, which always reads 0 (10_state.md R25). -/
structure Ctrl where
  ie : Bool
  term : Term
  deriving DecidableEq, Repr

/-- The STATUS fields but BUSY, which is 1 exactly while a command is in flight and is read from `State.flight`
(10_state.md R27 to R32, R52). -/
structure Status where
  done : Bool
  err : Bool
  notcomp : Bool
  overrun : Bool
  errCode : BitVec 8
  errInfo : BitVec 8
  deriving DecidableEq, Repr

/-- The parameter registers (10_state.md R33 to R35). -/
structure Params where
  srcAddr : Word
  srcLen : Word
  dstAddr : Word
  dstCap : Word
  padIn : BitVec 3
  deriving DecidableEq, Repr

/-- The result registers RES_LEN, RES_BODY, RES_PAD, RES_HDR, RES_ARCH and BITS (10_state.md R36). -/
structure Results where
  len : Word
  body : Word
  pad : BitVec 3
  hdr : Word
  arch : Word
  bits : Word
  deriving DecidableEq, Repr

/-- A valid entry of the tree node array (10_state.md R45): a leaf has a symbol, an internal node two children. -/
inductive Node where
  | leaf (sym : Byte) (freq : BitVec 40)
  | internal (freq : BitVec 40) (left right : BitVec 9)
  deriving DecidableEq, Repr

/-- FREQ[0..255] (10_state.md R44). -/
abbrev FreqTable := Vector Word 256

/-- CODE[0..255]: the bit string of each symbol; its length is CODE_LEN and the empty string is "no code"
(10_state.md R47). -/
abbrev CodeTable := Vector Bits 256

/-- DMEM (10_state.md R49): the bytes written since power-on number `epoch`, by rising address. A byte not listed still
holds its unspecified power-on value (10_state.md R54). -/
structure Memory where
  cells : List Host.Cell
  epoch : Nat
  deriving DecidableEq, Repr

/-- The in-flight command beside its word, which CMD holds unchanged while BUSY = 1 (10_state.md R26, R52): how many
steps are left before the step that completes it, and whether the host has raced with it (20_memory.md R72). -/
structure Flight where
  delay : Nat
  raced : Bool
  deriving DecidableEq, Repr

/-- One access of the host at the block's ports (00_scope.md R18, 20_memory.md R57). -/
inductive HostAction where
  /-- A register write of a word at an offset of the 0x100-byte window (10_state.md R22). -/
  | regWrite (offset : BitVec 8) (v : Word)
  /-- A register read (10_state.md R22). -/
  | regRead (offset : BitVec 8)
  /-- A DMEM write of one byte (20_memory.md R58). The spec gives the port's address no width; here it is any number
  (DESIGN CHOICE, notes/assumptions/15.md). -/
  | memWrite (a : Nat) (v : Byte)
  /-- A DMEM read of one byte (20_memory.md R58), at an address that is any number. -/
  | memRead (a : Nat)
  /-- `WAIT`: read STATUS again and again until BUSY = 0 and DONE = 1 (30_encoding.md R88). -/
  | poll
  /-- The platform's reset input (70_reset_and_hazards.md R167). -/
  | hardReset
  deriving DecidableEq, Repr

/-- Everything the spec gives the block (10_state.md R19), the host's pending accesses, and three fields of the model's
own that settle what the spec leaves open (`delays`, `draws`, and `Memory.epoch`). -/
structure State where
  /-- The parameters of this block; no step changes them. -/
  cfg : Config
  ctrl : Ctrl
  /-- CMD, the last stored command word (10_state.md R26). -/
  cmd : Word
  status : Status
  params : Params
  res : Results
  sel : BitVec 8
  nodeSel : BitVec 9
  freq : FreqTable
  /-- NODE[0 .. NNODES-1]; NNODES is the length (10_state.md R40, R45). -/
  nodes : List Node
  code : CodeTable
  mem : Memory
  /-- The in-flight command, if any: BUSY = 1 while there is one (10_state.md R52). -/
  flight : Option Flight
  /-- HOST_RACE once it has been recorded (60_exceptions.md R160). -/
  recorded : Option Fault
  /-- The host's accesses still to come, in the order the host issues them (20_memory.md R69). -/
  host : List HostAction
  /-- What the host's last read returned. -/
  readData : Word
  /-- The model's own: for each command to be accepted, how many steps pass between the acceptance and the step that
  completes it (30_encoding.md R85, "an unspecified, finite delay"). When the list is used up the delay is a free value. -/
  delays : List Nat
  /-- The model's own: the number of the next draw of free values. -/
  draws : Nat
  deriving DecidableEq, Repr

/-- STATUS after reset: all fields 0 (10_state.md R54). -/
def Status.reset : Status := ⟨false, false, false, false, 0#8, 0#8⟩

/-- The parameter registers after reset (10_state.md R54). -/
def Params.reset : Params := ⟨0#32, 0#32, 0#32, 0#32, 0#3⟩

/-- The result registers after reset (10_state.md R54). -/
def Results.reset : Results := ⟨0#32, 0#32, 0#3, 0#32, 0#32, 0#32⟩

/-- The block right after reset (10_state.md R54): every register and table 0 or empty, TERM = LF, no command in flight,
and no byte of DMEM known. MEM_BYTES is the 4096 of 95_test_vectors.md section 0 (notes/assumptions/1.md). -/
def State.reset : State where
  cfg := ⟨4096, 0, 0⟩
  ctrl := ⟨false, .lf⟩
  cmd := 0#32
  status := Status.reset
  params := Params.reset
  res := Results.reset
  sel := 0#8
  nodeSel := 0#9
  freq := Vector.replicate 256 0#32
  nodes := []
  code := Vector.replicate 256 []
  mem := ⟨[], 0⟩
  flight := none
  recorded := none
  host := []
  readData := 0#32
  delays := []
  draws := 0

end Sys2Proof.Machine
end

