-- ==== Sys2Proof/Machine/Bits.lean ====
section
/-! DEFINITION. Bit strings, ASCII and decimal text, and the `pack` and `unpack` functions (00_scope.md R13 to R16,
20_memory.md R60, 41_bit_packer.md R108 to R110). -/

namespace Sys2Proof.Machine

/-! ## Character constants (00_scope.md R16) -/

abbrev chLF : Byte := 0x0A#8
abbrev chCR : Byte := 0x0D#8
abbrev chSP : Byte := 0x20#8
abbrev ch0 : Byte := 0x30#8
abbrev ch1 : Byte := 0x31#8
abbrev ch9 : Byte := 0x39#8
abbrev chColon : Byte := 0x3A#8
abbrev chBang : Byte := 0x21#8
abbrev chAt : Byte := 0x40#8

/-- The line terminator T as bytes: LF, or CR LF (00_scope.md R11). -/
def Term.bytes : Term → List Byte
  | .lf => [chLF]
  | .crlf => [chCR, chLF]

/-- An ASCII bit character (00_scope.md R13). -/
def isBitChar (b : Byte) : Bool := b == ch0 || b == ch1

/-- A decimal digit (00_scope.md R16). -/
def isDigit (b : Byte) : Bool := ch0 ≤ b && b ≤ ch9

/-- `ascii(b)`: each bit as 0x30 or 0x31, first bit first (42_archive_codec.md R117). -/
def ascii (b : Bits) : List Byte := b.map fun x => if x then ch1 else ch0

/-- The bits that ASCII bit characters spell: 0x31 is 1 (41_bit_packer.md R113). -/
def bitsOfAscii (s : List Byte) : Bits := s.map (· == ch1)

/-! ## Decimal text -/

/-- The digit character of `n mod 10`. -/
def digitChar (n : Nat) : Byte := BitVec.ofNat 8 (0x30 + n % 10)

/-- The decimal digits of `n`, most significant first, on enough fuel. -/
def decFuel : Nat → Nat → List Byte
  | 0, n => [digitChar n]
  | k + 1, n => if n < 10 then [digitChar n] else decFuel k (n / 10) ++ [digitChar n]

/-- `dec(n)`: decimal ASCII without leading zeros; `dec(0)` is "0" (00_scope.md R15). -/
def dec (n : Nat) : List Byte := decFuel n n

/-- The number that decimal digits spell, most significant first (42_archive_codec.md R129, `val`). -/
def decVal (s : List Byte) : Nat := s.foldl (fun a b => 10 * a + (b.toNat - 0x30)) 0

/-! ## Bits and bytes -/

/-- The number a bit string spells, first bit most significant. -/
def bitsVal (b : Bits) : Nat := b.foldl (fun a x => 2 * a + x.toNat) 0

/-- The 8 bits of a byte, bit 7 first (20_memory.md R60). -/
def bitsOfByte (v : Byte) : Bits := [7, 6, 5, 4, 3, 2, 1, 0].map fun k => v.getLsbD k

/-- `ceil(n / 8)` (00_scope.md R12). -/
def byteCount (n : Nat) : Nat := (n + 7) / 8

/-- The padding of a bit string of length `n`: `P = 8*B - n` (41_bit_packer.md R108). -/
def padCount (n : Nat) : Nat := 8 * byteCount n - n

/-- Byte `j` of a padded bit string: its bits `8j .. 8j+7`, most significant first (41_bit_packer.md R108). -/
def bodyByte (b : Bits) (j : Nat) : Byte := BitVec.ofNat 8 (bitsVal ((b.drop (8 * j)).take 8))

/-- The body of `pack(b)`: `b` right-padded with 0 bits to a multiple of 8, eight bits a byte (41_bit_packer.md R108).
The padding it reports is `padCount b.length`. -/
def packBody (b : Bits) : List Byte :=
  (List.range (byteCount b.length)).map (bodyByte (b ++ List.replicate (padCount b.length) false))

/-- `unpack(body, P)`: all the bits of the body with the last `P` dropped, unchecked (41_bit_packer.md R109). -/
def unpack (body : List Byte) (pad : Nat) : Bits :=
  (body.flatMap bitsOfByte).take (8 * body.length - pad)

end Sys2Proof.Machine
end

