-- ==== Sys2Proof/Machine/Tables.lean ====
section
/-! DEFINITION. The frequency table, the node array and the code table: one place reads an entry and one writes it
(10_state.md R44 to R47), and the live counters are functions of them (10_state.md R37 to R40). -/

namespace Sys2Proof.Machine

/-- The 256 symbols in ascending value. -/
def allSymbols : List Byte := (List.range 256).map (BitVec.ofNat 8)

/-! ## FREQ -/

/-- FREQ all zero. -/
def FreqTable.zero : FreqTable := Vector.replicate 256 0#32

/-- `FREQ[s]`. -/
def FreqTable.get (f : FreqTable) (s : Byte) : Word := f[s.toNat]'s.isLt

/-- `FREQ[s] <- v`. -/
def FreqTable.put (f : FreqTable) (s : Byte) (v : Word) : FreqTable := f.set s.toNat v s.isLt

/-- NSYM: the number of symbols with a nonzero count (10_state.md R37). -/
def nsym (f : FreqTable) : Nat := f.toList.countP (· != 0#32)

/-! ## NODE -/

/-- `NODE[n].freq`. -/
def Node.freq : Node → BitVec 40
  | .leaf _ f => f
  | .internal f _ _ => f

/-- ROOT: `NNODES - 1` when there is a tree, else 0 (10_state.md R40). -/
def rootIndex (nodes : List Node) : Nat := nodes.length - 1

/-! ## CODE -/

/-- CODE with no entry: every CODE_LEN is 0. -/
def CodeTable.empty : CodeTable := Vector.replicate 256 []

/-- `CODE_BITS[s]`; its length is CODE_LEN[s]. -/
def CodeTable.get (code : CodeTable) (s : Byte) : Bits := code[s.toNat]'s.isLt

/-- `CODE[s] <- b`. CODE_LEN is 8 bits wide, and "a write of a value to a field of width w stores it modulo 2^w; no rule
of this spec ever needs that wrap" (00_scope.md R12): a string of 256 bits or more could be met only in a tree that a
HOST_RACE left. -/
def CodeTable.put (c : CodeTable) (s : Byte) (b : Bits) : CodeTable :=
  c.set s.toNat (b.take (b.length % 256)) s.isLt

/-- NCODES: the number of symbols with a code (10_state.md R38). -/
def ncodes (c : CodeTable) : Nat := c.toList.countP (fun b => b.length != 0)

/-- MAXLEN: the greatest code length, 0 when there is no code (10_state.md R39). -/
def maxLen (c : CodeTable) : Nat := c.toList.foldl (fun m b => max m b.length) 0

/-- The symbol whose code is the (non-empty) bit string `b`, if there is one (43_prefix_decoder.md R140). Codes are
distinct (R141), so there is at most one; the least is taken. -/
def CodeTable.lookup (c : CodeTable) (b : Bits) : Option Byte :=
  (c.toList.findIdx? (· == b)).map (BitVec.ofNat 8)

end Sys2Proof.Machine
end

