-- ==== Sys2Proof/Machine/Ops.lean ====
section
/-! DEFINITION. The named operations every command shares: DMEM (20_memory.md R58, R64), windows (R66, R67), the
acceptance of a command (30_encoding.md R84), and its completion: with success (R85), with an error
(60_exceptions.md R152, the block's way of taking an exception) or not-compressible (R153). -/

namespace Sys2Proof.Machine

/-! ## DMEM -/

/-- The byte listed for an address, if one is. -/
def Memory.lookup : List Host.Cell → Nat → Option Byte
  | [], _ => none
  | (k, v) :: r, a => if k = a then some v else Memory.lookup r a

/-- The list with `v` at address `a`, in rising order of address. -/
def Memory.insert (a : Nat) (v : Byte) : List Host.Cell → List Host.Cell
  | [] => [(a, v)]
  | (k, w) :: r =>
    if a < k then (a, v) :: (k, w) :: r else if a = k then (a, v) :: r else (k, w) :: Memory.insert a v r

/-- What an address that is not listed reads as: its unspecified power-on value, a free value
(93_implementation_defined.md U1). It is the same at every read (20_memory.md R62). -/
def Memory.unlisted (epoch a : Nat) : Byte := Config.powerOn epoch a

/-- `MemRead(a, 1)` (20_memory.md R64). -/
def Memory.read (m : Memory) (a : Nat) : Byte := (Memory.lookup m.cells a).getD (Memory.unlisted m.epoch a)

/-- `MemWrite(a, 1, v)` (20_memory.md R64). -/
def Memory.write (m : Memory) (a : Nat) (v : Byte) : Memory := { m with cells := Memory.insert a v m.cells }

/-- Bytes written from address `a` upward. -/
def Memory.writeBytes (m : Memory) (a : Nat) : List Byte → Memory
  | [] => m
  | v :: r => (m.write a v).writeBytes (a + 1) r

/-- DMEM after a power-on: every byte any value (10_state.md R54). -/
def Memory.powerOn (m : Memory) : Memory := ⟨[], m.epoch + 1⟩

/-- The canonical form: addresses strictly rising and below MEM_BYTES. No entry can equal what an unlisted address reads
as, because an unlisted address reads as no known value (notes/assumptions/2.md). -/
abbrev Memory.wf (memBytes : Nat) (m : Memory) : Prop :=
  (m.cells.map Prod.fst).Pairwise (· < ·) ∧ ∀ c ∈ m.cells, c.1 < memBytes

/-! ## Windows -/

/-- A window of DMEM: `len` bytes from address `base` (10_state.md R33, R34). -/
structure Window where
  base : Nat
  len : Nat
  deriving DecidableEq, Repr

/-- Is the address inside the window? -/
abbrev Window.Contains (w : Window) (a : Nat) : Prop := w.base ≤ a ∧ a < w.base + w.len

/-- In range: `base + len <= MEM_BYTES`, computed without wrap (20_memory.md R66). -/
abbrev Window.InRange (w : Window) (memBytes : Nat) : Prop := w.base + w.len ≤ memBytes

/-- Overlap of the source with the destination window (20_memory.md R67). -/
abbrev Window.Overlaps (src dst : Window) : Prop :=
  0 < src.len ∧ 0 < dst.len ∧ src.base < dst.base + dst.len ∧ dst.base < src.base + src.len

/-- The source window (10_state.md R33). -/
def State.srcWin (s : State) : Window := ⟨s.params.srcAddr.toNat, s.params.srcLen.toNat⟩

/-- The destination window (10_state.md R34). -/
def State.dstWin (s : State) : Window := ⟨s.params.dstAddr.toNat, s.params.dstCap.toNat⟩

/-! ## Error codes -/

/-- The sub-causes of MALFORMED_ARCHIVE (60_exceptions.md R150). -/
inductive SubCause where
  | line1Unterminated
  | line1Syntax
  | padRange
  | bodyLength
  | line2Syntax
  | lineSyntax
  | emptyCode
  | codeTooLong
  | dupSymbol
  | dupCode
  | noSentinel
  | unmatched
  deriving DecidableEq, Repr

/-- The errors a command can end in (60_exceptions.md R149). -/
inductive ErrCode where
  | illegalCmd
  | emptyInput
  | range
  | overlap
  | dstOverflow
  | noTree
  | noCode
  | badBit
  | badPad
  | malformedArchive (k : SubCause)
  | truncatedStream
  deriving DecidableEq, Repr

/-- STATUS.ERRINFO of a sub-cause (60_exceptions.md R150). -/
def SubCause.info : SubCause → BitVec 8
  | .line1Unterminated => 0x01#8
  | .line1Syntax => 0x02#8
  | .padRange => 0x03#8
  | .bodyLength => 0x04#8
  | .line2Syntax => 0x05#8
  | .lineSyntax => 0x06#8
  | .emptyCode => 0x07#8
  | .codeTooLong => 0x08#8
  | .dupSymbol => 0x09#8
  | .dupCode => 0x0A#8
  | .noSentinel => 0x0B#8
  | .unmatched => 0x0C#8

/-- STATUS.ERRCODE of an error (60_exceptions.md R149). -/
def ErrCode.code : ErrCode → BitVec 8
  | .illegalCmd => 0x01#8
  | .emptyInput => 0x02#8
  | .range => 0x03#8
  | .overlap => 0x04#8
  | .dstOverflow => 0x05#8
  | .noTree => 0x06#8
  | .noCode => 0x07#8
  | .badBit => 0x08#8
  | .badPad => 0x09#8
  | .malformedArchive _ => 0x0A#8
  | .truncatedStream => 0x0B#8

/-- STATUS.ERRINFO of an error: the sub-cause for MALFORMED_ARCHIVE, else 0 (10_state.md R30). -/
def ErrCode.info : ErrCode → BitVec 8
  | .malformedArchive k => k.info
  | _ => 0x00#8

/-! ## Acceptance and completion -/

/-- BUSY: a command is in flight (10_state.md R28, R52). -/
def State.busy (s : State) : Bool := s.flight.isSome

/-- Acceptance of the command word `w` (30_encoding.md R84), to be completed after `delay` steps. OVERRUN is not changed. -/
def State.acceptAfter (delay : Nat) (w : Word) (s : State) : State :=
  { s with
    cmd := w
    status := { s.status with done := false, err := false, errCode := 0#8, errInfo := 0#8, notcomp := false }
    flight := some ⟨delay, false⟩ }

/-- Acceptance with the delay that the state's list gives, a free value when the list is used up
(30_encoding.md R85, 93_implementation_defined.md U6). -/
def State.accept (w : Word) (s : State) : State :=
  match s.delays with
  | d :: ds => { s with delays := ds }.acceptAfter d w
  | [] => { s with draws := s.draws + 1 }.acceptAfter (Config.free s.draws 0) w

/-- The end of a command's completion step: `BUSY <- 0; DONE <- 1` (30_encoding.md R85). -/
def State.finish (s : State) : State := { s with flight := none, status := { s.status with done := true } }

/-- FREQ replaced whole (10_state.md R44). -/
def State.setFreq (f : FreqTable) (s : State) : State := { s with freq := f }

/-- NODE and NNODES replaced whole (10_state.md R45). -/
def State.setNodes (nodes : List Node) (s : State) : State := { s with nodes := nodes }

/-- CODE replaced whole (10_state.md R47). -/
def State.setCode (code : CodeTable) (s : State) : State := { s with code := code }

/-- The six result registers at once (10_state.md R36). -/
def State.setResults (r : Results) (s : State) : State := { s with res := r }

/-- RES_LEN. -/
def State.setLen (n : Nat) (s : State) : State := { s with res := { s.res with len := BitVec.ofNat 32 n } }

/-- `raise E(info)` (60_exceptions.md R152): ERR, ERRCODE and ERRINFO are set, RES_LEN is 0, no DMEM byte is written, and
the command completes. It is the block's whole exception entry: it transfers no control and saves nothing (R156), and
the host returns from it by clearing DONE or by the next command (R157). -/
def State.raise (e : ErrCode) (s : State) : State :=
  { s.setLen 0 with status := { s.status with err := true, errCode := e.code, errInfo := e.info } }.finish

/-- `notcomp()` (60_exceptions.md R153): NOTCOMP is set, RES_LEN is 0, no DMEM byte is written. -/
def State.notComp (s : State) : State :=
  { s.setLen 0 with status := { s.status with notcomp := true } }.finish

/-- `dst(j) <- w[j]` for every j, and `RES_LEN <- |w|` (20_memory.md R75). -/
def State.storeDst (w : List Byte) (s : State) : State :=
  { s.setLen w.length with mem := s.mem.writeBytes s.params.dstAddr.toNat w }

/-- RES_BODY, RES_PAD and BITS (10_state.md R36). -/
def State.setBody (body pad bits : Nat) (s : State) : State :=
  { s with res := { s.res with
      body := BitVec.ofNat 32 body, pad := BitVec.ofNat 3 pad, bits := BitVec.ofNat 32 bits } }

/-- RES_HDR and RES_ARCH (10_state.md R36). -/
def State.setArch (hdr arch : Nat) (s : State) : State :=
  { s with res := { s.res with hdr := BitVec.ofNat 32 hdr, arch := BitVec.ofNat 32 arch } }

/-- BITS alone (10_state.md R36). -/
def State.setBits (bits : Nat) (s : State) : State :=
  { s with res := { s.res with bits := BitVec.ofNat 32 bits } }

/-- The effect of an illegal command word: it completes with ILLEGAL_CMD and changes no other state
(30_encoding.md R86). -/
def State.illegalCommand (s : State) : State := s.raise .illegalCmd

/-- What one command stage leaves: the state in which the command has ended, or the state to go on from. -/
abbrev Stage := Except State State

/-- A command of one stage: where it has not ended, it completes with success. -/
def Stage.complete : Stage → State
  | .error t => t
  | .ok t => t.finish

end Sys2Proof.Machine
end

