-- ==== Sys2Proof/Machine/Operands.lean ====
section
/-! DEFINITION. The operands of the commands, all implicit (30_encoding.md R82): the bytes of the source window, PAD_IN,
DST_CAP, the terminator of CTRL.TERM, and the checks of the windows (60_exceptions.md R154, steps 2 to 4). -/

namespace Sys2Proof.Machine

/-- `src(0) .. src(SRC_LEN - 1)` (00_scope.md R14). -/
def State.srcBytes (s : State) : List Byte :=
  (List.range s.params.srcLen.toNat).map fun i => s.mem.read (s.params.srcAddr.toNat + i)

/-- `SRC_LEN`. -/
def State.srcLength (s : State) : Nat := s.params.srcLen.toNat

/-- `DST_CAP`. -/
def State.dstCapacity (s : State) : Nat := s.params.dstCap.toNat

/-- `PAD_IN` (10_state.md R35). -/
def State.padIn (s : State) : Nat := s.params.padIn.toNat

/-- T (00_scope.md R11). -/
def State.term (s : State) : List Byte := s.ctrl.term.bytes

/-- The check of a command that uses the source window alone (20_memory.md R66). -/
def State.checkSrc (s : State) : Option ErrCode :=
  if s.srcWin.InRange s.cfg.memBytes then none else some .range

/-- The checks of a command that uses both windows, in the order of 60_exceptions.md R154: RANGE for the source, RANGE
for the destination, OVERLAP. -/
def State.checkBoth (s : State) : Option ErrCode :=
  if ¬ s.srcWin.InRange s.cfg.memBytes then some .range
  else if ¬ s.dstWin.InRange s.cfg.memBytes then some .range
  else if s.srcWin.Overlaps s.dstWin then some .overlap
  else none

/-- BAD_PAD: `PAD_IN > 8·SRC_LEN` (41_bit_packer.md R114). -/
def State.checkPad (s : State) : Option ErrCode :=
  if 8 * s.srcLength < s.padIn then some .badPad else none

end Sys2Proof.Machine
end

