-- ==== Sys2Proof/Machine/BitPacker.lean ====
section
/-! DEFINITION. The bit packer: the function `enc`, and PACK, PACK_BITS and UNPACK_BITS (41_bit_packer.md). -/

namespace Sys2Proof.Machine

/-- `enc(c)`: the codes of the content's bytes, in input order, as one bit string; none where a byte has no code
(41_bit_packer.md R110). -/
def enc (code : CodeTable) : List Byte → Option Bits
  | [] => some []
  | b :: r =>
    if (code.get b).length = 0 then none
    else match enc code r with
      | some bits => some (code.get b ++ bits)
      | none => none

/-- The end of PACK and PACK_BITS: DST_OVERFLOW if the body does not fit, else the body is written and RES_LEN,
RES_BODY, RES_PAD and BITS are set (41_bit_packer.md R112, R113). -/
def packInto (bits : Bits) (s : State) : State :=
  if s.dstCapacity < byteCount bits.length then s.raise .dstOverflow
  else
    ((s.setBody (byteCount bits.length) (padCount bits.length) bits.length).storeDst (packBody bits)).finish

/-- PACK (41_bit_packer.md R112). -/
def execPack (s : State) : Host.Outcome State Fault Refusal :=
  match s.checkBoth with
  | some e => .next (s.raise e)
  | none =>
    if s.srcLength = 0 then .next (s.raise .emptyInput)
    else match enc s.code s.srcBytes with
      | none => .next (s.raise .noCode)
      | some bits => .next (packInto bits s)

/-- PACK_BITS (41_bit_packer.md R113). -/
def execPackBits (s : State) : Host.Outcome State Fault Refusal :=
  match s.checkBoth with
  | some e => .next (s.raise e)
  | none =>
    if s.srcBytes.all isBitChar then .next (packInto (bitsOfAscii s.srcBytes) s)
    else .next (s.raise .badBit)

/-- The end of UNPACK_BITS: DST_OVERFLOW if the bits do not fit, else their ASCII characters are written
(41_bit_packer.md R114). -/
def unpackInto (bits : Bits) (s : State) : State :=
  if s.dstCapacity < bits.length then s.raise .dstOverflow
  else ((s.setBits bits.length).storeDst (ascii bits)).finish

/-- UNPACK_BITS (41_bit_packer.md R114). -/
def execUnpackBits (s : State) : Host.Outcome State Fault Refusal :=
  match s.checkBoth with
  | some e => .next (s.raise e)
  | none =>
    match s.checkPad with
    | some e => .next (s.raise e)
    | none => .next (unpackInto (unpack s.srcBytes s.padIn) s)

end Sys2Proof.Machine
end

