-- ==== Sys2Proof/Machine/Header.lean ====
section
/-! DEFINITION. The archive that the writer produces, its size accounting, and the parser of an archive
(42_archive_codec.md R115 to R124 and R128 to R134). -/

namespace Sys2Proof.Machine

/-! ## The writer (42_archive_codec.md, section 1) -/

/-- The sentinel token `!@` (42_archive_codec.md R119). -/
def sentinel : List Byte := [chBang, chAt]

/-- The symbols of the ordinary lines, ascending: those with a code other than LF and CR (42_archive_codec.md R118). -/
def ordinarySymbols (code : CodeTable) : List Byte :=
  allSymbols.filter fun b => b != chLF && b != chCR && (code.get b).length != 0

/-- Line 1, `dec(B) SP dec(P) T` (42_archive_codec.md R116). -/
def line1 (body pad : Nat) (t : List Byte) : List Byte := dec body ++ [chSP] ++ dec pad ++ t

/-- Line 2, the codes of LF and CR (42_archive_codec.md R117). -/
def line2 (code : CodeTable) (t : List Byte) : List Byte :=
  ascii (code.get chLF) ++ (if (code.get chCR).length ≠ 0 then [chSP] ++ ascii (code.get chCR) else []) ++ t

/-- The line of an ordinary symbol (42_archive_codec.md R118). -/
def symbolLine (code : CodeTable) (t : List Byte) (b : Byte) : List Byte :=
  [b, chColon, chSP] ++ ascii (code.get b) ++ t

/-- `hdr(CODE, B, P, T)` (42_archive_codec.md R121). -/
def header (code : CodeTable) (body pad : Nat) (t : List Byte) : List Byte :=
  line1 body pad t ++ line2 code t ++ (ordinarySymbols code).flatMap (symbolLine code t) ++ (sentinel ++ t)

/-! ## Size accounting (42_archive_codec.md, section 2) -/

/-- The header size H, computed from the table and the two integers without writing (42_archive_codec.md R122). -/
def headerSize (code : CodeTable) (body pad t : Nat) : Nat :=
  ((dec body).length + 1 + (dec pad).length + t) +
  ((code.get chLF).length + (if (code.get chCR).length ≠ 0 then 1 + (code.get chCR).length else 0) + t) +
  ((ordinarySymbols code).map fun b => 3 + (code.get b).length + t).sum +
  (2 + t)

/-- The projected archive size A = H + B for a content of `n` code bits (42_archive_codec.md R123). -/
def archiveSize (code : CodeTable) (t n : Nat) : Nat :=
  headerSize code (byteCount n) (padCount n) t + byteCount n

/-- Not compressible: NCODES = 1 or A >= L (42_archive_codec.md R124). -/
abbrev NotCompressible (code : CodeTable) (arch len : Nat) : Prop := ncodes code = 1 ∨ len ≤ arch

/-! ## The parser (42_archive_codec.md, section 4) -/

/-- The bytes before the first T and the bytes after it, if T occurs (42_archive_codec.md R128, R129). -/
def splitAtTerm (t : List Byte) : List Byte → Option (List Byte × List Byte)
  | [] => none
  | b :: r =>
    if t.isPrefixOf (b :: r) then some ([], (b :: r).drop t.length)
    else match splitAtTerm t r with
      | some (c, rest) => some (b :: c, rest)
      | none => none

/-- `readline`: the content of the next line of a region and the rest of the region; a line without T runs to the end
(42_archive_codec.md R128). -/
def readLine (t region : List Byte) : List Byte × List Byte := (splitAtTerm t region).getD (region, [])

/-- The working table W of the parser, in the order of registration (42_archive_codec.md R132). -/
abbrev Entries := List (Byte × Bits)

/-- `register(s, code)` (42_archive_codec.md R132). -/
def register (w : Entries) (sym : Byte) (code : Bits) : Except SubCause Entries :=
  if 255 < code.length then .error .codeTooLong
  else if w.any (fun e => e.1 == sym) then .error .dupSymbol
  else if w.any (fun e => e.2 == code) then .error .dupCode
  else .ok (w ++ [(sym, code)])

/-- One to ten digits of a value of at most 2^32 - 1 (42_archive_codec.md R129). -/
def isNumber (d : List Byte) : Bool :=
  decide (1 ≤ d.length) && decide (d.length ≤ 10) && d.all isDigit && decide (decVal d ≤ 2 ^ 32 - 1)

/-- The content `D1 SP D2` of line 1 as its two values (42_archive_codec.md R129). -/
def parseLine1 (content : List Byte) : Option (Nat × Nat) :=
  match content.dropWhile isDigit with
  | [] => none
  | b :: d2 =>
    let d1 := content.takeWhile isDigit
    if b = chSP ∧ isNumber d1 ∧ isNumber d2 then some (decVal d1, decVal d2) else none

/-- The content of line 2: `F1`, or `F1 SP F2` (42_archive_codec.md R130). -/
def parseLine2 (content : List Byte) : Except SubCause Entries :=
  let f1 := content.takeWhile isBitChar
  let first : Except SubCause Entries := if f1.length ≠ 0 then register [] chLF (bitsOfAscii f1) else .ok []
  match content.dropWhile isBitChar with
  | [] => first
  | b :: f2 =>
    if b = chSP ∧ f2.all isBitChar then
      match first with
      | .error k => .error k
      | .ok w => if f2.length = 0 then .error .emptyCode else register w chCR (bitsOfAscii f2)
    else .error .line2Syntax

/-- The content of an ordinary line (42_archive_codec.md R131, items 4 to 7). -/
def parseSymbolLine (content : List Byte) (w : Entries) : Except SubCause Entries :=
  match content with
  | sym :: c1 :: c2 :: code =>
    if c1 = chColon ∧ c2 = chSP ∧ sym ≠ chLF ∧ sym ≠ chCR ∧ code.all isBitChar then
      if code.length = 0 then .error .emptyCode else register w sym (bitsOfAscii code)
    else .error .lineSyntax
  | _ => .error .lineSyntax

/-- The ordinary lines up to the sentinel (42_archive_codec.md R131). Every line takes at least one byte of the region,
so its length is enough fuel. -/
def parseLines (t : List Byte) : Nat → List Byte → Entries → Except SubCause Entries
  | 0, _, _ => .error .noSentinel
  | k + 1, region, w =>
    if region.length = 0 then .error .noSentinel
    else
      let (content, rest) := readLine t region
      if content = sentinel then .ok w
      else match parseSymbolLine content w with
        | .error e => .error e
        | .ok w' => parseLines t k rest w'

/-- `parseLines` on enough fuel. -/
def parseOrdinary (t region : List Byte) (w : Entries) : Except SubCause Entries := parseLines t region.length region w

/-- The header region after line 1: line 2, then the ordinary lines up to the sentinel (42_archive_codec.md R130, R131). -/
def parseRegion (t region : List Byte) : Except SubCause Entries :=
  if region.length = 0 then .error .noSentinel
  else
    let (content, rest) := readLine t region
    match parseLine2 content with
    | .error k => .error k
    | .ok w => parseOrdinary t rest w

/-- What a parse yields: W, B, P and the end E of the header region (42_archive_codec.md R133). -/
structure Parsed where
  entries : Entries
  body : Nat
  pad : Nat
  hdr : Nat
  deriving DecidableEq, Repr

/-- `parse(S)` under the terminator T (42_archive_codec.md R129 to R133). The body is the last B bytes and the header
the rest. -/
def parseArchive (t s : List Byte) : Except SubCause Parsed :=
  match splitAtTerm t s with
  | none => .error .line1Unterminated
  | some (content, rest) =>
    match parseLine1 content with
    | none => .error .line1Syntax
    | some (body, pad) =>
      if 7 < pad ∨ (body = 0 ∧ 0 < pad) then .error .padRange
      else if rest.length < body then .error .bodyLength
      else
        match parseRegion t (rest.take (rest.length - body)) with
        | .error k => .error k
        | .ok w => .ok ⟨w, body, pad, s.length - body⟩

/-- CODE from the working table: symbols not in W get no code (42_archive_codec.md R135). -/
def CodeTable.ofEntries (w : Entries) : CodeTable := w.foldl (fun c e => c.put e.1 e.2) CodeTable.empty

end Sys2Proof.Machine
end

