-- ==== Sys2Proof/Machine/PrefixDecoder.lean ====
section
/-! DEFINITION. The prefix decoder: the function `decode` of 43_prefix_decoder.md R140 and DECODE_BODY. -/

namespace Sys2Proof.Machine

/-- The loop of `decode` over the bits still to come, with the bit buffer `buf` and the output so far
(43_prefix_decoder.md R140). -/
def decodeLoop (code : CodeTable) (longest cap : Nat) : Bits → Bits → List Byte → Except ErrCode (List Byte)
  | [], buf, out => if buf.length = 0 then .ok out else .error .truncatedStream
  | x :: r, buf, out =>
    match code.lookup (buf ++ [x]) with
    | some sym =>
      if out.length = cap then .error .dstOverflow else decodeLoop code longest cap r [] (out ++ [sym])
    | none =>
      if longest ≤ (buf ++ [x]).length then .error (.malformedArchive .unmatched)
      else decodeLoop code longest cap r (buf ++ [x]) out

/-- `decode(bits, CODE, cap)` (43_prefix_decoder.md R140). -/
def decodeBits (bits : Bits) (code : CodeTable) (cap : Nat) : Except ErrCode (List Byte) :=
  decodeLoop code (maxLen code) cap bits [] []

/-- DECODE_BODY (43_prefix_decoder.md R145). -/
def execDecodeBody (s : State) : Host.Outcome State Fault Refusal :=
  match s.checkBoth with
  | some e => .next (s.raise e)
  | none =>
    match s.checkPad with
    | some e => .next (s.raise e)
    | none =>
      let bits := unpack s.srcBytes s.padIn
      match decodeBits bits s.code s.dstCapacity with
      | .error e => .next (s.raise e)
      | .ok out => .next ((s.setBits bits.length).storeDst out).finish

end Sys2Proof.Machine
end

