-- ==== Sys2Proof/Machine/TreeBuilder.lean ====
section
/-! DEFINITION. The tree builder: SCAN, BUILD and ASSIGN (40_tree_builder.md). -/

namespace Sys2Proof.Machine

/-! ## SCAN -/

/-- One occurrence of a symbol counted (40_tree_builder.md R96). -/
def FreqTable.count (f : FreqTable) (b : Byte) : FreqTable := f.put b (f.get b + 1#32)

/-- The byte counts of a content, from an all-zero table (40_tree_builder.md R96). -/
def countBytes (c : List Byte) : FreqTable := c.foldl FreqTable.count FreqTable.zero

/-- SCAN after its window check: FREQ is set first, so an empty window leaves it all zero and then raises EMPTY_INPUT
(40_tree_builder.md R96, 90_conflicts.md C2). -/
def scanStage (s : State) : Stage :=
  let t := (s.setFreq (countBytes s.srcBytes)).setLen 0
  if s.srcLength = 0 then .error (t.raise .emptyInput) else .ok t

/-- SCAN (40_tree_builder.md R96). -/
def execScan (s : State) : Host.Outcome State Fault Refusal :=
  match s.checkSrc with
  | some e => .next (s.raise e)
  | none => .next (scanStage s).complete

/-! ## BUILD -/

/-- The symbols with a nonzero count, ascending (40_tree_builder.md R98). -/
def presentSymbols (f : FreqTable) : List Byte := allSymbols.filter fun b => f.get b != 0#32

/-- The leaves, leaf `k` for the `k`-th smallest symbol present (40_tree_builder.md R98). -/
def leafNodes (f : FreqTable) : List Node :=
  (presentSymbols f).map fun b => .leaf b ((f.get b).setWidth 40)

/-- `NODE[i].freq` as a number, 0 where there is no node. -/
def nodeFreq (nodes : List Node) (i : Nat) : Nat := (nodes[i]?.map (fun n => n.freq.toNat)).getD 0

/-- Is node `i` taken before node `j`? Lesser freq, then lesser index (40_tree_builder.md R100). -/
def takenBefore (nodes : List Node) (i j : Nat) : Bool :=
  decide (nodeFreq nodes i < nodeFreq nodes j) || (nodeFreq nodes i == nodeFreq nodes j && decide (i < j))

/-- The node of a non-empty queue `q ++ [i]` that `extract_min` returns (40_tree_builder.md R100). -/
def minNode (nodes : List Node) (i : Nat) (q : List Nat) : Nat :=
  q.foldl (fun m j => if takenBefore nodes j m then j else m) i

/-- `extract_min(Q)`: the node taken and the queue without it (40_tree_builder.md R100). -/
def extractMin (nodes : List Node) : List Nat → Option (Nat × List Nat)
  | [] => none
  | i :: q => let m := minNode nodes i q; some (m, (i :: q).erase m)

/-- The internal node made of `a`, extracted first and made the left child, and `b` (40_tree_builder.md R101). -/
def mergedNode (nodes : List Node) (a b : Nat) : Node :=
  .internal (BitVec.ofNat 40 (nodeFreq nodes a + nodeFreq nodes b)) (BitVec.ofNat 9 a) (BitVec.ofNat 9 b)

/-- The merge loop of BUILD while the queue holds more than one node, on fuel for the merges (40_tree_builder.md R97). -/
def mergeLoop : Nat → List Node → List Nat → List Node
  | 0, nodes, _ => nodes
  | k + 1, nodes, q =>
    match extractMin nodes q with
    | none => nodes
    | some (a, q1) =>
      match extractMin nodes q1 with
      | none => nodes
      | some (b, q2) => mergeLoop k (nodes ++ [mergedNode nodes a b]) (q2 ++ [nodes.length])

/-- The tree that BUILD makes of a frequency table: N leaves, then N - 1 merges (40_tree_builder.md R97, R102). -/
def buildNodes (f : FreqTable) : List Node :=
  let leaves := leafNodes f
  mergeLoop leaves.length leaves (List.range leaves.length)

/-- BUILD as a stage (40_tree_builder.md R97). -/
def buildStage (s : State) : Stage :=
  if nsym s.freq = 0 then .error (s.raise .emptyInput)
  else .ok ((s.setNodes (buildNodes s.freq)).setLen 0)

/-- BUILD (40_tree_builder.md R97). -/
def execBuild (s : State) : Host.Outcome State Fault Refusal := .next (buildStage s).complete

/-! ## ASSIGN -/

/-- `walk(n, p)` of ASSIGN: the leaves below node `n`, reached by path `p`, get their paths as codes
(40_tree_builder.md R104, R105). A child's index is below its parent's, so the number of nodes is enough fuel. -/
def walk (nodes : List Node) : Nat → Nat → Bits → CodeTable → CodeTable
  | 0, _, _, c => c
  | k + 1, n, p, c =>
    match nodes[n]? with
    | none => c
    | some (.leaf sym _) => c.put sym p
    | some (.internal _ l r) =>
      walk nodes k r.toNat (p ++ [true]) (walk nodes k l.toNat (p ++ [false]) c)

/-- The code table of a tree; a tree of one leaf gives its symbol the code "0" (40_tree_builder.md R105, R106). -/
def assignCodes (nodes : List Node) : CodeTable :=
  match nodes[rootIndex nodes]? with
  | some (.leaf sym _) => CodeTable.empty.put sym [false]
  | _ => walk nodes nodes.length (rootIndex nodes) [] CodeTable.empty

/-- ASSIGN as a stage (40_tree_builder.md R105). -/
def assignStage (s : State) : Stage :=
  if s.nodes.length = 0 then .error (s.raise .noTree)
  else .ok ((s.setCode (assignCodes s.nodes)).setLen 0)

/-- ASSIGN (40_tree_builder.md R105). -/
def execAssign (s : State) : Host.Outcome State Fault Refusal := .next (assignStage s).complete

end Sys2Proof.Machine
end

