-- ==== Sys2Proof/Machine/ArchiveCodec.lean ====
section
/-! DEFINITION. The archive codec: MEASURE, ENCODE, PARSE, DECOMPRESS and COMPRESS (42_archive_codec.md). -/

namespace Sys2Proof.Machine

/-! ## MEASURE, ENCODE and COMPRESS -/

/-- The five size registers for a content of `n` code bits: B, P, H, A and n (42_archive_codec.md R125). -/
def State.setSizes (n : Nat) (s : State) : State :=
  (s.setBody (byteCount n) (padCount n) n).setArch
    (headerSize s.code (byteCount n) (padCount n) s.term.length) (archiveSize s.code s.term.length n)

/-- `archive(c)` for the code bits of a content (42_archive_codec.md R121). -/
def archiveOf (code : CodeTable) (t : List Byte) (bits : Bits) : List Byte :=
  header code (byteCount bits.length) (padCount bits.length) t ++ packBody bits

/-- MEASURE (42_archive_codec.md R125). -/
def execMeasure (s : State) : Host.Outcome State Fault Refusal :=
  match s.checkSrc with
  | some e => .next (s.raise e)
  | none =>
    if s.srcLength = 0 then .next (s.raise .emptyInput)
    else match enc s.code s.srcBytes with
      | none => .next (s.raise .noCode)
      | some bits =>
        let t := (s.setSizes bits.length).setLen 0
        if NotCompressible s.code (archiveSize s.code s.term.length bits.length) s.srcLength then .next t.notComp
        else .next t.finish

/-- ENCODE without its checks (1) to (4): NO_CODE, the size registers, the compressibility decision, DST_OVERFLOW, the
archive (42_archive_codec.md R126). -/
def encodeStage (s : State) : State :=
  match enc s.code s.srcBytes with
  | none => s.raise .noCode
  | some bits =>
    let arch := archiveSize s.code s.term.length bits.length
    let t := s.setSizes bits.length
    if NotCompressible s.code arch s.srcLength then t.notComp
    else if s.dstCapacity < arch then t.raise .dstOverflow
    else (t.storeDst (archiveOf s.code s.term bits)).finish

/-- ENCODE (42_archive_codec.md R126). -/
def execEncode (s : State) : Host.Outcome State Fault Refusal :=
  match s.checkBoth with
  | some e => .next (s.raise e)
  | none => if s.srcLength = 0 then .next (s.raise .emptyInput) else .next (encodeStage s)

/-- COMPRESS: the window checks before any stage, then SCAN, BUILD, ASSIGN and ENCODE, stopping at the first that ends
the command (42_archive_codec.md R137). -/
def execCompress (s : State) : Host.Outcome State Fault Refusal :=
  match s.checkBoth with
  | some e => .next (s.raise e)
  | none =>
    match scanStage s with
    | .error t => .next t
    | .ok s1 =>
      match buildStage s1 with
      | .error t => .next t
      | .ok s2 =>
        match assignStage s2 with
        | .error t => .next t
        | .ok s3 => .next (encodeStage s3)

/-! ## PARSE and DECOMPRESS -/

/-- CODE and the size registers as a successful parse sets them, with RES_LEN = 0 (42_archive_codec.md R135). -/
def State.setParsed (r : Parsed) (s : State) : State :=
  (((s.setCode (CodeTable.ofEntries r.entries)).setBody r.body r.pad (8 * r.body - r.pad)).setArch
    r.hdr s.srcLength).setLen 0

/-- The parse stage of PARSE and DECOMPRESS: on a malformed archive CODE is emptied and the error raised; else CODE and
the size registers take the parsed values (42_archive_codec.md R135, R136). It yields what was parsed. -/
def parseStage (s : State) : Except State (State × Parsed) :=
  match parseArchive s.term s.srcBytes with
  | .error k => .error ((s.setCode CodeTable.empty).raise (.malformedArchive k))
  | .ok r => .ok (s.setParsed r, r)

/-- PARSE (42_archive_codec.md R135). -/
def execParse (s : State) : Host.Outcome State Fault Refusal :=
  match s.checkSrc with
  | some e => .next (s.raise e)
  | none =>
    match parseStage s with
    | .error t => .next t
    | .ok (t, _) => .next t.finish

/-- DECOMPRESS (42_archive_codec.md R136). A decode-stage error keeps what the parse stage wrote. -/
def execDecompress (s : State) : Host.Outcome State Fault Refusal :=
  match s.checkBoth with
  | some e => .next (s.raise e)
  | none =>
    match parseStage s with
    | .error t => .next t
    | .ok (t, r) =>
      match decodeBits (unpack (s.srcBytes.drop r.hdr) r.pad) t.code s.dstCapacity with
      | .error e => .next (t.raise e)
      | .ok out => .next (t.storeDst out).finish

end Sys2Proof.Machine
end

