-- ==== Sys2Proof/Machine/Control.lean ====
section
/-! DEFINITION. The control commands NOP and CLEAR (44_control.md). -/

namespace Sys2Proof.Machine

/-- NOP: only acceptance and completion change STATUS (44_control.md R146). -/
def execNop (s : State) : Host.Outcome State Fault Refusal := .next s.finish

/-- CLEAR: the tables and the result registers take their reset values (44_control.md R147). -/
def execClear (s : State) : Host.Outcome State Fault Refusal :=
  .next ((((s.setFreq FreqTable.zero).setNodes []).setCode CodeTable.empty).setResults Results.reset).finish

end Sys2Proof.Machine
end

