-- ==== Sys2Proof/Machine/Dispatch.lean ====
section
/-! DEFINITION. The meaning of each command: what its completion step does (30_encoding.md R85). One arm per command. -/

namespace Sys2Proof.Machine

def exec (i : Instr) (s : State) : Host.Outcome State Fault Refusal :=
  match i with
  | .nop => Sys2Proof.Machine.execNop s
  | .scan => Sys2Proof.Machine.execScan s
  | .build => Sys2Proof.Machine.execBuild s
  | .assign => Sys2Proof.Machine.execAssign s
  | .measure => Sys2Proof.Machine.execMeasure s
  | .encode => Sys2Proof.Machine.execEncode s
  | .pack => Sys2Proof.Machine.execPack s
  | .packBits => Sys2Proof.Machine.execPackBits s
  | .unpackBits => Sys2Proof.Machine.execUnpackBits s
  | .decodeBody => Sys2Proof.Machine.execDecodeBody s
  | .parse => Sys2Proof.Machine.execParse s
  | .decompress => Sys2Proof.Machine.execDecompress s
  | .compress => Sys2Proof.Machine.execCompress s
  | .clear => Sys2Proof.Machine.execClear s

end Sys2Proof.Machine
end

