-- ==== Sys2Proof/Machine/Flags.lean ====
section
/-! DEFINITION. STATUS and CTRL as words, the host's writes of them, and the interrupt output
(10_state.md R25, R27 to R32; 60_exceptions.md R158). -/

namespace Sys2Proof.Machine

/-- STATUS as the host reads it: [0] BUSY, [1] DONE, [2] ERR, [3] NOTCOMP, [4] OVERRUN, [15:8] ERRCODE, [23:16] ERRINFO
and reserved fields that read 0 (10_state.md R23). -/
def State.statusWord (s : State) : Word :=
  0#8 ++ s.status.errInfo ++ s.status.errCode ++ 0#3 ++ BitVec.ofBool s.status.overrun ++
    BitVec.ofBool s.status.notcomp ++ BitVec.ofBool s.status.err ++ BitVec.ofBool s.status.done ++ BitVec.ofBool s.busy

/-- A host write of STATUS: a 1 in bit [1] clears DONE and a 1 in bit [4] clears OVERRUN; nothing else changes
(10_state.md R27). -/
def State.writeStatus (v : Word) (s : State) : State :=
  { s with status := { s.status with
      done := s.status.done && !v.getLsbD 1
      overrun := s.status.overrun && !v.getLsbD 4 } }

/-- CTRL.TERM as its field value (10_state.md R25). -/
def Term.field : Term → BitVec 2
  | .lf => 0#2
  | .crlf => 1#2

/-- The value TERM takes when `v` is written to it: 0 and 1 select, 2 and 3 leave it unchanged (10_state.md R25). -/
def Term.write (v : BitVec 2) (t : Term) : Term :=
  match v.toNat with
  | 0 => .lf
  | 1 => .crlf
  | _ => t

/-- CTRL as the host reads it: [0] IE, [2:1] TERM; SOFT_RESET and the reserved bits read 0 (10_state.md R25). -/
def State.ctrlWord (s : State) : Word := 0#29 ++ s.ctrl.term.field ++ BitVec.ofBool s.ctrl.ie

/-- The interrupt output, a level: `CTRL.IE AND STATUS.DONE` (60_exceptions.md R158). -/
def State.irq (s : State) : Bool := s.ctrl.ie && s.status.done

end Sys2Proof.Machine
end

