-- ==== Sys2Proof/Machine/Race.lean ====
section
/-! DEFINITION. What the spec leaves open about windows of a running command: bytes that take any value when a command
is abandoned (70_reset_and_hazards.md R168) and the results of a command after a HOST_RACE (20_memory.md R72,
93_implementation_defined.md U4, U5). Every open value is a free value of Config. -/

namespace Sys2Proof.Machine

/-- Every byte of DMEM inside the window takes a free value; the rest of DMEM keeps its bytes. -/
def Memory.scramble (draw memBytes : Nat) (w : Window) (m : Memory) : Memory :=
  m.writeBytes w.base
    ((List.range (min w.len (memBytes - w.base))).map fun i => BitVec.ofNat 8 (Config.free draw (w.base + i)))

/-- What a command may write beside BUSY and DONE (30_encoding.md R83, column "writes"; 10_state.md R36). -/
structure WriteSet where
  freq : Bool := false
  nodes : Bool := false
  code : Bool := false
  dst : Bool := false
  /-- RES_LEN. -/
  len : Bool := true
  /-- RES_BODY and RES_PAD. -/
  body : Bool := false
  /-- RES_HDR and RES_ARCH. -/
  arch : Bool := false
  bits : Bool := false
  /-- ERR, ERRCODE and ERRINFO: commands that can end in an error. -/
  err : Bool := true
  notcomp : Bool := false
  deriving DecidableEq, Repr

/-- The write set of each command (30_encoding.md R83, 10_state.md R31 and R36). -/
def writeSetOf : Instr → WriteSet
  | .nop => { len := false, err := false }
  | .scan => { freq := true }
  | .build => { nodes := true }
  | .assign => { code := true }
  | .measure => { body := true, arch := true, bits := true, notcomp := true }
  | .encode => { dst := true, body := true, arch := true, bits := true, notcomp := true }
  | .pack => { dst := true, body := true, bits := true }
  | .packBits => { dst := true, body := true, bits := true }
  | .unpackBits => { dst := true, bits := true }
  | .decodeBody => { dst := true, bits := true }
  | .parse => { code := true, body := true, arch := true, bits := true }
  | .decompress => { code := true, dst := true, body := true, arch := true, bits := true }
  | .compress =>
    { freq := true, nodes := true, code := true, dst := true, body := true, arch := true, bits := true, notcomp := true }
  | .clear => { freq := true, nodes := true, code := true, body := true, arch := true, bits := true, err := false }

/-- An illegal word may write RES_LEN and the error fields (30_encoding.md R86). -/
def WriteSet.illegal : WriteSet := {}

/-- A free node at index `i`, within the widths of 10_state.md R45 and with children below `i`. -/
def freeNode (draw i : Nat) : Node :=
  if i = 0 ∨ Config.free draw (5 * i) % 2 = 0 then
    .leaf (BitVec.ofNat 8 (Config.free draw (5 * i + 1))) (BitVec.ofNat 40 (Config.free draw (5 * i + 2)))
  else
    .internal (BitVec.ofNat 40 (Config.free draw (5 * i + 2)))
      (BitVec.ofNat 9 (Config.free draw (5 * i + 3) % i)) (BitVec.ofNat 9 (Config.free draw (5 * i + 4) % i))

/-- A free code of at most 255 bits (10_state.md R47): a free length and free bits. -/
def freeCode (draw sym : Nat) : Bits :=
  (List.range (Config.free draw (256 * sym) % 256)).map fun i => Config.free draw (256 * sym + 1 + i) % 2 == 1

/-- Free values for the fields of a write set. It uses draws `d` to `d + 4`: one for the scalar registers, one each for
FREQ, NODE, CODE and DMEM. -/
def State.scramble (w : WriteSet) (s : State) : State :=
  let d := s.draws
  { s with
    freq := if w.freq then Vector.ofFn fun i => BitVec.ofNat 32 (Config.free (d + 1) i.val) else s.freq
    nodes := if w.nodes then (List.range (Config.free (d + 2) 0 % 512)).map (freeNode (d + 2)) else s.nodes
    code := if w.code then Vector.ofFn fun i => freeCode (d + 3) i.val else s.code
    mem := if w.dst then s.mem.scramble (d + 4) s.cfg.memBytes s.dstWin else s.mem
    res :=
      { len := if w.len then BitVec.ofNat 32 (Config.free d 0) else s.res.len
        body := if w.body then BitVec.ofNat 32 (Config.free d 1) else s.res.body
        pad := if w.body then BitVec.ofNat 3 (Config.free d 2) else s.res.pad
        hdr := if w.arch then BitVec.ofNat 32 (Config.free d 3) else s.res.hdr
        arch := if w.arch then BitVec.ofNat 32 (Config.free d 4) else s.res.arch
        bits := if w.bits then BitVec.ofNat 32 (Config.free d 5) else s.res.bits }
    status := { s.status with
      err := if w.err then Config.free d 6 % 2 == 1 else s.status.err
      errCode := if w.err then BitVec.ofNat 8 (Config.free d 7) else s.status.errCode
      errInfo := if w.err then BitVec.ofNat 8 (Config.free d 8) else s.status.errInfo
      notcomp := if w.notcomp then Config.free d 9 % 2 == 1 else s.status.notcomp }
    draws := d + 5 }

/-- What a completed command leaves: after a HOST_RACE with it, free values in all it may write (20_memory.md R72). -/
def State.settle (raced : Bool) (w : WriteSet) (s : State) : State := if raced then s.scramble w else s

end Sys2Proof.Machine
end

