-- ==== Sys2Proof/Machine/Port.lean ====
section
/-! DEFINITION. The host's side of the block: the register port (10_state.md R22 to R43, R55, R56), the DMEM host port
(20_memory.md R58, R72, R73), soft and hard reset (70_reset_and_hazards.md R167, R168), and one turn of the host. -/

namespace Sys2Proof.Machine

/-- The named registers of 10_state.md R23. -/
inductive RegName where
  | id | ctrl | cmd | status
  | srcAddr | srcLen | dstAddr | dstCap | padIn
  | resLen | resBody | resPad | resHdr | resArch | bits
  | nsym | ncodes | maxlen | nnodes | root
  | sel | freqWin | codeLenWin | nodeSel | nodeFreq | nodeFreqHi | nodeInfo
  | codeBitsWin (k : Fin 8)
  deriving DecidableEq, Repr

/-- The register map: the offset of a named register (10_state.md R23). -/
def RegName.offset : RegName → BitVec 8
  | .id => 0x00#8
  | .ctrl => 0x04#8
  | .cmd => 0x08#8
  | .status => 0x0C#8
  | .srcAddr => 0x10#8
  | .srcLen => 0x14#8
  | .dstAddr => 0x18#8
  | .dstCap => 0x1C#8
  | .padIn => 0x20#8
  | .resLen => 0x24#8
  | .resBody => 0x28#8
  | .resPad => 0x2C#8
  | .resHdr => 0x30#8
  | .resArch => 0x34#8
  | .bits => 0x38#8
  | .nsym => 0x3C#8
  | .ncodes => 0x40#8
  | .maxlen => 0x44#8
  | .nnodes => 0x48#8
  | .root => 0x4C#8
  | .sel => 0x50#8
  | .freqWin => 0x54#8
  | .codeLenWin => 0x58#8
  | .nodeSel => 0x5C#8
  | .nodeFreq => 0x60#8
  | .nodeFreqHi => 0x64#8
  | .nodeInfo => 0x68#8
  | .codeBitsWin k => 0x80#8 + 4#8 * BitVec.ofNat 8 k.val

/-- The register an offset names; offset bits [1:0] are ignored, and an offset that the map does not name is reserved
(10_state.md R22, R23). -/
def RegName.ofOffset (o : BitVec 8) : Option RegName :=
  match (o.extractLsb' 2 6).toNat with
  | 0 => some .id
  | 1 => some .ctrl
  | 2 => some .cmd
  | 3 => some .status
  | 4 => some .srcAddr
  | 5 => some .srcLen
  | 6 => some .dstAddr
  | 7 => some .dstCap
  | 8 => some .padIn
  | 9 => some .resLen
  | 10 => some .resBody
  | 11 => some .resPad
  | 12 => some .resHdr
  | 13 => some .resArch
  | 14 => some .bits
  | 15 => some .nsym
  | 16 => some .ncodes
  | 17 => some .maxlen
  | 18 => some .nnodes
  | 19 => some .root
  | 20 => some .sel
  | 21 => some .freqWin
  | 22 => some .codeLenWin
  | 23 => some .nodeSel
  | 24 => some .nodeFreq
  | 25 => some .nodeFreqHi
  | 26 => some .nodeInfo
  | 32 => some (.codeBitsWin 0)
  | 33 => some (.codeBitsWin 1)
  | 34 => some (.codeBitsWin 2)
  | 35 => some (.codeBitsWin 3)
  | 36 => some (.codeBitsWin 4)
  | 37 => some (.codeBitsWin 5)
  | 38 => some (.codeBitsWin 6)
  | 39 => some (.codeBitsWin 7)
  | _ => none

/-! ## Reads -/

/-- ID: the constant "HUFF" (10_state.md R24). -/
def idWord : Word := 0x48554646#32

/-- CODE_BITS_WIN[k] of a code: bits 32k .. 32k+31, the first at bit 31, 0 beyond the code's end (10_state.md R42). -/
def codeWindow (code : Bits) (k : Nat) : Word :=
  BitVec.ofNat 32 (bitsVal ((code.drop (32 * k) ++ List.replicate 32 false).take 32))

/-- NODE_INFO of a valid node: [31] VALID, [30] LEAF, [25:18] SYM, [17:9] RIGHT, [8:0] LEFT (10_state.md R43). -/
def Node.info : Node → Word
  | .leaf sym _ => 1#1 ++ 1#1 ++ 0#4 ++ sym ++ 0#9 ++ 0#9
  | .internal _ left right => 1#1 ++ 0#1 ++ 0#4 ++ 0#8 ++ right ++ left

/-- The node NODE_SEL selects, if it is below NNODES (10_state.md R43). -/
def State.selectedNode (s : State) : Option Node := s.nodes[s.nodeSel.toNat]?

/-- What a named register reads while no command runs (10_state.md R24 to R43). -/
def State.readReg (s : State) : RegName → Word
  | .id => idWord
  | .ctrl => s.ctrlWord
  | .cmd => s.cmd
  | .status => s.statusWord
  | .srcAddr => s.params.srcAddr
  | .srcLen => s.params.srcLen
  | .dstAddr => s.params.dstAddr
  | .dstCap => s.params.dstCap
  | .padIn => s.params.padIn.setWidth 32
  | .resLen => s.res.len
  | .resBody => s.res.body
  | .resPad => s.res.pad.setWidth 32
  | .resHdr => s.res.hdr
  | .resArch => s.res.arch
  | .bits => s.res.bits
  | .nsym => BitVec.ofNat 32 (Machine.nsym s.freq)
  | .ncodes => BitVec.ofNat 32 (Machine.ncodes s.code)
  | .maxlen => BitVec.ofNat 32 (maxLen s.code)
  | .nnodes => BitVec.ofNat 32 s.nodes.length
  | .root => BitVec.ofNat 32 (rootIndex s.nodes)
  | .sel => s.sel.setWidth 32
  | .freqWin => FreqTable.get s.freq s.sel
  | .codeLenWin => BitVec.ofNat 32 (CodeTable.get s.code s.sel).length
  | .nodeSel => s.nodeSel.setWidth 32
  | .nodeFreq => match s.selectedNode with
    | some n => n.freq.extractLsb' 0 32
    | none => 0#32
  | .nodeFreqHi => match s.selectedNode with
    | some n => (n.freq.extractLsb' 32 8).setWidth 32
    | none => 0#32
  | .nodeInfo => match s.selectedNode with
    | some n => n.info
    | none => 0#32
  | .codeBitsWin k => codeWindow (CodeTable.get s.code s.sel) k.val

/-- The registers that read their true values while BUSY = 1 (10_state.md R55). -/
def RegName.trueWhileBusy : RegName → Bool
  | .id | .ctrl | .cmd | .status | .srcAddr | .srcLen | .dstAddr | .dstCap | .padIn | .sel | .nodeSel => true
  | _ => false

/-- A host read that returns a free value: any value, with no effect on the block (93_implementation_defined.md U2, U3). -/
def State.returnFree (width : Nat) (s : State) : State :=
  { s with readData := (BitVec.ofNat width (Config.free s.draws 0)).setWidth 32, draws := s.draws + 1 }

/-- A host register read (10_state.md R22, R55). -/
def State.regRead (o : BitVec 8) (s : State) : State :=
  match RegName.ofOffset o with
  | none => { s with readData := 0#32 }
  | some r => if s.busy && !r.trueWhileBusy then s.returnFree 32 else { s with readData := s.readReg r }

/-- A host DMEM read (20_memory.md R58, R73): 0 at or above MEM_BYTES, a free value inside the destination window while
BUSY = 1, else the byte. -/
def State.memRead (a : Nat) (s : State) : State :=
  if s.cfg.memBytes ≤ a then { s with readData := 0#32 }
  else if s.busy ∧ s.dstWin.Contains a then s.returnFree 8
  else { s with readData := (s.mem.read a).setWidth 32 }

/-! ## Reset -/

/-- Every register and table at its reset value (10_state.md R54). The parameters of the block, the host's own side and
the record of a HOST_RACE, which is never cleared (20_memory.md R72), stay. -/
def State.resetRegs (s : State) : State :=
  { State.reset with
    cfg := s.cfg, mem := s.mem, recorded := s.recorded, host := s.host, readData := s.readData
    delays := s.delays, draws := s.draws }

/-- Soft reset (70_reset_and_hazards.md R168): DMEM keeps its contents, but a command in flight is abandoned and the
bytes of its destination window then hold unspecified values. -/
def State.softReset (s : State) : State :=
  if s.busy then
    { s.resetRegs with mem := s.mem.scramble s.draws s.cfg.memBytes s.dstWin, draws := s.draws + 1 }
  else s.resetRegs

/-- Hard reset (70_reset_and_hazards.md R167): as soft reset, and every byte of DMEM is unspecified. -/
def State.hardReset (s : State) : State := { s.resetRegs with mem := s.mem.powerOn }

/-! ## Writes -/

/-- A host write of CTRL: bit [31] resets; else IE is written, and TERM too unless BUSY = 1 (10_state.md R25). -/
def State.writeCtrl (v : Word) (s : State) : State :=
  if v.getLsbD 31 then s.softReset
  else { s with ctrl := ⟨v.getLsbD 0, if s.busy then s.ctrl.term else s.ctrl.term.write (v.extractLsb' 1 2)⟩ }

/-- A host write of CMD: acceptance, or OVERRUN while BUSY = 1 (10_state.md R26, R32). -/
def State.writeCmd (v : Word) (s : State) : State :=
  if s.busy then { s with status := { s.status with overrun := true } } else s.accept v

/-- A host write of a register that is frozen while BUSY = 1 (10_state.md R56), or that is read-only (R23). -/
def State.writeIdle (r : RegName) (v : Word) (s : State) : State :=
  match r with
  | .srcAddr => { s with params := { s.params with srcAddr := v } }
  | .srcLen => { s with params := { s.params with srcLen := v } }
  | .dstAddr => { s with params := { s.params with dstAddr := v } }
  | .dstCap => { s with params := { s.params with dstCap := v } }
  | .padIn => { s with params := { s.params with padIn := v.extractLsb' 0 3 } }
  | .sel => { s with sel := v.extractLsb' 0 8 }
  | .nodeSel => { s with nodeSel := v.extractLsb' 0 9 }
  | .freqWin => { s with freq := FreqTable.put s.freq s.sel v }
  | _ => s

/-- A host write of a named register. -/
def State.writeReg (r : RegName) (v : Word) (s : State) : State :=
  match r with
  | .ctrl => s.writeCtrl v
  | .cmd => s.writeCmd v
  | .status => s.writeStatus v
  | r => if s.busy then s else s.writeIdle r v

/-- A host register write; at a reserved offset it has no effect (10_state.md R22). -/
def State.regWrite (o : BitVec 8) (v : Word) (s : State) : State :=
  match RegName.ofOffset o with
  | none => s
  | some r => s.writeReg r v

/-- A host DMEM write (20_memory.md R58): no effect at or above MEM_BYTES. While BUSY = 1, a write inside a window of the
running command is a HOST_RACE, recorded and remembered with the command (R72). -/
def State.memWrite (a : Nat) (v : Byte) (s : State) : State :=
  if s.cfg.memBytes ≤ a then s
  else
    let t := { s with mem := s.mem.write a v }
    match s.flight with
    | none => t
    | some f =>
      if s.srcWin.Contains a ∨ s.dstWin.Contains a then
        { t with flight := some { f with raced := true }, recorded := some .hostRace }
      else t

/-! ## The host's turn -/

/-- The effect of one host access on the block. A poll reads STATUS. -/
def State.access (x : HostAction) (s : State) : State :=
  match x with
  | .regWrite o v => s.regWrite o v
  | .regRead o => s.regRead o
  | .memWrite a v => s.memWrite a v
  | .memRead a => s.memRead a
  | .poll => s.regRead RegName.status.offset
  | .hardReset => s.hardReset

/-- Does a poll end here? BUSY = 0 and DONE = 1 (30_encoding.md R88, 70_reset_and_hazards.md R175). -/
def State.pollEnds (s : State) : Bool := !s.busy && s.status.done

/-- One turn of the host: its next access, in the order issued (20_memory.md R69). A poll stays next until it ends. A
host with nothing to do leaves the block idle (60_exceptions.md R166). -/
def State.hostTurn (s : State) : State :=
  match s.host with
  | [] => s
  | .poll :: rest => if s.pollEnds then { s.access .poll with host := rest } else s.access .poll
  | x :: rest => { s.access x with host := rest }

end Sys2Proof.Machine
end

