-- ==== Sys2Proof/Machine/Complete.lean ====
section
/-! DEFINITION. The core's side of the block: the completion step of the in-flight command (30_encoding.md R85). -/

namespace Sys2Proof.Machine

/-- The outcome with its next state settled (20_memory.md R72). -/
def settleOutcome (raced : Bool) (w : WriteSet) :
    Host.Outcome State Fault Refusal → Host.Outcome State Fault Refusal
  | .next t => .next (t.settle raced w)
  | .fault r => .fault r
  | .refused r => .refused r

/-- The completion step of the command whose word CMD holds: the meaning of the command, or ILLEGAL_CMD for an illegal
word (30_encoding.md R85, R86). -/
def complete (raced : Bool) (s : State) : Host.Outcome State Fault Refusal :=
  match decode s.cmd with
  | .ok i => settleOutcome raced (writeSetOf i) (exec i s)
  | .error _ => .next (s.illegalCommand.settle raced WriteSet.illegal)

/-- A step in which the command in flight does not complete yet: its delay shrinks and the host has a turn. -/
def State.waitTurn (delay : Nat) (raced : Bool) (s : State) : State :=
  { s with flight := some ⟨delay, raced⟩ }.hostTurn

end Sys2Proof.Machine
end

