-- ==== Sys2Proof/Machine/Step.lean ====
section
/-! DEFINITION. One step of the block and its host: the core completes a command whose delay has passed, else the host has
its turn (00_scope.md R18, 30_encoding.md R84, R85). -/

namespace Sys2Proof.Machine

/-- One step. The block has no program counter: the command it runs is the word in CMD while a command is in flight
(10_state.md R21, R26, R52). -/
def step (s : State) : Host.Outcome State Fault Refusal :=
  match s.flight with
  | none => .next s.hostTurn
  | some ⟨0, raced⟩ => complete raced s
  | some ⟨d + 1, raced⟩ => .next (s.waitTurn d raced)

/-- The state with the word accepted as the in-flight command and no delay left, so that the next step completes exactly
it: the host's CMD write (30_encoding.md R84), which is how every command reaches the block. -/
def State.withFetchWord (s : State) (nbits w : Nat) : State :=
  s.acceptAfter 0 (BitVec.ofNat 32 (w % 2 ^ nbits))

end Sys2Proof.Machine
end

