-- ==== Sys2Proof/Machine/HostLine.lean ====
section
/-! DEFINITION. The host command lines of 30_encoding.md R88 as port accesses. -/

namespace Sys2Proof.Machine

/-- A line of a host program (30_encoding.md R88). -/
inductive HostLine where
  | wr (r : RegName) (v : Word)
  | rd (r : RegName)
  | memw (a : Nat) (bytes : List Byte)
  | memr (a n : Nat)
  | cmd (i : Instr)
  | wait
  | run (i : Instr)
  | ack
  deriving DecidableEq, Repr

/-- The port accesses of a line (30_encoding.md R88, column "port accesses"). MEMW and MEMR go upward without wrap,
which is the model's choice (DESIGN CHOICE, notes/assumptions/15.md: R58 gives an address no width); the bytes at or above
MEM_BYTES are refused by the port (20_memory.md R58). -/
def HostLine.accesses : HostLine → List HostAction
  | .wr r v => [.regWrite r.offset v]
  | .rd r => [.regRead r.offset]
  | .memw a bytes => bytes.zipIdx.map fun p => .memWrite (a + p.2) p.1
  | .memr a n => (List.range n).map fun i => .memRead (a + i)
  | .cmd i => [.regWrite RegName.cmd.offset (encode i)]
  | .wait => [.poll]
  | .run i => [.regWrite RegName.cmd.offset (encode i), .poll]
  | .ack => [.regWrite RegName.status.offset 0x00000012#32]

/-- A host program as port accesses, in order. -/
def hostProgram (lines : List HostLine) : List HostAction := lines.flatMap HostLine.accesses

end Sys2Proof.Machine
end

