-- ==== Sys2Proof/Safety.lean ====
section
/-! DEFINITION. What counts as a safe run, and the invariants of the block. -/

namespace Sys2Proof.Machine

/-- No HOST_RACE recorded: the premise of every claim about a run (60_exceptions.md R160). -/
def State.NoRace (s : State) : Prop := s.recorded = none

/-- Some frequency table with at least one symbol present. -/
def FreqTable.NonEmpty (f : FreqTable) : Prop := nsym f ≠ 0

/-- No non-empty code stands for two symbols (43_prefix_decoder.md R141). -/
def CodeTable.Distinct (code : CodeTable) : Prop :=
  ∀ a b : Byte, (CodeTable.get code a).length ≠ 0 → CodeTable.get code a = CodeTable.get code b → a = b

/-- No code is a prefix of the code of another symbol (00_scope.md R17, "Prefix code"). -/
def CodeTable.PrefixFree (code : CodeTable) : Prop :=
  ∀ a b : Byte, (CodeTable.get code a).length ≠ 0 → CodeTable.get code a <+: CodeTable.get code b → a = b

/-- Every CODE_LEN fits its 8 bits (10_state.md R47). -/
def CodeTable.Bounded (code : CodeTable) : Prop := ∀ a : Byte, (CodeTable.get code a).length ≤ 255

/-- The memory is in its canonical form (Machine/Ops.lean). -/
def State.MemoryOk (s : State) : Prop := Memory.wf s.cfg.memBytes s.mem

/-- The widths and bounds of the tables: at most 511 nodes, every child below its parent, codes of at most 255 bits
(10_state.md R45, R47). -/
def State.TablesBounded (s : State) : Prop :=
  s.nodes.length ≤ 511 ∧
  (∀ (n : Nat) (f : BitVec 40) (l r : BitVec 9), s.nodes[n]? = some (.internal f l r) → l.toNat < n ∧ r.toNat < n) ∧
  CodeTable.Bounded s.code

/-- Unless a HOST_RACE was recorded, the tree is none or one that BUILD makes of a non-empty frequency table, and the code
table is empty, or one that ASSIGN makes of such a tree, or the table of a well-parsed archive
(10_state.md R45, R47). -/
def State.TablesMade (s : State) : Prop :=
  s.recorded = none →
    (s.nodes = [] ∨ ∃ f : FreqTable, FreqTable.NonEmpty f ∧ s.nodes = buildNodes f) ∧
    (s.code = CodeTable.empty ∨
      (∃ f : FreqTable, FreqTable.NonEmpty f ∧ s.code = assignCodes (buildNodes f)) ∨
      (∃ (t : Term) (a : List Byte) (r : Parsed), parseArchive t.bytes a = .ok r ∧ s.code = CodeTable.ofEntries r.entries))

/-- A raced command is one whose race has been recorded (20_memory.md R72). -/
def State.RaceRecorded (s : State) : Prop := ∀ f : Flight, s.flight = some f → f.raced = true → s.recorded = some .hostRace

/-- While a command is in flight no outcome shows, and an outcome is success, not-compressible or one error of
60_exceptions.md R149 with a sub-cause exactly for MALFORMED_ARCHIVE (10_state.md R29 to R31, 60_exceptions.md R155). -/
def State.OutcomeOk (s : State) : Prop :=
  (s.busy = true → s.status.done = false ∧ s.status.err = false ∧ s.status.notcomp = false) ∧
  (s.recorded = none →
    (s.status.err = false → s.status.errCode = 0#8 ∧ s.status.errInfo = 0#8) ∧
    (s.status.err = true →
      s.status.notcomp = false ∧ 0x01 ≤ s.status.errCode.toNat ∧ s.status.errCode.toNat ≤ 0x0B ∧
      s.status.errInfo.toNat ≤ 0x0C ∧ (s.status.errInfo ≠ 0#8 ↔ s.status.errCode = 0x0A#8)))

/-! ## Vocabulary of the statements -/

/-- The source window lies in DMEM (20_memory.md R66). -/
def State.SrcReady (s : State) : Prop := s.params.srcAddr.toNat + s.params.srcLen.toNat ≤ s.cfg.memBytes

/-- The destination window lies in DMEM (20_memory.md R66). -/
def State.DstReady (s : State) : Prop := s.params.dstAddr.toNat + s.params.dstCap.toNat ≤ s.cfg.memBytes

/-- The windows share a byte (20_memory.md R67). -/
def State.WindowsOverlap (s : State) : Prop :=
  0 < s.params.srcLen.toNat ∧ 0 < s.params.dstCap.toNat ∧
  s.params.srcAddr.toNat < s.params.dstAddr.toNat + s.params.dstCap.toNat ∧
  s.params.dstAddr.toNat < s.params.srcAddr.toNat + s.params.srcLen.toNat

/-- Both windows lie in DMEM and share no byte. -/
def State.WindowsReady (s : State) : Prop := s.SrcReady ∧ s.DstReady ∧ ¬ s.WindowsOverlap

/-- The commands that use both windows (60_exceptions.md R149, row OVERLAP). -/
def bothWindowCommands : List Instr := [.encode, .pack, .packBits, .unpackBits, .decodeBody, .decompress, .compress]

/-- The commands that write no DMEM byte at all (30_encoding.md R83). -/
def storelessCommands : List Instr := [.nop, .scan, .build, .assign, .measure, .parse, .clear]

/-- The leaf that a path of left (0) and right (1) turns reaches from node `n` (40_tree_builder.md R104). -/
def leafAt (nodes : List Node) : Nat → Bits → Option Byte
  | n, [] => match nodes[n]? with
    | some (.leaf sym _) => some sym
    | _ => none
  | n, x :: p => match nodes[n]? with
    | some (.internal _ l r) => leafAt nodes (if x then r.toNat else l.toNat) p
    | _ => none

/-- Node `i` is in the queue when node `k` is made: it is there, and no node made before `k` has it as a child
(40_tree_builder.md R99). -/
def Queued (nodes : List Node) (k i : Nat) : Prop :=
  i < k ∧ ∀ (j : Nat) (f : BitVec 40) (l r : BitVec 9), j < k → nodes[j]? = some (.internal f l r) →
    l.toNat ≠ i ∧ r.toNat ≠ i

/-- Node `i` has the lesser freq, or the same freq and the lesser index (40_tree_builder.md R100). -/
def Before (nodes : List Node) (i j : Nat) : Prop :=
  nodeFreq nodes i < nodeFreq nodes j ∨ (nodeFreq nodes i = nodeFreq nodes j ∧ i < j)

/-- A number of line 1: 1 to 10 ASCII digits of a value of at most 2^32 - 1 (42_archive_codec.md R129). -/
def IsNumber (d : List Byte) : Prop :=
  1 ≤ d.length ∧ d.length ≤ 10 ∧ (∀ b ∈ d, 0x30 ≤ b.toNat ∧ b.toNat ≤ 0x39) ∧ decVal d ≤ 2 ^ 32 - 1

/-- The next line of a region is `content` and `rest` comes after it: the content holds no T and ends at a T, or at the end
of the region (42_archive_codec.md R128). -/
def ReadsLine (t region content rest : List Byte) : Prop :=
  region ≠ [] ∧ ¬ t <:+: content ∧
    (region = content ++ t ++ rest ∨ (region = content ∧ rest = []))

/-- The refusals of line 1 in order, and how the parse goes on after it (42_archive_codec.md R129). -/
def LineOneRule (t : Term) : Prop :=
  (∀ a : List Byte, parseArchive t.bytes a = .error .line1Unterminated ↔ ¬ t.bytes <:+: a) ∧
  (∀ c rest : List Byte, ¬ t.bytes <:+: c → (¬ ∃ d1 d2 : List Byte, IsNumber d1 ∧ IsNumber d2 ∧ c = d1 ++ [0x20#8] ++ d2) →
    parseArchive t.bytes (c ++ t.bytes ++ rest) = .error .line1Syntax) ∧
  ∀ d1 d2 rest : List Byte, IsNumber d1 → IsNumber d2 →
    (7 < decVal d2 ∨ (decVal d1 = 0 ∧ 0 < decVal d2) →
      parseArchive t.bytes (d1 ++ [0x20#8] ++ d2 ++ t.bytes ++ rest) = .error .padRange) ∧
    (decVal d2 ≤ 7 → (decVal d1 = 0 → decVal d2 = 0) → rest.length < decVal d1 →
      parseArchive t.bytes (d1 ++ [0x20#8] ++ d2 ++ t.bytes ++ rest) = .error .bodyLength) ∧
    (decVal d2 ≤ 7 → (decVal d1 = 0 → decVal d2 = 0) → ∀ region body : List Byte, rest = region ++ body →
      body.length = decVal d1 →
      (∀ k : SubCause, parseRegion t.bytes region = .error k →
        parseArchive t.bytes (d1 ++ [0x20#8] ++ d2 ++ t.bytes ++ rest) = .error k) ∧
      (∀ w : Entries, parseRegion t.bytes region = .ok w →
        parseArchive t.bytes (d1 ++ [0x20#8] ++ d2 ++ t.bytes ++ rest) =
          .ok ⟨w, decVal d1, decVal d2, d1.length + 1 + d2.length + t.bytes.length + region.length⟩))

/-- The refusals of line 2 in order, and what it registers for LF and CR (42_archive_codec.md R130, R132). -/
def LineTwoRule (t : Term) : Prop :=
  parseRegion t.bytes [] = .error .noSentinel ∧
  ∀ region c rest : List Byte, ReadsLine t.bytes region c rest →
    ((¬ ∃ f1 : Bits, c = ascii f1) → (¬ ∃ f1 f2 : Bits, c = ascii f1 ++ [0x20#8] ++ ascii f2) →
      parseRegion t.bytes region = .error .line2Syntax) ∧
    (∀ f1 : Bits, c = ascii f1 →
      (255 < f1.length → parseRegion t.bytes region = .error .codeTooLong) ∧
      (f1.length ≤ 255 →
        parseRegion t.bytes region = parseOrdinary t.bytes rest (if f1 = [] then [] else [(0x0A#8, f1)]))) ∧
    (∀ f1 f2 : Bits, c = ascii f1 ++ [0x20#8] ++ ascii f2 →
      (255 < f1.length → parseRegion t.bytes region = .error .codeTooLong) ∧
      (f1.length ≤ 255 →
        (f2 = [] → parseRegion t.bytes region = .error .emptyCode) ∧
        (255 < f2.length → parseRegion t.bytes region = .error .codeTooLong) ∧
        (f2 ≠ [] → f2.length ≤ 255 →
          (f1 = f2 → parseRegion t.bytes region = .error .dupCode) ∧
          (f1 ≠ f2 → parseRegion t.bytes region =
            parseOrdinary t.bytes rest ((if f1 = [] then [] else [(0x0A#8, f1)]) ++ [(0x0D#8, f2)])))))

/-- The refusals of an ordinary line in order, what it registers, and the sentinel (42_archive_codec.md R131, R132). -/
def OrdinaryLineRule (t : Term) : Prop :=
  ∀ w : Entries, parseOrdinary t.bytes [] w = .error .noSentinel ∧
  ∀ region c rest : List Byte, ReadsLine t.bytes region c rest →
    (c = [0x21#8, 0x40#8] → parseOrdinary t.bytes region w = .ok w) ∧
    (c ≠ [0x21#8, 0x40#8] →
      (¬ ∃ (b : Byte) (p : Bits), b ≠ 0x0A#8 ∧ b ≠ 0x0D#8 ∧ c = [b, 0x3A#8, 0x20#8] ++ ascii p) →
      parseOrdinary t.bytes region w = .error .lineSyntax) ∧
    (∀ (b : Byte) (p : Bits), b ≠ 0x0A#8 → b ≠ 0x0D#8 → c = [b, 0x3A#8, 0x20#8] ++ ascii p →
      (p = [] → parseOrdinary t.bytes region w = .error .emptyCode) ∧
      (255 < p.length → parseOrdinary t.bytes region w = .error .codeTooLong) ∧
      (p ≠ [] → p.length ≤ 255 →
        ((∃ e ∈ w, e.1 = b) → parseOrdinary t.bytes region w = .error .dupSymbol) ∧
        ((∀ e ∈ w, e.1 ≠ b) → (∃ e ∈ w, e.2 = p) → parseOrdinary t.bytes region w = .error .dupCode) ∧
        ((∀ e ∈ w, e.1 ≠ b) → (∀ e ∈ w, e.2 ≠ p) →
          parseOrdinary t.bytes region w = parseOrdinary t.bytes rest (w ++ [(b, p)]))))

/-- Accept a command with no delay and complete it: `RUN` of 30_encoding.md R88 as one function. -/
def runCommand (i : Instr) (s : State) : Host.Outcome State Fault Refusal := exec i (s.acceptAfter 0 (encode i))

/-- Run commands in order, stopping at the first that ends in error (30_encoding.md R89). -/
def runUntilError : List Instr → State → Host.Outcome State Fault Refusal
  | [], s => .next s
  | i :: rest, s =>
    match runCommand i s with
    | .next t => if t.status.err then .next t else runUntilError rest t
    | o => o

/-- The host's register writes between PARSE and DECODE_BODY: the body of the parsed archive becomes the source window
and its padding PAD_IN (30_encoding.md R89). -/
def State.selectBody (s : State) : State :=
  { s with params := { s.params with
      srcAddr := s.params.srcAddr + s.res.hdr, srcLen := s.res.body, padIn := s.res.pad } }

/-- The host's register writes before it decompresses what it has just compressed: the archive becomes the source window
and the destination window is chosen anew (42_archive_codec.md R138). -/
def State.selectArchive (s : State) (dst cap : Word) : State :=
  { s with params := { s.params with
      srcAddr := s.params.dstAddr, srcLen := s.res.len, dstAddr := dst, dstCap := cap } }

/-- No reset is among the host's pending accesses: neither a hard reset nor a CTRL write with bit [31] set. -/
def State.NoResetPending (s : State) : Prop :=
  ∀ x ∈ s.host, x ≠ .hardReset ∧ ∀ (o : BitVec 8) (v : Word), x = .regWrite o v →
    RegName.ofOffset o = some .ctrl → v.getLsbD 31 = false

end Sys2Proof.Machine
end

