-- ==== Sys2Proof/Certificates/Slice0/Obligations.lean ====
section
/-! DEFINITION. The statements about the block, for the provers. Each is a `def Obligations.<Name> : Prop`. -/

open Sys2Proof Sys2Proof.Machine

/-! ## Encoding and the step -/

/-- R83, R86: a word decodes to a command exactly when it is that command's encoding, so no bit of a word is dropped. -/
def Obligations.DecodeAndEncodeAgree : Prop :=
  ∀ (w : Word) (i : Instr), decode w = .ok i ↔ w = encode i

/-- The fourteen words of 30_encoding.md R83, each written out, decode to the commands they stand for. -/
def Obligations.OpcodeMapWordsDecode : Prop :=
  decode 0x00000000#32 = .ok .nop ∧ decode 0x00000001#32 = .ok .scan ∧ decode 0x00000002#32 = .ok .build ∧
  decode 0x00000003#32 = .ok .assign ∧ decode 0x00000004#32 = .ok .measure ∧ decode 0x00000005#32 = .ok .encode ∧
  decode 0x00000006#32 = .ok .pack ∧ decode 0x00000007#32 = .ok .packBits ∧ decode 0x00000008#32 = .ok .unpackBits ∧
  decode 0x00000009#32 = .ok .decodeBody ∧ decode 0x0000000A#32 = .ok .parse ∧ decode 0x0000000B#32 = .ok .decompress ∧
  decode 0x0000000C#32 = .ok .compress ∧ decode 0x0000000D#32 = .ok .clear

/-- R86: a word is illegal iff RSVD is not 0 or OP is at least 0x0E, and an illegal word completes with ILLEGAL_CMD,
ERRINFO = 0 and RES_LEN = 0 and changes no other state. -/
def Obligations.IllegalWordsCompleteWithIllegalCmd : Prop :=
  (∀ w : Word, (∃ e, decode w = .error e) ↔ (w.extractLsb' 8 24 ≠ 0#24 ∨ 0x0E ≤ (w.extractLsb' 0 8).toNat)) ∧
  (∀ s : State, s.flight = some ⟨0, false⟩ →
    (s.cmd.extractLsb' 8 24 ≠ 0#24 ∨ 0x0E ≤ (s.cmd.extractLsb' 0 8).toNat) →
    step s = .next { s with
      flight := none
      res := { s.res with len := 0#32 }
      status := { s.status with done := true, err := true, errCode := 0x01#8, errInfo := 0x00#8 } })

/-- A step completes the decoded command when no delay is left; while a delay is left the host has a turn and the delay
shrinks by one; with no command in flight the host has a turn. A turn performs the first of the host's pending accesses and
drops it (R69); a poll reads STATUS and stays until BUSY = 0 and DONE = 1 (R88); with no access pending nothing happens. A delay as a number of steps, and the host's turns in it, are
the model's choice (notes/assumptions/4.md and 5.md). -/
def Obligations.StepRunsTheDecodedCommand : Prop :=
  (∀ (s : State) (i : Instr), s.flight = some ⟨0, false⟩ → decode s.cmd = .ok i → step s = exec i s) ∧
  (∀ (s : State) (d : Nat) (raced : Bool), s.flight = some ⟨d + 1, raced⟩ →
    step s = .next { s with flight := some ⟨d, raced⟩ }.hostTurn) ∧
  (∀ s : State, s.flight = none → step s = .next s.hostTurn) ∧
  (∀ s : State, s.host = [] → s.hostTurn = s) ∧
  (∀ (s : State) (x : HostAction) (rest : List HostAction), s.host = x :: rest → x ≠ .poll →
    s.hostTurn = { s.access x with host := rest }) ∧
  (∀ (s : State) (rest : List HostAction), s.host = .poll :: rest →
    s.hostTurn = { s.regRead 0x0C#8 with
      host := if s.flight = none ∧ s.status.done = true then rest else .poll :: rest }) ∧
  (∀ (s : State) (o : BitVec 8) (v : Word) (a : Nat) (b : Byte),
    s.access (.regWrite o v) = s.regWrite o v ∧ s.access (.regRead o) = s.regRead o ∧
    s.access (.memWrite a b) = s.memWrite a b ∧ s.access (.memRead a) = s.memRead a ∧
    s.access .hardReset = s.hardReset)

/-- R84: acceptance of any word stores it in CMD, sets BUSY, clears DONE, ERR, ERRCODE, ERRINFO and NOTCOMP, and leaves
OVERRUN and everything else of the block unchanged. The delay and the lists it comes from are the
model's choice (notes/assumptions/4.md) and stay open here. -/
def Obligations.AcceptanceOfACommandWord : Prop :=
  ∀ (s : State) (w : Word), s.flight = none → ∃ (d : Nat) (ds : List Nat) (n : Nat),
    s.regWrite 0x08#8 w = { s with
      cmd := w
      flight := some ⟨d, false⟩
      status := ⟨false, false, false, s.status.overrun, 0#8, 0#8⟩
      delays := ds
      draws := n }

/-- Every command completes from every state, and whatever its outcome BUSY is 0 and DONE is 1 afterwards and nothing
but the tables, the result registers, DMEM and the outcome fields of STATUS has changed (R29, R56, R82, R85). So no step
faults or is refused, and none changes the parameters of the block. -/
def Obligations.EveryCommandCompletes : Prop :=
  (∀ s : State, ∃ t : State, step s = .next t ∧ t.cfg = s.cfg) ∧
  ∀ (i : Instr) (s : State), ∃ t : State, exec i s = .next t ∧
    t.flight = none ∧ t.status.done = true ∧ t.status.overrun = s.status.overrun ∧
    t.cfg = s.cfg ∧ t.ctrl = s.ctrl ∧ t.cmd = s.cmd ∧ t.params = s.params ∧ t.sel = s.sel ∧ t.nodeSel = s.nodeSel ∧
    t.recorded = s.recorded ∧ t.host = s.host ∧ t.readData = s.readData ∧ t.delays = s.delays ∧ t.draws = s.draws

/-! ## Frames -/

/-- R44, R45, R47: among the commands, only SCAN, COMPRESS and CLEAR change FREQ, only BUILD, COMPRESS and CLEAR change
NODE, and only ASSIGN, PARSE, DECOMPRESS, COMPRESS and CLEAR change CODE. -/
def Obligations.TablesChangeOnlyByTheirCommands : Prop :=
  ∀ (i : Instr) (s t : State), exec i s = .next t →
    (i ∉ [Instr.scan, .compress, .clear] → t.freq = s.freq) ∧
    (i ∉ [Instr.build, .compress, .clear] → t.nodes = s.nodes) ∧
    (i ∉ [Instr.assign, .parse, .decompress, .compress, .clear] → t.code = s.code)

/-- R36: a command not named for a result register leaves it unchanged, RES_LEN is 0 on every error, and an error leaves
the size registers unchanged but for DST_OVERFLOW of ENCODE and COMPRESS and a decode-stage error of DECOMPRESS. -/
def Obligations.ResultRegistersChangeOnlyAsListed : Prop :=
  ∀ (i : Instr) (s t : State), s.status.err = false → exec i s = .next t →
    (i = .nop → t.res = s.res) ∧
    (i ∉ [Instr.measure, .encode, .pack, .packBits, .parse, .decompress, .compress, .clear] →
      t.res.body = s.res.body ∧ t.res.pad = s.res.pad) ∧
    (i ∉ [Instr.measure, .encode, .parse, .decompress, .compress, .clear] →
      t.res.hdr = s.res.hdr ∧ t.res.arch = s.res.arch) ∧
    (i ∉ [Instr.measure, .encode, .pack, .packBits, .unpackBits, .decodeBody, .parse, .decompress, .compress, .clear] →
      t.res.bits = s.res.bits) ∧
    (t.status.err = true → t.res.len = 0#32) ∧
    (t.status.err = true →
      ¬(i ∈ [Instr.encode, .compress] ∧ t.status.errCode = 0x05#8) →
      ¬(i = .decompress ∧ (t.status.errCode = 0x05#8 ∨ t.status.errCode = 0x0B#8 ∨ t.status.errInfo = 0x0C#8)) →
      t.res = { s.res with len := 0#32 })

/-- R75: a command writes only the destination bytes DST_ADDR .. DST_ADDR + RES_LEN - 1, inside the destination window;
every other byte keeps its value, and a command that ends in error or not-compressible writes no byte. -/
def Obligations.OnlyTheOutputBytesOfDmemChange : Prop :=
  ∀ (i : Instr) (s t : State), s.status.err = false → s.status.notcomp = false → exec i s = .next t →
    (i ∈ storelessCommands → t.mem = s.mem) ∧
    (t.status.err = true ∨ t.status.notcomp = true → t.mem = s.mem) ∧
    (i ∉ storelessCommands → t.res.len.toNat ≤ s.params.dstCap.toNat) ∧
    (∀ a : Nat, ¬(s.params.dstAddr.toNat ≤ a ∧ a < s.params.dstAddr.toNat + t.res.len.toNat) →
      t.mem.read a = s.mem.read a)

/-! ## Errors -/

/-- R152, R153: what `raise` and `notcomp` leave. R149, R150: the ERRCODE of every error and the ERRINFO of every
sub-cause; ERRINFO is 0 for every error but MALFORMED_ARCHIVE. -/
def Obligations.ErrorAndNotCompressibleCompletion : Prop :=
  [ErrCode.illegalCmd, .emptyInput, .range, .overlap, .dstOverflow, .noTree, .noCode, .badBit, .badPad,
    .truncatedStream].map (fun e => (e.code, e.info)) =
    [(0x01#8, 0x00#8), (0x02#8, 0x00#8), (0x03#8, 0x00#8), (0x04#8, 0x00#8), (0x05#8, 0x00#8), (0x06#8, 0x00#8),
      (0x07#8, 0x00#8), (0x08#8, 0x00#8), (0x09#8, 0x00#8), (0x0B#8, 0x00#8)] ∧
  [SubCause.line1Unterminated, .line1Syntax, .padRange, .bodyLength, .line2Syntax, .lineSyntax, .emptyCode, .codeTooLong,
    .dupSymbol, .dupCode, .noSentinel, .unmatched].map
      (fun k => ((ErrCode.malformedArchive k).code, (ErrCode.malformedArchive k).info)) =
    [(0x0A#8, 0x01#8), (0x0A#8, 0x02#8), (0x0A#8, 0x03#8), (0x0A#8, 0x04#8), (0x0A#8, 0x05#8), (0x0A#8, 0x06#8),
      (0x0A#8, 0x07#8), (0x0A#8, 0x08#8), (0x0A#8, 0x09#8), (0x0A#8, 0x0A#8), (0x0A#8, 0x0B#8), (0x0A#8, 0x0C#8)] ∧
  ∀ (s : State) (e : ErrCode),
    s.raise e = { s with
      flight := none
      res := { s.res with len := 0#32 }
      status := { s.status with done := true, err := true, errCode := e.code, errInfo := e.info } } ∧
    s.notComp = { s with
      flight := none
      res := { s.res with len := 0#32 }
      status := { s.status with done := true, notcomp := true } }

/-- R66, R67 and the order of R154: a source window outside DMEM raises RANGE, then a destination window outside DMEM
raises RANGE, then windows that share a byte raise OVERLAP, before anything else and with no table changed. -/
def Obligations.WindowChecksComeFirst : Prop :=
  (∀ (i : Instr) (s : State), i ∈ bothWindowCommands →
    (¬ s.SrcReady → exec i s = .next (s.raise .range)) ∧
    (s.SrcReady → ¬ s.DstReady → exec i s = .next (s.raise .range)) ∧
    (s.SrcReady → s.DstReady → s.WindowsOverlap → exec i s = .next (s.raise .overlap))) ∧
  (∀ (i : Instr) (s : State), i ∈ [Instr.scan, .measure, .parse] → ¬ s.SrcReady → exec i s = .next (s.raise .range))

/-! ## Tree builder -/

/-- R96: SCAN of a non-empty window replaces FREQ by the counts of its bytes and changes nothing else but RES_LEN and
STATUS; the counts sum to SRC_LEN and NSYM is the number of distinct bytes. SCAN of an empty window leaves FREQ all zero
and raises EMPTY_INPUT; out of range it raises RANGE with FREQ unchanged. -/
def Obligations.ScanCountsTheSourceBytes : Prop :=
  ∀ s : State,
    (¬ s.SrcReady → exec .scan s = .next (s.raise .range)) ∧
    (s.SrcReady → s.params.srcLen = 0#32 →
      exec .scan s = .next ({ s with freq := FreqTable.zero }.raise .emptyInput)) ∧
    (s.SrcReady → s.params.srcLen ≠ 0#32 → ∃ f : FreqTable,
      exec .scan s = .next { s with
        freq := f
        flight := none
        res := { s.res with len := 0#32 }
        status := { s.status with done := true } } ∧
      (∀ b : Byte, (FreqTable.get f b).toNat = s.srcBytes.count b) ∧
      (allSymbols.map fun b => (FreqTable.get f b).toNat).sum = s.params.srcLen.toNat ∧
      nsym f = s.srcBytes.dedup.length)

/-- R97: BUILD of an empty FREQ raises EMPTY_INPUT with NODE unchanged; else NODE is the tree of FREQ and nothing else but
RES_LEN and STATUS changes. -/
def Obligations.BuildReplacesTheTree : Prop :=
  ∀ s : State,
    ((∀ b : Byte, FreqTable.get s.freq b = 0#32) → exec .build s = .next (s.raise .emptyInput)) ∧
    ((∃ b : Byte, FreqTable.get s.freq b ≠ 0#32) →
      exec .build s = .next { s with
        nodes := buildNodes s.freq
        flight := none
        res := { s.res with len := 0#32 }
        status := { s.status with done := true } })

/-- R46, R98, R102: the tree has the N symbols present as its first N nodes, leaves in ascending order with their counts,
then N - 1 internal nodes, each with the sum of its children's freqs and two different children below it; every node but
the root is the child of some internal node; the root's freq is the sum of FREQ (R103). -/
def Obligations.BuiltTreeHasNLeavesAndNMinusOneMerges : Prop :=
  ∀ f : FreqTable, FreqTable.NonEmpty f → ∃ syms : List Byte,
    syms.Pairwise (fun a b => a.toNat < b.toNat) ∧
    (∀ b : Byte, b ∈ syms ↔ FreqTable.get f b ≠ 0#32) ∧
    syms.length = nsym f ∧
    (buildNodes f).length = 2 * nsym f - 1 ∧
    (∀ (k : Nat) (b : Byte), syms[k]? = some b →
      (buildNodes f)[k]? = some (.leaf b ((FreqTable.get f b).setWidth 40))) ∧
    (∀ k : Nat, nsym f ≤ k → k < 2 * nsym f - 1 → ∃ (g : BitVec 40) (l r : BitVec 9),
      (buildNodes f)[k]? = some (.internal g l r) ∧ l.toNat < k ∧ r.toNat < k ∧ l ≠ r ∧
      g.toNat = nodeFreq (buildNodes f) l.toNat + nodeFreq (buildNodes f) r.toNat) ∧
    (∀ i : Nat, i < 2 * nsym f - 2 → ∃ (k : Nat) (g : BitVec 40) (l r : BitVec 9),
      (buildNodes f)[k]? = some (.internal g l r) ∧ (l.toNat = i ∨ r.toNat = i)) ∧
    nodeFreq (buildNodes f) (rootIndex (buildNodes f)) = (allSymbols.map fun b => (FreqTable.get f b).toNat).sum

/-- R100, R101: when an internal node is made, its left child is the queued node of least freq, least index among equals,
and its right child is the next one. -/
def Obligations.MergesTakeTheTwoLeastQueuedNodes : Prop :=
  ∀ (f : FreqTable) (k : Nat) (g : BitVec 40) (l r : BitVec 9),
    (buildNodes f)[k]? = some (.internal g l r) →
      Queued (buildNodes f) k l.toNat ∧ Queued (buildNodes f) k r.toNat ∧ l ≠ r ∧
      (∀ j : Nat, Queued (buildNodes f) k j → j ≠ l.toNat → Before (buildNodes f) l.toNat j) ∧
      (∀ j : Nat, Queued (buildNodes f) k j → j ≠ l.toNat → j ≠ r.toNat → Before (buildNodes f) r.toNat j)

/-- R105: ASSIGN without a tree raises NO_TREE with CODE unchanged; else CODE is the table of the tree and nothing else
but RES_LEN and STATUS changes. -/
def Obligations.AssignReplacesTheCodeTable : Prop :=
  ∀ s : State,
    (s.nodes = [] → exec .assign s = .next (s.raise .noTree)) ∧
    (s.nodes ≠ [] →
      exec .assign s = .next { s with
        code := assignCodes s.nodes
        flight := none
        res := { s.res with len := 0#32 }
        status := { s.status with done := true } })

/-- R104, R106: with two symbols or more, a symbol's code is the path from the root to its leaf, 0 for left and 1 for
right, and only such paths are codes; with one symbol, its code is "0" and no other symbol has one. -/
def Obligations.CodesAreRootToLeafPaths : Prop :=
  ∀ f : FreqTable, FreqTable.NonEmpty f →
    (2 ≤ nsym f → ∀ (b : Byte) (p : Bits),
      (CodeTable.get (assignCodes (buildNodes f)) b = p ∧ p ≠ []) ↔
        leafAt (buildNodes f) (rootIndex (buildNodes f)) p = some b) ∧
    (nsym f = 1 → ∀ b : Byte,
      CodeTable.get (assignCodes (buildNodes f)) b = if FreqTable.get f b = 0#32 then [] else [false])

/-- R107 (a) and (c), R103: a table that ASSIGN makes of a built tree is prefix-free, gives every symbol present and no
other a code of 1 to 255 bits, and so has NCODES = NSYM. -/
def Obligations.AssignedCodesArePrefixFree : Prop :=
  ∀ f : FreqTable, FreqTable.NonEmpty f →
    CodeTable.PrefixFree (assignCodes (buildNodes f)) ∧
    CodeTable.Bounded (assignCodes (buildNodes f)) ∧
    (∀ b : Byte, CodeTable.get (assignCodes (buildNodes f)) b ≠ [] ↔ FreqTable.get f b ≠ 0#32) ∧
    ncodes (assignCodes (buildNodes f)) = nsym f

/-- R107 (b): with two symbols or more, every bit string of MAXLEN bits begins with a code. -/
def Obligations.AssignedCodesLeaveNoGap : Prop :=
  ∀ f : FreqTable, 2 ≤ nsym f → ∀ b : Bits, b.length = maxLen (assignCodes (buildNodes f)) →
    ∃ a : Byte, CodeTable.get (assignCodes (buildNodes f)) a ≠ [] ∧ CodeTable.get (assignCodes (buildNodes f)) a <+: b

/-! ## Bit packer -/

/-- R111: the laws of pack and unpack. -/
def Obligations.UnpackUndoesPack : Prop :=
  ∀ b : Bits,
    8 * (packBody b).length = b.length + padCount b.length ∧ padCount b.length ≤ 7 ∧
    (8 * (packBody b).length) % 8 = 0 ∧
    unpack (packBody b) (padCount b.length) = b

/-- R60: bit k of a bit string is bit 7 - (k mod 8) of byte k div 8 of the packed body, and padding bits are 0; unpacking
byte j gives its bits 7 down to 0. -/
def Obligations.PackedBitOrderIsMsbFirst : Prop :=
  (∀ (b : Bits) (k : Nat), k < 8 * (packBody b).length →
    ((packBody b)[k / 8]?.map fun v => v.getLsbD (7 - k % 8)) = some (b[k]?.getD false)) ∧
  (∀ (body : List Byte) (k : Nat), k < 8 * body.length →
    (unpack body 0)[k]? = (body[k / 8]?.map fun v => v.getLsbD (7 - k % 8)))

/-- R112: PACK, with its checks in order, its output, its result registers and its frame. -/
def Obligations.PackWritesTheCodedBody : Prop :=
  ∀ s : State, s.WindowsReady →
    (s.params.srcLen = 0#32 → exec .pack s = .next (s.raise .emptyInput)) ∧
    (s.params.srcLen ≠ 0#32 → (∃ b ∈ s.srcBytes, CodeTable.get s.code b = []) →
      exec .pack s = .next (s.raise .noCode)) ∧
    (s.params.srcLen ≠ 0#32 → (∀ b ∈ s.srcBytes, CodeTable.get s.code b ≠ []) →
      ∀ (bits : Bits) (n : Nat), bits = s.srcBytes.flatMap (fun b => CodeTable.get s.code b) →
        n = (bits.length + 7) / 8 →
        (s.params.dstCap.toNat < n → exec .pack s = .next (s.raise .dstOverflow)) ∧
        (n ≤ s.params.dstCap.toNat →
          exec .pack s = .next { s with
            mem := s.mem.writeBytes s.params.dstAddr.toNat (packBody bits)
            flight := none
            res := { s.res with
              len := BitVec.ofNat 32 n, body := BitVec.ofNat 32 n
              pad := BitVec.ofNat 3 (8 * n - bits.length), bits := BitVec.ofNat 32 bits.length }
            status := { s.status with done := true } }))

/-- R113: PACK_BITS, with its checks in order, its output, its result registers and its frame. An empty input is allowed. -/
def Obligations.PackBitsPacksAsciiBits : Prop :=
  ∀ s : State, s.WindowsReady →
    ((∃ b ∈ s.srcBytes, b ≠ 0x30#8 ∧ b ≠ 0x31#8) → exec .packBits s = .next (s.raise .badBit)) ∧
    (∀ (bits : Bits) (n : Nat), s.srcBytes = bits.map (fun x => if x then 0x31#8 else 0x30#8) →
      n = (bits.length + 7) / 8 →
      (s.params.dstCap.toNat < n → exec .packBits s = .next (s.raise .dstOverflow)) ∧
      (n ≤ s.params.dstCap.toNat →
        exec .packBits s = .next { s with
          mem := s.mem.writeBytes s.params.dstAddr.toNat (packBody bits)
          flight := none
          res := { s.res with
            len := BitVec.ofNat 32 n, body := BitVec.ofNat 32 n
            pad := BitVec.ofNat 3 (8 * n - bits.length), bits := BitVec.ofNat 32 bits.length }
          status := { s.status with done := true } }))

/-- R114: UNPACK_BITS, with its checks in order, its output, its result registers and its frame. -/
def Obligations.UnpackBitsWritesAsciiBits : Prop :=
  ∀ s : State, s.WindowsReady →
    (8 * s.params.srcLen.toNat < s.params.padIn.toNat → exec .unpackBits s = .next (s.raise .badPad)) ∧
    (s.params.padIn.toNat ≤ 8 * s.params.srcLen.toNat →
      ∀ n : Nat, n = 8 * s.params.srcLen.toNat - s.params.padIn.toNat →
      (s.params.dstCap.toNat < n → exec .unpackBits s = .next (s.raise .dstOverflow)) ∧
      (n ≤ s.params.dstCap.toNat →
        exec .unpackBits s = .next { s with
          mem := s.mem.writeBytes s.params.dstAddr.toNat
            (((s.srcBytes.flatMap bitsOfByte).take n).map fun x => if x then 0x31#8 else 0x30#8)
          flight := none
          res := { s.res with len := BitVec.ofNat 32 n, bits := BitVec.ofNat 32 n }
          status := { s.status with done := true } }))

/-! ## Prefix decoder -/

/-- R144: a table that ASSIGN makes of two symbols or more decodes what it encodes and never raises UNMATCHED; the table
of one symbol raises UNMATCHED at the first 1 bit it meets. -/
def Obligations.AssignedTablesDecodeWhatTheyEncode : Prop :=
  ∀ f : FreqTable,
    (2 ≤ nsym f →
      (∀ (c : List Byte) (bits : Bits) (cap : Nat), enc (assignCodes (buildNodes f)) c = some bits → c.length ≤ cap →
        decodeBits bits (assignCodes (buildNodes f)) cap = .ok c) ∧
      (∀ (bits : Bits) (cap : Nat),
        decodeBits bits (assignCodes (buildNodes f)) cap ≠ .error (.malformedArchive .unmatched))) ∧
    (nsym f = 1 → ∀ (n cap : Nat) (rest : Bits), n ≤ cap →
      decodeBits (List.replicate n false ++ true :: rest) (assignCodes (buildNodes f)) cap =
        .error (.malformedArchive .unmatched))

/-- R140 to R143, for every code table. No bits decode to no bytes. Where the bits begin with a code, the shortest such
code is taken: DST_OVERFLOW without capacity for its symbol, else the symbol and what the bits after it decode to. Where
they begin with none, UNMATCHED if they are at least MAXLEN, else TRUNCATED_STREAM. What decode yields fits the capacity,
and its codes are the bits decoded. -/
def Obligations.DecodedOutputEncodesBack : Prop :=
  ∀ (code : CodeTable) (cap : Nat),
    decodeBits [] code cap = .ok [] ∧
    (∀ p rest : Bits, p ≠ [] → (∃ a : Byte, CodeTable.get code a = p) →
      (∀ q : Bits, q <+: p → q ≠ [] → q ≠ p → ∀ a : Byte, CodeTable.get code a ≠ q) →
      decodeBits (p ++ rest) code 0 = .error .dstOverflow ∧
      ∃ a : Byte, CodeTable.get code a = p ∧
        (∀ e : ErrCode, decodeBits rest code cap = .error e → decodeBits (p ++ rest) code (cap + 1) = .error e) ∧
        (∀ out : List Byte, decodeBits rest code cap = .ok out →
          decodeBits (p ++ rest) code (cap + 1) = .ok (a :: out))) ∧
    (∀ bits : Bits, bits ≠ [] → (∀ q : Bits, q <+: bits → q ≠ [] → ∀ a : Byte, CodeTable.get code a ≠ q) →
      (maxLen code ≤ bits.length → decodeBits bits code cap = .error (.malformedArchive .unmatched)) ∧
      (bits.length < maxLen code → decodeBits bits code cap = .error .truncatedStream)) ∧
    ∀ (bits : Bits) (out : List Byte),
      decodeBits bits code cap = .ok out → out.length ≤ cap ∧ enc code out = some bits

/-- R145: DECODE_BODY, with its checks in order, its output, its result registers and its frame. -/
def Obligations.DecodeBodyWritesTheSymbols : Prop :=
  ∀ s : State, s.WindowsReady →
    (8 * s.params.srcLen.toNat < s.params.padIn.toNat → exec .decodeBody s = .next (s.raise .badPad)) ∧
    (s.params.padIn.toNat ≤ 8 * s.params.srcLen.toNat →
      ∀ bits : Bits, bits = unpack s.srcBytes s.params.padIn.toNat →
      (∀ e : ErrCode, decodeBits bits s.code s.params.dstCap.toNat = .error e → exec .decodeBody s = .next (s.raise e)) ∧
      (∀ out : List Byte, decodeBits bits s.code s.params.dstCap.toNat = .ok out →
        exec .decodeBody s = .next { s with
          mem := s.mem.writeBytes s.params.dstAddr.toNat out
          flight := none
          res := { s.res with len := BitVec.ofNat 32 out.length, bits := BitVec.ofNat 32 bits.length }
          status := { s.status with done := true } }))

/-! ## Archive codec -/

/-- R122: the header size computed without writing is the length of the header written, and a padding count is one
digit. -/
def Obligations.HeaderSizeIsTheHeaderLength : Prop :=
  (∀ (code : CodeTable) (body pad : Nat) (t : Term),
    headerSize code body pad t.bytes.length = (header code body pad t.bytes).length) ∧
  (∀ pad : Nat, pad ≤ 7 → (dec pad).length = 1)

/-- R125: MEASURE, with its checks in order, the sizes it reports, the decision of R124 and its frame. -/
def Obligations.MeasureReportsSizesAndDecision : Prop :=
  ∀ s : State, s.SrcReady →
    (s.params.srcLen = 0#32 → exec .measure s = .next (s.raise .emptyInput)) ∧
    (s.params.srcLen ≠ 0#32 → (∃ b ∈ s.srcBytes, CodeTable.get s.code b = []) →
      exec .measure s = .next (s.raise .noCode)) ∧
    (s.params.srcLen ≠ 0#32 → (∀ b ∈ s.srcBytes, CodeTable.get s.code b ≠ []) →
      ∀ n body pad hdr : Nat, n = (s.srcBytes.flatMap (fun b => CodeTable.get s.code b)).length →
        body = (n + 7) / 8 → pad = 8 * body - n → hdr = (header s.code body pad s.ctrl.term.bytes).length →
        exec .measure s = .next { s with
          flight := none
          res := ⟨0#32, BitVec.ofNat 32 body, BitVec.ofNat 3 pad, BitVec.ofNat 32 hdr, BitVec.ofNat 32 (hdr + body),
            BitVec.ofNat 32 n⟩
          status := { s.status with
            done := true
            notcomp := s.status.notcomp || decide (ncodes s.code = 1 ∨ s.params.srcLen.toNat ≤ hdr + body) } })

/-- R126, R127: ENCODE, with its checks and the decision of R124 in order, its output, its result registers and its
frame. -/
def Obligations.EncodeWritesTheArchive : Prop :=
  ∀ s : State, s.WindowsReady →
    (s.params.srcLen = 0#32 → exec .encode s = .next (s.raise .emptyInput)) ∧
    (s.params.srcLen ≠ 0#32 → (∃ b ∈ s.srcBytes, CodeTable.get s.code b = []) →
      exec .encode s = .next (s.raise .noCode)) ∧
    (s.params.srcLen ≠ 0#32 → (∀ b ∈ s.srcBytes, CodeTable.get s.code b ≠ []) →
      ∀ (bits : Bits) (body pad : Nat) (hdr : List Byte) (t : State),
        bits = s.srcBytes.flatMap (fun b => CodeTable.get s.code b) →
        body = (bits.length + 7) / 8 → pad = 8 * body - bits.length → hdr = header s.code body pad s.ctrl.term.bytes →
        t = { s with res := { s.res with
          body := BitVec.ofNat 32 body, pad := BitVec.ofNat 3 pad, hdr := BitVec.ofNat 32 hdr.length
          arch := BitVec.ofNat 32 (hdr.length + body), bits := BitVec.ofNat 32 bits.length } } →
        (ncodes s.code = 1 ∨ s.params.srcLen.toNat ≤ hdr.length + body → exec .encode s = .next t.notComp) ∧
        (ncodes s.code ≠ 1 → hdr.length + body < s.params.srcLen.toNat → s.params.dstCap.toNat < hdr.length + body →
          exec .encode s = .next (t.raise .dstOverflow)) ∧
        (ncodes s.code ≠ 1 → hdr.length + body < s.params.srcLen.toNat → hdr.length + body ≤ s.params.dstCap.toNat →
          exec .encode s = .next { t with
            mem := s.mem.writeBytes s.params.dstAddr.toNat (hdr ++ packBody bits)
            flight := none
            res := { t.res with len := BitVec.ofNat 32 (hdr.length + body) }
            status := { s.status with done := true } }))

/-- R139: when ENCODE or COMPRESS succeeds, RES_LEN = RES_ARCH = RES_HDR + RES_BODY < SRC_LEN; when the result is
not-compressible, RES_LEN = 0. -/
def Obligations.ArchivesAreSmallerThanTheirInput : Prop :=
  ∀ (i : Instr) (s t : State), i ∈ [Instr.encode, .compress] → s.status.err = false → s.status.notcomp = false →
    exec i s = .next t →
    (t.status.err = false → t.status.notcomp = false →
      t.res.len = t.res.arch ∧ t.res.arch.toNat = t.res.hdr.toNat + t.res.body.toNat ∧
      t.res.arch.toNat < s.params.srcLen.toNat) ∧
    (t.status.notcomp = true → t.res.len = 0#32)

/-- R134: parsing what ENCODE writes, under the same terminator, gives the code table, B, P and the header length back. -/
def Obligations.ParseInvertsTheArchiveWriter : Prop :=
  ∀ (code : CodeTable) (t : Term) (bits : Bits),
    CodeTable.Bounded code → CodeTable.Distinct code → byteCount bits.length < 2 ^ 32 →
    ∃ r : Parsed, parseArchive t.bytes (archiveOf code t.bytes bits) = .ok r ∧
      CodeTable.ofEntries r.entries = code ∧ r.body = byteCount bits.length ∧ r.pad = padCount bits.length ∧
      r.hdr = (header code (byteCount bits.length) (padCount bits.length) t.bytes).length

/-- R129, R132: a parsed table has distinct codes of at most 255 bits, the padding is one that a body of B bytes can have,
and the header is all but the last B bytes. -/
def Obligations.ParsedArchivesAreConsistent : Prop :=
  ∀ (t : Term) (a : List Byte) (r : Parsed), parseArchive t.bytes a = .ok r →
    CodeTable.Distinct (CodeTable.ofEntries r.entries) ∧ CodeTable.Bounded (CodeTable.ofEntries r.entries) ∧
    r.pad ≤ 7 ∧ (r.body = 0 → r.pad = 0) ∧ r.body ≤ a.length ∧ r.hdr = a.length - r.body

/-- R128 to R132: every refusal of the parser, in order, and what it goes on with. Line 1 is `D1 SP D2`, two numbers; line 2
is `F1` or `F1 SP F2`, the codes of LF and CR; an ordinary line is a symbol, `: ` and a code; the sentinel ends the header.
A region that is not empty has a next line, so the clauses leave no archive out (Safety.lean states each line's rule). -/
def Obligations.LineOneErrorsInOrder : Prop :=
  (∀ (d : List Byte) (b : Byte), decVal [] = 0 ∧ decVal (d ++ [b]) = 10 * decVal d + (b.toNat - 0x30)) ∧
  ∀ t : Term,
    (∀ region : List Byte, region ≠ [] → ∃ content rest : List Byte, ReadsLine t.bytes region content rest) ∧
    LineOneRule t ∧ LineTwoRule t ∧ OrdinaryLineRule t

/-- R135: PARSE, with the code table and the size registers it leaves on success and on a malformed archive, and its
frame. -/
def Obligations.ParseReplacesTheCodeTable : Prop :=
  ∀ s : State, s.SrcReady →
    (∀ k : SubCause, parseArchive s.ctrl.term.bytes s.srcBytes = .error k →
      exec .parse s = .next ({ s with code := CodeTable.empty }.raise (.malformedArchive k))) ∧
    (∀ r : Parsed, parseArchive s.ctrl.term.bytes s.srcBytes = .ok r →
      exec .parse s = .next { s with
        code := CodeTable.ofEntries r.entries
        flight := none
        res := ⟨0#32, BitVec.ofNat 32 r.body, BitVec.ofNat 3 r.pad, BitVec.ofNat 32 r.hdr, s.params.srcLen,
          BitVec.ofNat 32 (8 * r.body - r.pad)⟩
        status := { s.status with done := true } })

/-- R136: DECOMPRESS, with the parse stage, the decode stage, its output, its result registers and its frame. -/
def Obligations.DecompressParsesThenDecodes : Prop :=
  ∀ s : State, s.WindowsReady →
    (∀ k : SubCause, parseArchive s.ctrl.term.bytes s.srcBytes = .error k →
      exec .decompress s = .next ({ s with code := CodeTable.empty }.raise (.malformedArchive k))) ∧
    (∀ (r : Parsed) (t : State), parseArchive s.ctrl.term.bytes s.srcBytes = .ok r →
      t = { s with
        code := CodeTable.ofEntries r.entries
        res := ⟨0#32, BitVec.ofNat 32 r.body, BitVec.ofNat 3 r.pad, BitVec.ofNat 32 r.hdr, s.params.srcLen,
          BitVec.ofNat 32 (8 * r.body - r.pad)⟩ } →
      (∀ e : ErrCode, decodeBits (unpack (s.srcBytes.drop r.hdr) r.pad) t.code s.params.dstCap.toNat = .error e →
        exec .decompress s = .next (t.raise e)) ∧
      (∀ out : List Byte, decodeBits (unpack (s.srcBytes.drop r.hdr) r.pad) t.code s.params.dstCap.toNat = .ok out →
        exec .decompress s = .next { t with
          mem := s.mem.writeBytes s.params.dstAddr.toNat out
          flight := none
          res := { t.res with len := BitVec.ofNat 32 out.length }
          status := { s.status with done := true } }))

/-- R137: COMPRESS of an empty window leaves FREQ all zero and raises EMPTY_INPUT; else FREQ, NODE and CODE are those of
SCAN, BUILD and ASSIGN, NO_CODE cannot occur, and the rest is ENCODE's. R89: it ends in the same state as SCAN, BUILD,
ASSIGN and ENCODE run one after the other up to the first that ends in error, but for the word in CMD. -/
def Obligations.CompressEqualsItsFourStages : Prop :=
  ∀ s : State, s.WindowsReady →
    (s.params.srcLen = 0#32 → exec .compress s = .next ({ s with freq := FreqTable.zero }.raise .emptyInput)) ∧
    (s.params.srcLen ≠ 0#32 → ∃ (f : FreqTable) (t : State),
      (∀ b : Byte, (FreqTable.get f b).toNat = s.srcBytes.count b) ∧
      exec .compress s = .next t ∧
      exec .encode { s with freq := f, nodes := buildNodes f, code := assignCodes (buildNodes f) } = .next t ∧
      t.freq = f ∧ t.nodes = buildNodes f ∧ t.code = assignCodes (buildNodes f) ∧
      (s.status.errCode ≠ 0x07#8 → t.status.errCode ≠ 0x07#8)) ∧
    (∃ t u : State,
      runCommand .compress s = .next t ∧ runUntilError [.scan, .build, .assign, .encode] s = .next u ∧
      { t with cmd := u.cmd } = u)

/-- R136, R89: DECOMPRESS of a well-formed archive ends in the same state as PARSE, the host's choice of the body as source
window, and DECODE_BODY, on success and on a decode-stage error, but for the word in CMD and the parameter registers. -/
def Obligations.DecompressEqualsParseThenDecodeBody : Prop :=
  ∀ s : State, s.cfg.wf = true → s.WindowsReady →
    (∃ r : Parsed, parseArchive s.ctrl.term.bytes s.srcBytes = .ok r) → ∃ t u v : State,
    runCommand .decompress s = .next t ∧ runCommand .parse s = .next u ∧
    runCommand .decodeBody u.selectBody = .next v ∧
    { t with cmd := v.cmd, params := v.params } = v

/-- R138: what COMPRESS writes with success, or ENCODE with a table that ASSIGN made, DECOMPRESS turns back into the
content under the same terminator, given a destination window that holds it. -/
def Obligations.DecompressUndoesCompress : Prop :=
  ∀ (i : Instr) (s t : State) (dst cap : Word),
    (i = .compress ∨ (i = .encode ∧ ∃ f : FreqTable, FreqTable.NonEmpty f ∧ s.code = assignCodes (buildNodes f))) →
    s.status.err = false → s.status.notcomp = false → exec i s = .next t →
    t.status.err = false → t.status.notcomp = false →
    (t.selectArchive dst cap).WindowsReady → s.params.srcLen.toNat ≤ cap.toNat →
    ∃ v : State, exec .decompress (t.selectArchive dst cap) = .next v ∧ v.status.err = false ∧
      v.res.len = s.params.srcLen ∧
      ∀ k : Nat, k < s.params.srcLen.toNat → v.mem.read (dst.toNat + k) = s.mem.read (s.params.srcAddr.toNat + k)

/-- R176: an archive written under one terminator and parsed under the other fails with LINE1_SYNTAX or
LINE1_UNTERMINATED. -/
def Obligations.TerminatorMismatchFails : Prop :=
  ∀ (code : CodeTable) (t u : Term) (bits : Bits), t ≠ u →
    parseArchive u.bytes (archiveOf code t.bytes bits) = .error .line1Syntax ∨
    parseArchive u.bytes (archiveOf code t.bytes bits) = .error .line1Unterminated

/-! ## Control -/

/-- R146, R147: NOP changes nothing but BUSY and DONE; CLEAR empties the tables and the six result registers and changes
nothing else but BUSY and DONE. -/
def Obligations.NopCompletesAndClearEmptiesTheTables : Prop :=
  (∀ s : State, exec .nop s = .next { s with flight := none, status := { s.status with done := true } }) ∧
  ∀ s : State, ∃ t : State, exec .clear s = .next t ∧
    (∀ b : Byte, FreqTable.get t.freq b = 0#32 ∧ CodeTable.get t.code b = []) ∧ t.nodes = [] ∧
    t.res = ⟨0#32, 0#32, 0#3, 0#32, 0#32, 0#32⟩ ∧
    nsym t.freq = 0 ∧ ncodes t.code = 0 ∧ maxLen t.code = 0 ∧ rootIndex t.nodes = 0 ∧
    { t with freq := s.freq, nodes := s.nodes, code := s.code, res := s.res } =
      { s with flight := none, status := { s.status with done := true } }

/-- R148: what the commands do after CLEAR, whatever the host has written to the parameter registers since. -/
def Obligations.CommandsAfterClear : Prop :=
  ∀ (s t u : State), exec .clear s = .next t → u.freq = t.freq → u.nodes = t.nodes → u.code = t.code →
    exec .build u = .next (u.raise .emptyInput) ∧ exec .assign u = .next (u.raise .noTree) ∧
    (u.SrcReady → u.params.srcLen ≠ 0#32 → exec .measure u = .next (u.raise .noCode)) ∧
    (u.WindowsReady → u.params.srcLen ≠ 0#32 →
      exec .encode u = .next (u.raise .noCode) ∧ exec .pack u = .next (u.raise .noCode)) ∧
    (u.WindowsReady → u.params.padIn.toNat < 8 * u.params.srcLen.toNat →
      exec .decodeBody u = .next (u.raise (.malformedArchive .unmatched)))

/-! ## The host's ports -/

/-- R54, R167: a hard reset puts every register and table at its reset value, abandons the command in flight, and leaves
every byte of DMEM a value of which nothing is known (the free power-on value, notes/assumptions/2.md). Reset itself is such
a state. -/
def Obligations.HardResetValues : Prop :=
  ∀ (s t : State), (t = s.hardReset ∨ t = State.reset) →
    t.ctrl = ⟨false, .lf⟩ ∧ t.cmd = 0#32 ∧ t.flight = none ∧ t.status = ⟨false, false, false, false, 0#8, 0#8⟩ ∧
    t.params = ⟨0#32, 0#32, 0#32, 0#32, 0#3⟩ ∧ t.res = ⟨0#32, 0#32, 0#3, 0#32, 0#32, 0#32⟩ ∧
    t.sel = 0#8 ∧ t.nodeSel = 0#9 ∧ (∀ b : Byte, FreqTable.get t.freq b = 0#32 ∧ CodeTable.get t.code b = []) ∧
    t.nodes = [] ∧ t.irq = false ∧ t.readReg .id = 0x48554646#32 ∧
    ∀ a : Nat, t.mem.read a = Config.powerOn t.mem.epoch a

/-- R168: a CTRL write with bit [31] set resets every register and table; DMEM keeps its contents, but for the destination
window of a command that was in flight; that command never completes, so DONE is 0. That IE and TERM bits of the same word
are lost is the model's reading (notes/assumptions/12.md). -/
def Obligations.SoftResetKeepsDmem : Prop :=
  ∀ (s : State) (v : Word), v.getLsbD 31 = true → ∃ t : State, s.regWrite 0x04#8 v = t ∧
    t.ctrl = ⟨false, .lf⟩ ∧ t.cmd = 0#32 ∧ t.flight = none ∧ t.status = ⟨false, false, false, false, 0#8, 0#8⟩ ∧
    t.params = ⟨0#32, 0#32, 0#32, 0#32, 0#3⟩ ∧ t.res = ⟨0#32, 0#32, 0#3, 0#32, 0#32, 0#32⟩ ∧
    t.sel = 0#8 ∧ t.nodeSel = 0#9 ∧ (∀ b : Byte, FreqTable.get t.freq b = 0#32 ∧ CodeTable.get t.code b = []) ∧
    t.nodes = [] ∧ (s.flight = none → t.mem = s.mem) ∧
    ∀ a : Nat, ¬(s.params.dstAddr.toNat ≤ a ∧ a < s.params.dstAddr.toNat + s.params.dstCap.toNat) →
      t.mem.read a = s.mem.read a

/-- R33 to R40: while BUSY = 0 the host writes the parameter registers, SEL and NODE_SEL, of PAD_IN, SEL and NODE_SEL the
bits used, and changes nothing else; a write of a read-only register changes nothing (R23). They and the result registers
read what they hold, NSYM and NCODES count the symbols present and the codes, MAXLEN is the greatest code length, ROOT is
NNODES - 1 or 0. STATUS reads its fields at their places, BUSY or not (R27). -/
def Obligations.RegistersTakeWritesAndReadTheirValues : Prop :=
  (∀ (s : State) (v : Word), s.flight = none →
    s.regWrite 0x10#8 v = { s with params := { s.params with srcAddr := v } } ∧
    s.regWrite 0x14#8 v = { s with params := { s.params with srcLen := v } } ∧
    s.regWrite 0x18#8 v = { s with params := { s.params with dstAddr := v } } ∧
    s.regWrite 0x1C#8 v = { s with params := { s.params with dstCap := v } } ∧
    s.regWrite 0x20#8 v = { s with params := { s.params with padIn := v.extractLsb' 0 3 } } ∧
    s.regWrite 0x50#8 v = { s with sel := v.extractLsb' 0 8 } ∧
    s.regWrite 0x5C#8 v = { s with nodeSel := v.extractLsb' 0 9 } ∧
    (∀ o : BitVec 8, o ∈ [0x00#8, 0x24#8, 0x28#8, 0x2C#8, 0x30#8, 0x34#8, 0x38#8, 0x3C#8, 0x40#8, 0x44#8, 0x48#8, 0x4C#8,
      0x58#8, 0x60#8, 0x64#8, 0x68#8, 0x80#8, 0x84#8, 0x88#8, 0x8C#8, 0x90#8, 0x94#8, 0x98#8, 0x9C#8] →
      s.regWrite o v = s)) ∧
  (∀ s : State, s.flight = none → s.TablesBounded →
    (s.regRead 0x08#8).readData = s.cmd ∧
    (s.regRead 0x10#8).readData = s.params.srcAddr ∧ (s.regRead 0x14#8).readData = s.params.srcLen ∧
    (s.regRead 0x18#8).readData = s.params.dstAddr ∧ (s.regRead 0x1C#8).readData = s.params.dstCap ∧
    (s.regRead 0x20#8).readData.toNat = s.params.padIn.toNat ∧
    (s.regRead 0x50#8).readData.toNat = s.sel.toNat ∧ (s.regRead 0x5C#8).readData.toNat = s.nodeSel.toNat ∧
    (s.regRead 0x24#8).readData = s.res.len ∧ (s.regRead 0x28#8).readData = s.res.body ∧
    (s.regRead 0x2C#8).readData.toNat = s.res.pad.toNat ∧ (s.regRead 0x30#8).readData = s.res.hdr ∧
    (s.regRead 0x34#8).readData = s.res.arch ∧ (s.regRead 0x38#8).readData = s.res.bits ∧
    (s.regRead 0x3C#8).readData.toNat = (allSymbols.filter fun b => FreqTable.get s.freq b ≠ 0#32).length ∧
    (s.regRead 0x40#8).readData.toNat = (allSymbols.filter fun b => CodeTable.get s.code b ≠ []).length ∧
    (∀ b : Byte, (CodeTable.get s.code b).length ≤ (s.regRead 0x44#8).readData.toNat) ∧
    (∃ b : Byte, (CodeTable.get s.code b).length = (s.regRead 0x44#8).readData.toNat) ∧
    (s.regRead 0x48#8).readData.toNat = s.nodes.length ∧ (s.regRead 0x4C#8).readData.toNat = s.nodes.length - 1) ∧
  ∀ s : State,
    (s.regRead 0x0C#8).readData.getLsbD 0 = s.flight.isSome ∧ (s.regRead 0x0C#8).readData.getLsbD 1 = s.status.done ∧
    (s.regRead 0x0C#8).readData.getLsbD 2 = s.status.err ∧ (s.regRead 0x0C#8).readData.getLsbD 3 = s.status.notcomp ∧
    (s.regRead 0x0C#8).readData.getLsbD 4 = s.status.overrun ∧
    (s.regRead 0x0C#8).readData.extractLsb' 8 8 = s.status.errCode ∧
    (s.regRead 0x0C#8).readData.extractLsb' 16 8 = s.status.errInfo

/-- R27: a STATUS write clears DONE where bit [1] is 1 and OVERRUN where bit [4] is 1 and does nothing else, BUSY or not.
R25: a CTRL write with bit [31] clear sets IE, and TERM where BUSY = 0 and the field is 0 (LF) or 1 (CR LF); 2 and 3 leave
TERM unchanged; CTRL reads IE and TERM back and 0 elsewhere. -/
def Obligations.StatusAndCtrlWrites : Prop :=
  (∀ (s : State) (v : Word),
    s.regWrite 0x0C#8 v = { s with status := { s.status with
      done := (if v.getLsbD 1 then false else s.status.done)
      overrun := (if v.getLsbD 4 then false else s.status.overrun) } }) ∧
  (∀ (s : State) (v : Word), v.getLsbD 31 = false →
    s.regWrite 0x04#8 v = { s with ctrl := ⟨v.getLsbD 0,
      if s.busy then s.ctrl.term
      else if v.extractLsb' 1 2 = 0#2 then .lf
      else if v.extractLsb' 1 2 = 1#2 then .crlf
      else s.ctrl.term⟩ }) ∧
  (∀ s : State, s.regRead 0x04#8 = { s with
    readData := BitVec.ofNat 32 ((if s.ctrl.ie then 1 else 0) + (if s.ctrl.term = .crlf then 2 else 0)) })

/-- R158: the interrupt output is CTRL.IE AND STATUS.DONE; acceptance, a write of 1 to DONE and a reset lower it, and
clearing IE masks it and leaves DONE unchanged. -/
def Obligations.InterruptIsEnableAndDone : Prop :=
  ∀ (s : State) (w : Word),
    s.irq = (s.ctrl.ie && s.status.done) ∧
    (s.regWrite 0x0C#8 0x00000002#32).irq = false ∧
    (s.flight = none → (s.regWrite 0x08#8 w).irq = false) ∧
    (s.regWrite 0x04#8 0x80000000#32).irq = false ∧ s.hardReset.irq = false ∧
    (s.regWrite 0x04#8 0x00000000#32).irq = false ∧ (s.regWrite 0x04#8 0x00000000#32).status.done = s.status.done

/-- R22, R23: offset bits [1:0] are ignored; a reserved offset reads 0 and ignores writes; the reserved fields of the named
registers read 0 while BUSY = 0, and those of CTRL, STATUS, PAD_IN, SEL and NODE_SEL also while BUSY = 1. In the other
registers the model leaves these bits free while BUSY = 1 (notes/assumptions/13.md). -/
def Obligations.ReservedOffsetsAndFieldsReadZero : Prop :=
  (∀ (s : State) (o : BitVec 8) (v : Word),
    s.regRead o = s.regRead (o &&& 0xFC#8) ∧ s.regWrite o v = s.regWrite (o &&& 0xFC#8) v) ∧
  (∀ (s : State) (o : BitVec 8) (v : Word), (0x6C ≤ o.toNat ∧ o.toNat < 0x80) ∨ 0xA0 ≤ o.toNat →
    s.regRead o = { s with readData := 0#32 } ∧ s.regWrite o v = s) ∧
  (∀ r : RegName, RegName.ofOffset r.offset = some r) ∧
  (∀ s : State,
    (s.regRead 0x04#8).readData.toNat < 2 ^ 3 ∧ (s.regRead 0x0C#8).readData.extractLsb' 5 3 = 0#3 ∧
    (s.regRead 0x0C#8).readData.extractLsb' 24 8 = 0#8 ∧ (s.regRead 0x20#8).readData.toNat < 2 ^ 3 ∧
    (s.regRead 0x50#8).readData.toNat < 2 ^ 8 ∧ (s.regRead 0x5C#8).readData.toNat < 2 ^ 9) ∧
  ∀ s : State, s.flight = none → s.TablesBounded →
    (s.regRead 0x2C#8).readData.toNat < 2 ^ 3 ∧ (s.regRead 0x3C#8).readData.toNat < 2 ^ 9 ∧
    (s.regRead 0x40#8).readData.toNat < 2 ^ 9 ∧ (s.regRead 0x44#8).readData.toNat < 2 ^ 8 ∧
    (s.regRead 0x48#8).readData.toNat < 2 ^ 10 ∧ (s.regRead 0x4C#8).readData.toNat < 2 ^ 9 ∧
    (s.regRead 0x58#8).readData.toNat < 2 ^ 8 ∧ (s.regRead 0x64#8).readData.toNat < 2 ^ 8 ∧
    (s.regRead 0x68#8).readData.extractLsb' 26 4 = 0#4

/-- R56: while BUSY = 1 only CTRL.IE, CTRL.SOFT_RESET and the W1C bits of STATUS take a write; a CMD write sets OVERRUN;
every other register write is ignored. -/
def Obligations.OperandsAreFrozenWhileBusy : Prop :=
  ∀ (s : State) (r : RegName) (v : Word), s.busy = true →
    (r ≠ .ctrl → r ≠ .cmd → r ≠ .status → s.regWrite r.offset v = s) ∧
    (v.getLsbD 31 = false → s.regWrite 0x04#8 v = { s with ctrl := { s.ctrl with ie := v.getLsbD 0 } }) ∧
    s.regWrite 0x08#8 v = { s with status := { s.status with overrun := true } } ∧
    s.regWrite 0x0C#8 v = { s with status := { s.status with
      done := s.status.done && !v.getLsbD 1, overrun := s.status.overrun && !v.getLsbD 4 } }

/-- R55, R73: while BUSY = 1 the registers listed there read their true values; any other register read, and a DMEM read
inside the destination window, changes nothing of the block (its value is a free value, notes/assumptions/3.md and 13.md);
other DMEM bytes read true. The destination window is that of the registers, whatever the command
(notes/assumptions/8.md). -/
def Obligations.ReadsWhileBusy : Prop :=
  ∀ s : State, s.busy = true →
    (∀ r : RegName, r ∈ [RegName.id, .ctrl, .cmd, .status, .srcAddr, .srcLen, .dstAddr, .dstCap, .padIn, .sel, .nodeSel] →
      s.regRead r.offset = { s with readData := s.readReg r }) ∧
    (∀ r : RegName, ∃ (v : Word) (n : Nat), s.regRead r.offset = { s with readData := v, draws := n }) ∧
    (∀ a : Nat, ∃ (v : Word) (n : Nat), s.memRead a = { s with readData := v, draws := n }) ∧
    (∀ a : Nat, a < s.cfg.memBytes →
      ¬(s.params.dstAddr.toNat ≤ a ∧ a < s.params.dstAddr.toNat + s.params.dstCap.toNat) →
      s.memRead a = { s with readData := (s.mem.read a).setWidth 32 })

/-- R41: FREQ_WIN reads FREQ[SEL]; a write while BUSY = 0 sets FREQ[SEL] and changes neither the tree nor the code table
nor any other entry. R42: CODE_LEN_WIN is the length of the selected symbol's code, and code bit i is at word i div 32, bit
position 31 - (i mod 32) of CODE_BITS_WIN, 0 beyond the code's end. -/
def Obligations.SymbolWindowsShowTheSelectedSymbol : Prop :=
  (∀ (s : State) (v : Word), s.flight = none →
    (s.regRead 0x54#8).readData = FreqTable.get s.freq s.sel ∧
    FreqTable.get (s.regWrite 0x54#8 v).freq s.sel = v ∧
    (∀ b : Byte, b ≠ s.sel → FreqTable.get (s.regWrite 0x54#8 v).freq b = FreqTable.get s.freq b) ∧
    { s.regWrite 0x54#8 v with freq := s.freq } = s) ∧
  (∀ s : State, s.flight = none → CodeTable.Bounded s.code →
    (s.regRead 0x58#8).readData.toNat = (CodeTable.get s.code s.sel).length ∧
    ∀ (k : Fin 8) (j : Nat), j < 32 →
      (s.regRead (0x80#8 + 4#8 * BitVec.ofNat 8 k.val)).readData.getLsbD (31 - j) =
        (CodeTable.get s.code s.sel)[32 * k.val + j]?.getD false)

/-- R43: NODE_FREQ, NODE_FREQ_HI and NODE_INFO show the node that NODE_SEL selects, and read 0 at or beyond NNODES. -/
def Obligations.NodeWindowsShowTheSelectedNode : Prop :=
  ∀ s : State, s.flight = none →
    (s.nodes.length ≤ s.nodeSel.toNat →
      (s.regRead 0x60#8).readData = 0#32 ∧ (s.regRead 0x64#8).readData = 0#32 ∧ (s.regRead 0x68#8).readData = 0#32) ∧
    (∀ n : Node, s.nodes[s.nodeSel.toNat]? = some n →
      (s.regRead 0x64#8).readData.toNat * 2 ^ 32 + (s.regRead 0x60#8).readData.toNat = n.freq.toNat ∧
      (s.regRead 0x68#8).readData.getLsbD 31 = true ∧
      (∀ (b : Byte) (g : BitVec 40), n = .leaf b g →
        (s.regRead 0x68#8).readData.getLsbD 30 = true ∧ (s.regRead 0x68#8).readData.extractLsb' 18 8 = b ∧
        (s.regRead 0x68#8).readData.extractLsb' 0 18 = 0#18) ∧
      (∀ (g : BitVec 40) (l r : BitVec 9), n = .internal g l r →
        (s.regRead 0x68#8).readData.getLsbD 30 = false ∧ (s.regRead 0x68#8).readData.extractLsb' 0 9 = l ∧
        (s.regRead 0x68#8).readData.extractLsb' 9 9 = r ∧ (s.regRead 0x68#8).readData.extractLsb' 18 8 = 0#8))

/-- R58: the DMEM host port reads and writes one byte; at or above MEM_BYTES a read returns 0 and a write has no effect.
An address is any number: that the port gives it no width is the model's choice (notes/assumptions/15.md). -/
def Obligations.DmemPortMovesOneByte : Prop :=
  ∀ (s : State) (a : Nat) (v : Byte),
    (s.cfg.memBytes ≤ a → s.memWrite a v = s ∧ s.memRead a = { s with readData := 0#32 }) ∧
    (s.flight = none → a < s.cfg.memBytes →
      (s.memWrite a v).mem.read a = v ∧
      (∀ b : Nat, b ≠ a → (s.memWrite a v).mem.read b = s.mem.read b) ∧
      { s.memWrite a v with mem := s.mem } = s ∧
      s.memRead a = { s with readData := (s.mem.read a).setWidth 32 })

/-- R72: while BUSY = 1 a host write inside either window is a race: the byte is set, HOST_RACE is recorded, the command in
flight is marked as raced, and nothing else changes; outside both it is not, and the write takes effect normally. R160: a recorded HOST_RACE is never cleared, whatever the step. The windows are those of the registers,
whatever the command (notes/assumptions/8.md). -/
def Obligations.HostRaceIsRecordedAndNeverCleared : Prop :=
  (∀ (s : State) (d : Nat) (raced : Bool) (a : Nat) (v : Byte), s.flight = some ⟨d, raced⟩ → a < s.cfg.memBytes →
    (s.memWrite a v).mem.read a = v ∧
    (s.srcWin.Contains a ∨ s.dstWin.Contains a →
      s.memWrite a v = { s with
        mem := s.mem.write a v, flight := some ⟨d, true⟩, recorded := some .hostRace }) ∧
    (¬ s.srcWin.Contains a → ¬ s.dstWin.Contains a → s.memWrite a v = { s with mem := s.mem.write a v })) ∧
  (∀ (s t : State), step s = .next t → s.recorded = some .hostRace → t.recorded = some .hostRace)

/-- R72: a raced command still completes, and leaves alone all that it may not write: the parameter registers, CTRL, CMD,
SEL, NODE_SEL, OVERRUN, the host's side, every byte outside the destination window, and of the tables, the result registers,
the outcome fields and DMEM all that its command is not named as writing (R83, R31, R36), or that an illegal word may not
write (R86). That it completes, and that what it may write is
free and nothing else, is the model's reading (notes/assumptions/7.md). -/
def Obligations.RacedCommandCompletes : Prop :=
  ∀ s : State, s.flight = some ⟨0, true⟩ → ∃ t : State, step s = .next t ∧ t.flight = none ∧ t.status.done = true ∧
    t.status.overrun = s.status.overrun ∧ t.ctrl = s.ctrl ∧ t.cmd = s.cmd ∧ t.params = s.params ∧ t.sel = s.sel ∧
    t.nodeSel = s.nodeSel ∧ t.recorded = s.recorded ∧ t.cfg = s.cfg ∧ t.host = s.host ∧ t.readData = s.readData ∧
    t.delays = s.delays ∧
    (∀ a : Nat, ¬ s.dstWin.Contains a → t.mem.read a = s.mem.read a) ∧
    (∀ i : Instr, decode s.cmd = .ok i →
      (i ∉ [Instr.scan, .compress, .clear] → t.freq = s.freq) ∧
      (i ∉ [Instr.build, .compress, .clear] → t.nodes = s.nodes) ∧
      (i ∉ [Instr.assign, .parse, .decompress, .compress, .clear] → t.code = s.code) ∧
      (i ∉ [Instr.encode, .pack, .packBits, .unpackBits, .decodeBody, .decompress, .compress] → t.mem = s.mem) ∧
      (i = .nop → t.res.len = s.res.len) ∧
      (i ∉ [Instr.measure, .encode, .pack, .packBits, .parse, .decompress, .compress, .clear] →
        t.res.body = s.res.body ∧ t.res.pad = s.res.pad) ∧
      (i ∉ [Instr.measure, .encode, .parse, .decompress, .compress, .clear] →
        t.res.hdr = s.res.hdr ∧ t.res.arch = s.res.arch) ∧
      (i ∉ [Instr.measure, .encode, .pack, .packBits, .unpackBits, .decodeBody, .parse, .decompress, .compress, .clear] →
        t.res.bits = s.res.bits) ∧
      (i ∈ [Instr.nop, .clear] →
        t.status.err = s.status.err ∧ t.status.errCode = s.status.errCode ∧ t.status.errInfo = s.status.errInfo) ∧
      (i ∉ [Instr.measure, .encode, .compress] → t.status.notcomp = s.status.notcomp)) ∧
    (∀ e : DecodeError, decode s.cmd = .error e →
      t.freq = s.freq ∧ t.nodes = s.nodes ∧ t.code = s.code ∧ t.mem = s.mem ∧
      t.res = { s.res with len := t.res.len } ∧ t.status.notcomp = s.status.notcomp)

/-! ## Invariants and runs -/

/-- Reset meets every invariant (the value of MEM_BYTES at reset is the model's choice, notes/assumptions/1.md). -/
def Obligations.ResetMeetsTheInvariants : Prop :=
  State.reset.MemoryOk ∧ State.reset.TablesBounded ∧ State.reset.TablesMade ∧ State.reset.RaceRecorded ∧
  State.reset.OutcomeOk ∧ State.reset.cfg.wf = true

/-- Every step keeps the memory in its canonical form, inside DMEM, and the tables within their widths and bounds. For the
free tables of a raced command the bounds are the model's reading (notes/assumptions/9.md and 10.md). -/
def Obligations.StepKeepsMemoryAndTablesBounded : Prop :=
  ∀ (s t : State), step s = .next t → s.MemoryOk → s.TablesBounded → t.MemoryOk ∧ t.TablesBounded

/-- R45, R47: every step keeps the tree one that BUILD made and the code table one that ASSIGN or a parse made, unless a
HOST_RACE has been recorded. -/
def Obligations.StepKeepsTablesMade : Prop :=
  ∀ (s t : State), step s = .next t → s.RaceRecorded → s.TablesMade → t.RaceRecorded ∧ t.TablesMade

/-- R155: every step keeps the outcome fields of STATUS consistent: none while BUSY, then success, not-compressible or
one error with its sub-cause. -/
def Obligations.StepKeepsOneOutcome : Prop :=
  ∀ (s t : State), step s = .next t → s.RaceRecorded → s.OutcomeOk → t.OutcomeOk

/-- R85, R179: a command in flight with delay d has completed after d + 1 steps, unless a reset abandons it; while the host
does nothing, the delay has no influence on what the command leaves. A delay as a number of steps is the model's choice
(notes/assumptions/4.md). -/
def Obligations.AcceptedCommandCompletes : Prop :=
  (∀ (s : State) (d : Nat) (raced : Bool), s.flight = some ⟨d, raced⟩ → s.NoResetPending →
    ∃ t : State, Sys2Proof.core.run (d + 1) s = .next t ∧ t.flight = none ∧ t.status.done = true ∧ t.cmd = s.cmd) ∧
  (∀ (s : State) (d : Nat) (raced : Bool), s.flight = some ⟨d, raced⟩ → s.host = [] →
    Sys2Proof.core.run (d + 1) s = step { s with flight := some ⟨0, raced⟩ })
end

