-- ==== Sys2Proof/Laws/Bits.lean ====
section
/-! SUPPORT. Lengths and arithmetic of bit strings, ASCII and packed bodies. -/

namespace Sys2Proof.Machine

@[simp] theorem ascii_length (b : Bits) : (ascii b).length = b.length := by simp [ascii]

@[simp] theorem bitsOfAscii_ascii (b : Bits) : bitsOfAscii (ascii b) = b := by
  induction b with
  | nil => rfl
  | cons x r ih =>
    simp only [ascii, bitsOfAscii, List.map_cons, List.map_map] at ih ⊢
    cases x <;> simp_all [show ¬ ch0 = ch1 by decide]

theorem ascii_all_isBitChar (b : Bits) : (ascii b).all isBitChar = true := by
  simp only [ascii, List.all_map, List.all_eq_true]
  intro x _
  cases x <;> decide

/-- `P <= 7` and `8·B = n + P` (41_bit_packer.md R108). -/
theorem byteCount_spec (n : Nat) : 8 * byteCount n = n + padCount n ∧ padCount n ≤ 7 := by
  unfold padCount byteCount; omega

@[simp] theorem packBody_length (b : Bits) : (packBody b).length = byteCount b.length := by simp [packBody]

@[simp] theorem bitsOfByte_length (v : Byte) : (bitsOfByte v).length = 8 := rfl

theorem flatMap_bitsOfByte_length (body : List Byte) : (body.flatMap bitsOfByte).length = 8 * body.length := by
  induction body with
  | nil => rfl
  | cons v r ih => simp [ih]; omega

/-- The length of an unpacked bit string (41_bit_packer.md R109). -/
@[simp] theorem unpack_length (body : List Byte) (p : Nat) : (unpack body p).length = 8 * body.length - p := by
  simp only [unpack, List.length_take, flatMap_bitsOfByte_length]; omega

theorem bitsVal_concat (b : Bits) (x : Bool) : bitsVal (b ++ [x]) = 2 * bitsVal b + x.toNat := by simp [bitsVal]

/-- Bit `j` of the number is the bit `j` places from the end of the string (20_memory.md R60). -/
theorem bitsVal_testBit (b : Bits) (j : Nat) : (bitsVal b).testBit j = (b.reverse[j]?).getD false := by
  induction b using List.reverseRecOn generalizing j with
  | nil => simp [bitsVal]
  | append_singleton b x ih =>
    rw [bitsVal_concat, List.reverse_append]
    cases j with
    | zero => cases x <;> simp [Nat.testBit_zero, Nat.add_mod]
    | succ j =>
      rw [Nat.testBit_succ]
      have : (2 * bitsVal b + x.toNat) / 2 = bitsVal b := by cases x <;> simp <;> omega
      rw [this, ih]; simp

/-- Every character of a decimal number is a digit (00_scope.md R15, R16). -/
theorem isDigit_digitChar (n : Nat) : isDigit (digitChar n) = true := by
  have : ∀ k : Fin 10, isDigit (BitVec.ofNat 8 (0x30 + k.val)) = true := by decide
  exact this ⟨n % 10, Nat.mod_lt _ (by omega)⟩

theorem decVal_concat (s : List Byte) (b : Byte) : decVal (s ++ [b]) = 10 * decVal s + (b.toNat - 0x30) := by
  simp [decVal]

theorem decFuel_spec (k n : Nat) (h : n ≤ k) :
    (decFuel k n).all isDigit = true ∧ decVal (decFuel k n) = n ∧ 1 ≤ (decFuel k n).length := by
  have val : ∀ n : Nat, (digitChar n).toNat - 0x30 = n % 10 := by intro n; simp [digitChar]; omega
  induction k generalizing n with
  | zero =>
    have : n = 0 := by omega
    subst this
    exact ⟨by simp [decFuel, isDigit_digitChar], rfl, by simp [decFuel]⟩
  | succ k ih =>
    simp only [decFuel]
    split
    · refine ⟨by simp [isDigit_digitChar], ?_, by simp⟩
      have := val n
      simp only [decVal, List.foldl_cons, List.foldl_nil]; omega
    · obtain ⟨a, b, c⟩ := ih (n / 10) (by omega)
      refine ⟨by simp [isDigit_digitChar, a], ?_, by simp⟩
      rw [decVal_concat, b, val]; omega

/-- `dec(n)` is digits that spell `n` (00_scope.md R15). -/
theorem dec_spec (n : Nat) : (dec n).all isDigit = true ∧ decVal (dec n) = n ∧ 1 ≤ (dec n).length :=
  decFuel_spec n n (Nat.le_refl n)

@[simp] theorem term_bytes_lf : Term.lf.bytes = [chLF] := rfl

@[simp] theorem term_bytes_crlf : Term.crlf.bytes = [chCR, chLF] := rfl

end Sys2Proof.Machine
end

