-- ==== Sys2Proof/Laws/State.lean ====
section
/-! SUPPORT. What each shared update of the state does to each field: one lemma per field per update, so that no later
proof unfolds a record update. -/

namespace Sys2Proof.Machine

@[simp] theorem State.finish_cfg (s : State) : s.finish.cfg = s.cfg := rfl
@[simp] theorem State.finish_ctrl (s : State) : s.finish.ctrl = s.ctrl := rfl
@[simp] theorem State.finish_cmd (s : State) : s.finish.cmd = s.cmd := rfl
@[simp] theorem State.finish_status (s : State) : s.finish.status = { s.status with done := true } := rfl
@[simp] theorem State.finish_params (s : State) : s.finish.params = s.params := rfl
@[simp] theorem State.finish_res (s : State) : s.finish.res = s.res := rfl
@[simp] theorem State.finish_sel (s : State) : s.finish.sel = s.sel := rfl
@[simp] theorem State.finish_nodeSel (s : State) : s.finish.nodeSel = s.nodeSel := rfl
@[simp] theorem State.finish_freq (s : State) : s.finish.freq = s.freq := rfl
@[simp] theorem State.finish_nodes (s : State) : s.finish.nodes = s.nodes := rfl
@[simp] theorem State.finish_code (s : State) : s.finish.code = s.code := rfl
@[simp] theorem State.finish_mem (s : State) : s.finish.mem = s.mem := rfl
@[simp] theorem State.finish_flight (s : State) : s.finish.flight = none := rfl
@[simp] theorem State.finish_recorded (s : State) : s.finish.recorded = s.recorded := rfl
@[simp] theorem State.finish_host (s : State) : s.finish.host = s.host := rfl
@[simp] theorem State.finish_readData (s : State) : s.finish.readData = s.readData := rfl
@[simp] theorem State.finish_delays (s : State) : s.finish.delays = s.delays := rfl
@[simp] theorem State.finish_draws (s : State) : s.finish.draws = s.draws := rfl

@[simp] theorem State.setFreq_cfg (f : FreqTable) (s : State) : (s.setFreq f).cfg = s.cfg := rfl
@[simp] theorem State.setFreq_ctrl (f : FreqTable) (s : State) : (s.setFreq f).ctrl = s.ctrl := rfl
@[simp] theorem State.setFreq_cmd (f : FreqTable) (s : State) : (s.setFreq f).cmd = s.cmd := rfl
@[simp] theorem State.setFreq_status (f : FreqTable) (s : State) : (s.setFreq f).status = s.status := rfl
@[simp] theorem State.setFreq_params (f : FreqTable) (s : State) : (s.setFreq f).params = s.params := rfl
@[simp] theorem State.setFreq_res (f : FreqTable) (s : State) : (s.setFreq f).res = s.res := rfl
@[simp] theorem State.setFreq_sel (f : FreqTable) (s : State) : (s.setFreq f).sel = s.sel := rfl
@[simp] theorem State.setFreq_nodeSel (f : FreqTable) (s : State) : (s.setFreq f).nodeSel = s.nodeSel := rfl
@[simp] theorem State.setFreq_freq (f : FreqTable) (s : State) : (s.setFreq f).freq = f := rfl
@[simp] theorem State.setFreq_nodes (f : FreqTable) (s : State) : (s.setFreq f).nodes = s.nodes := rfl
@[simp] theorem State.setFreq_code (f : FreqTable) (s : State) : (s.setFreq f).code = s.code := rfl
@[simp] theorem State.setFreq_mem (f : FreqTable) (s : State) : (s.setFreq f).mem = s.mem := rfl
@[simp] theorem State.setFreq_flight (f : FreqTable) (s : State) : (s.setFreq f).flight = s.flight := rfl
@[simp] theorem State.setFreq_recorded (f : FreqTable) (s : State) : (s.setFreq f).recorded = s.recorded := rfl
@[simp] theorem State.setFreq_host (f : FreqTable) (s : State) : (s.setFreq f).host = s.host := rfl
@[simp] theorem State.setFreq_readData (f : FreqTable) (s : State) : (s.setFreq f).readData = s.readData := rfl
@[simp] theorem State.setFreq_delays (f : FreqTable) (s : State) : (s.setFreq f).delays = s.delays := rfl
@[simp] theorem State.setFreq_draws (f : FreqTable) (s : State) : (s.setFreq f).draws = s.draws := rfl

@[simp] theorem State.setNodes_cfg (l : List Node) (s : State) : (s.setNodes l).cfg = s.cfg := rfl
@[simp] theorem State.setNodes_ctrl (l : List Node) (s : State) : (s.setNodes l).ctrl = s.ctrl := rfl
@[simp] theorem State.setNodes_cmd (l : List Node) (s : State) : (s.setNodes l).cmd = s.cmd := rfl
@[simp] theorem State.setNodes_status (l : List Node) (s : State) : (s.setNodes l).status = s.status := rfl
@[simp] theorem State.setNodes_params (l : List Node) (s : State) : (s.setNodes l).params = s.params := rfl
@[simp] theorem State.setNodes_res (l : List Node) (s : State) : (s.setNodes l).res = s.res := rfl
@[simp] theorem State.setNodes_sel (l : List Node) (s : State) : (s.setNodes l).sel = s.sel := rfl
@[simp] theorem State.setNodes_nodeSel (l : List Node) (s : State) : (s.setNodes l).nodeSel = s.nodeSel := rfl
@[simp] theorem State.setNodes_freq (l : List Node) (s : State) : (s.setNodes l).freq = s.freq := rfl
@[simp] theorem State.setNodes_nodes (l : List Node) (s : State) : (s.setNodes l).nodes = l := rfl
@[simp] theorem State.setNodes_code (l : List Node) (s : State) : (s.setNodes l).code = s.code := rfl
@[simp] theorem State.setNodes_mem (l : List Node) (s : State) : (s.setNodes l).mem = s.mem := rfl
@[simp] theorem State.setNodes_flight (l : List Node) (s : State) : (s.setNodes l).flight = s.flight := rfl
@[simp] theorem State.setNodes_recorded (l : List Node) (s : State) : (s.setNodes l).recorded = s.recorded := rfl
@[simp] theorem State.setNodes_host (l : List Node) (s : State) : (s.setNodes l).host = s.host := rfl
@[simp] theorem State.setNodes_readData (l : List Node) (s : State) : (s.setNodes l).readData = s.readData := rfl
@[simp] theorem State.setNodes_delays (l : List Node) (s : State) : (s.setNodes l).delays = s.delays := rfl
@[simp] theorem State.setNodes_draws (l : List Node) (s : State) : (s.setNodes l).draws = s.draws := rfl

@[simp] theorem State.setCode_cfg (c : CodeTable) (s : State) : (s.setCode c).cfg = s.cfg := rfl
@[simp] theorem State.setCode_ctrl (c : CodeTable) (s : State) : (s.setCode c).ctrl = s.ctrl := rfl
@[simp] theorem State.setCode_cmd (c : CodeTable) (s : State) : (s.setCode c).cmd = s.cmd := rfl
@[simp] theorem State.setCode_status (c : CodeTable) (s : State) : (s.setCode c).status = s.status := rfl
@[simp] theorem State.setCode_params (c : CodeTable) (s : State) : (s.setCode c).params = s.params := rfl
@[simp] theorem State.setCode_res (c : CodeTable) (s : State) : (s.setCode c).res = s.res := rfl
@[simp] theorem State.setCode_sel (c : CodeTable) (s : State) : (s.setCode c).sel = s.sel := rfl
@[simp] theorem State.setCode_nodeSel (c : CodeTable) (s : State) : (s.setCode c).nodeSel = s.nodeSel := rfl
@[simp] theorem State.setCode_freq (c : CodeTable) (s : State) : (s.setCode c).freq = s.freq := rfl
@[simp] theorem State.setCode_nodes (c : CodeTable) (s : State) : (s.setCode c).nodes = s.nodes := rfl
@[simp] theorem State.setCode_code (c : CodeTable) (s : State) : (s.setCode c).code = c := rfl
@[simp] theorem State.setCode_mem (c : CodeTable) (s : State) : (s.setCode c).mem = s.mem := rfl
@[simp] theorem State.setCode_flight (c : CodeTable) (s : State) : (s.setCode c).flight = s.flight := rfl
@[simp] theorem State.setCode_recorded (c : CodeTable) (s : State) : (s.setCode c).recorded = s.recorded := rfl
@[simp] theorem State.setCode_host (c : CodeTable) (s : State) : (s.setCode c).host = s.host := rfl
@[simp] theorem State.setCode_readData (c : CodeTable) (s : State) : (s.setCode c).readData = s.readData := rfl
@[simp] theorem State.setCode_delays (c : CodeTable) (s : State) : (s.setCode c).delays = s.delays := rfl
@[simp] theorem State.setCode_draws (c : CodeTable) (s : State) : (s.setCode c).draws = s.draws := rfl

@[simp] theorem State.setResults_cfg (r : Results) (s : State) : (s.setResults r).cfg = s.cfg := rfl
@[simp] theorem State.setResults_ctrl (r : Results) (s : State) : (s.setResults r).ctrl = s.ctrl := rfl
@[simp] theorem State.setResults_cmd (r : Results) (s : State) : (s.setResults r).cmd = s.cmd := rfl
@[simp] theorem State.setResults_status (r : Results) (s : State) : (s.setResults r).status = s.status := rfl
@[simp] theorem State.setResults_params (r : Results) (s : State) : (s.setResults r).params = s.params := rfl
@[simp] theorem State.setResults_res (r : Results) (s : State) : (s.setResults r).res = r := rfl
@[simp] theorem State.setResults_sel (r : Results) (s : State) : (s.setResults r).sel = s.sel := rfl
@[simp] theorem State.setResults_nodeSel (r : Results) (s : State) : (s.setResults r).nodeSel = s.nodeSel := rfl
@[simp] theorem State.setResults_freq (r : Results) (s : State) : (s.setResults r).freq = s.freq := rfl
@[simp] theorem State.setResults_nodes (r : Results) (s : State) : (s.setResults r).nodes = s.nodes := rfl
@[simp] theorem State.setResults_code (r : Results) (s : State) : (s.setResults r).code = s.code := rfl
@[simp] theorem State.setResults_mem (r : Results) (s : State) : (s.setResults r).mem = s.mem := rfl
@[simp] theorem State.setResults_flight (r : Results) (s : State) : (s.setResults r).flight = s.flight := rfl
@[simp] theorem State.setResults_recorded (r : Results) (s : State) : (s.setResults r).recorded = s.recorded := rfl
@[simp] theorem State.setResults_host (r : Results) (s : State) : (s.setResults r).host = s.host := rfl
@[simp] theorem State.setResults_readData (r : Results) (s : State) : (s.setResults r).readData = s.readData := rfl
@[simp] theorem State.setResults_delays (r : Results) (s : State) : (s.setResults r).delays = s.delays := rfl
@[simp] theorem State.setResults_draws (r : Results) (s : State) : (s.setResults r).draws = s.draws := rfl

@[simp] theorem State.setSizes_cfg (n : Nat) (s : State) : (s.setSizes n).cfg = s.cfg := rfl
@[simp] theorem State.setSizes_ctrl (n : Nat) (s : State) : (s.setSizes n).ctrl = s.ctrl := rfl
@[simp] theorem State.setSizes_cmd (n : Nat) (s : State) : (s.setSizes n).cmd = s.cmd := rfl
@[simp] theorem State.setSizes_status (n : Nat) (s : State) : (s.setSizes n).status = s.status := rfl
@[simp] theorem State.setSizes_params (n : Nat) (s : State) : (s.setSizes n).params = s.params := rfl
@[simp] theorem State.setSizes_res (n : Nat) (s : State) :
    (s.setSizes n).res = { s.res with
      body := BitVec.ofNat 32 (byteCount n), pad := BitVec.ofNat 3 (padCount n)
      hdr := BitVec.ofNat 32 (headerSize s.code (byteCount n) (padCount n) s.term.length)
      arch := BitVec.ofNat 32 (archiveSize s.code s.term.length n), bits := BitVec.ofNat 32 n } := rfl
@[simp] theorem State.setSizes_sel (n : Nat) (s : State) : (s.setSizes n).sel = s.sel := rfl
@[simp] theorem State.setSizes_nodeSel (n : Nat) (s : State) : (s.setSizes n).nodeSel = s.nodeSel := rfl
@[simp] theorem State.setSizes_freq (n : Nat) (s : State) : (s.setSizes n).freq = s.freq := rfl
@[simp] theorem State.setSizes_nodes (n : Nat) (s : State) : (s.setSizes n).nodes = s.nodes := rfl
@[simp] theorem State.setSizes_code (n : Nat) (s : State) : (s.setSizes n).code = s.code := rfl
@[simp] theorem State.setSizes_mem (n : Nat) (s : State) : (s.setSizes n).mem = s.mem := rfl
@[simp] theorem State.setSizes_flight (n : Nat) (s : State) : (s.setSizes n).flight = s.flight := rfl
@[simp] theorem State.setSizes_recorded (n : Nat) (s : State) : (s.setSizes n).recorded = s.recorded := rfl
@[simp] theorem State.setSizes_host (n : Nat) (s : State) : (s.setSizes n).host = s.host := rfl
@[simp] theorem State.setSizes_readData (n : Nat) (s : State) : (s.setSizes n).readData = s.readData := rfl
@[simp] theorem State.setSizes_delays (n : Nat) (s : State) : (s.setSizes n).delays = s.delays := rfl
@[simp] theorem State.setSizes_draws (n : Nat) (s : State) : (s.setSizes n).draws = s.draws := rfl

@[simp] theorem State.setParsed_cfg (r : Parsed) (s : State) : (s.setParsed r).cfg = s.cfg := rfl
@[simp] theorem State.setParsed_ctrl (r : Parsed) (s : State) : (s.setParsed r).ctrl = s.ctrl := rfl
@[simp] theorem State.setParsed_cmd (r : Parsed) (s : State) : (s.setParsed r).cmd = s.cmd := rfl
@[simp] theorem State.setParsed_status (r : Parsed) (s : State) : (s.setParsed r).status = s.status := rfl
@[simp] theorem State.setParsed_params (r : Parsed) (s : State) : (s.setParsed r).params = s.params := rfl
@[simp] theorem State.setParsed_res (r : Parsed) (s : State) :
    (s.setParsed r).res = {
      len := 0#32, body := BitVec.ofNat 32 r.body, pad := BitVec.ofNat 3 r.pad, hdr := BitVec.ofNat 32 r.hdr
      arch := BitVec.ofNat 32 s.srcLength, bits := BitVec.ofNat 32 (8 * r.body - r.pad) } := rfl
@[simp] theorem State.setParsed_sel (r : Parsed) (s : State) : (s.setParsed r).sel = s.sel := rfl
@[simp] theorem State.setParsed_nodeSel (r : Parsed) (s : State) : (s.setParsed r).nodeSel = s.nodeSel := rfl
@[simp] theorem State.setParsed_freq (r : Parsed) (s : State) : (s.setParsed r).freq = s.freq := rfl
@[simp] theorem State.setParsed_nodes (r : Parsed) (s : State) : (s.setParsed r).nodes = s.nodes := rfl
@[simp] theorem State.setParsed_code (r : Parsed) (s : State) :
    (s.setParsed r).code = CodeTable.ofEntries r.entries := rfl
@[simp] theorem State.setParsed_mem (r : Parsed) (s : State) : (s.setParsed r).mem = s.mem := rfl
@[simp] theorem State.setParsed_flight (r : Parsed) (s : State) : (s.setParsed r).flight = s.flight := rfl
@[simp] theorem State.setParsed_recorded (r : Parsed) (s : State) : (s.setParsed r).recorded = s.recorded := rfl
@[simp] theorem State.setParsed_host (r : Parsed) (s : State) : (s.setParsed r).host = s.host := rfl
@[simp] theorem State.setParsed_readData (r : Parsed) (s : State) : (s.setParsed r).readData = s.readData := rfl
@[simp] theorem State.setParsed_delays (r : Parsed) (s : State) : (s.setParsed r).delays = s.delays := rfl
@[simp] theorem State.setParsed_draws (r : Parsed) (s : State) : (s.setParsed r).draws = s.draws := rfl

@[simp] theorem State.setLen_cfg (n : Nat) (s : State) : (s.setLen n).cfg = s.cfg := rfl
@[simp] theorem State.setLen_ctrl (n : Nat) (s : State) : (s.setLen n).ctrl = s.ctrl := rfl
@[simp] theorem State.setLen_cmd (n : Nat) (s : State) : (s.setLen n).cmd = s.cmd := rfl
@[simp] theorem State.setLen_status (n : Nat) (s : State) : (s.setLen n).status = s.status := rfl
@[simp] theorem State.setLen_params (n : Nat) (s : State) : (s.setLen n).params = s.params := rfl
@[simp] theorem State.setLen_res (n : Nat) (s : State) :
    (s.setLen n).res = { s.res with len := BitVec.ofNat 32 n } := rfl
@[simp] theorem State.setLen_sel (n : Nat) (s : State) : (s.setLen n).sel = s.sel := rfl
@[simp] theorem State.setLen_nodeSel (n : Nat) (s : State) : (s.setLen n).nodeSel = s.nodeSel := rfl
@[simp] theorem State.setLen_freq (n : Nat) (s : State) : (s.setLen n).freq = s.freq := rfl
@[simp] theorem State.setLen_nodes (n : Nat) (s : State) : (s.setLen n).nodes = s.nodes := rfl
@[simp] theorem State.setLen_code (n : Nat) (s : State) : (s.setLen n).code = s.code := rfl
@[simp] theorem State.setLen_mem (n : Nat) (s : State) : (s.setLen n).mem = s.mem := rfl
@[simp] theorem State.setLen_flight (n : Nat) (s : State) : (s.setLen n).flight = s.flight := rfl
@[simp] theorem State.setLen_recorded (n : Nat) (s : State) : (s.setLen n).recorded = s.recorded := rfl
@[simp] theorem State.setLen_host (n : Nat) (s : State) : (s.setLen n).host = s.host := rfl
@[simp] theorem State.setLen_readData (n : Nat) (s : State) : (s.setLen n).readData = s.readData := rfl
@[simp] theorem State.setLen_delays (n : Nat) (s : State) : (s.setLen n).delays = s.delays := rfl
@[simp] theorem State.setLen_draws (n : Nat) (s : State) : (s.setLen n).draws = s.draws := rfl

@[simp] theorem State.setBody_cfg (b p n : Nat) (s : State) : (s.setBody b p n).cfg = s.cfg := rfl
@[simp] theorem State.setBody_ctrl (b p n : Nat) (s : State) : (s.setBody b p n).ctrl = s.ctrl := rfl
@[simp] theorem State.setBody_cmd (b p n : Nat) (s : State) : (s.setBody b p n).cmd = s.cmd := rfl
@[simp] theorem State.setBody_status (b p n : Nat) (s : State) : (s.setBody b p n).status = s.status := rfl
@[simp] theorem State.setBody_params (b p n : Nat) (s : State) : (s.setBody b p n).params = s.params := rfl
@[simp] theorem State.setBody_res (b p n : Nat) (s : State) :
    (s.setBody b p n).res = { s.res with body := BitVec.ofNat 32 b, pad := BitVec.ofNat 3 p, bits := BitVec.ofNat 32 n } := rfl
@[simp] theorem State.setBody_sel (b p n : Nat) (s : State) : (s.setBody b p n).sel = s.sel := rfl
@[simp] theorem State.setBody_nodeSel (b p n : Nat) (s : State) : (s.setBody b p n).nodeSel = s.nodeSel := rfl
@[simp] theorem State.setBody_freq (b p n : Nat) (s : State) : (s.setBody b p n).freq = s.freq := rfl
@[simp] theorem State.setBody_nodes (b p n : Nat) (s : State) : (s.setBody b p n).nodes = s.nodes := rfl
@[simp] theorem State.setBody_code (b p n : Nat) (s : State) : (s.setBody b p n).code = s.code := rfl
@[simp] theorem State.setBody_mem (b p n : Nat) (s : State) : (s.setBody b p n).mem = s.mem := rfl
@[simp] theorem State.setBody_flight (b p n : Nat) (s : State) : (s.setBody b p n).flight = s.flight := rfl
@[simp] theorem State.setBody_recorded (b p n : Nat) (s : State) : (s.setBody b p n).recorded = s.recorded := rfl
@[simp] theorem State.setBody_host (b p n : Nat) (s : State) : (s.setBody b p n).host = s.host := rfl
@[simp] theorem State.setBody_readData (b p n : Nat) (s : State) : (s.setBody b p n).readData = s.readData := rfl
@[simp] theorem State.setBody_delays (b p n : Nat) (s : State) : (s.setBody b p n).delays = s.delays := rfl
@[simp] theorem State.setBody_draws (b p n : Nat) (s : State) : (s.setBody b p n).draws = s.draws := rfl

@[simp] theorem State.setArch_cfg (h a : Nat) (s : State) : (s.setArch h a).cfg = s.cfg := rfl
@[simp] theorem State.setArch_ctrl (h a : Nat) (s : State) : (s.setArch h a).ctrl = s.ctrl := rfl
@[simp] theorem State.setArch_cmd (h a : Nat) (s : State) : (s.setArch h a).cmd = s.cmd := rfl
@[simp] theorem State.setArch_status (h a : Nat) (s : State) : (s.setArch h a).status = s.status := rfl
@[simp] theorem State.setArch_params (h a : Nat) (s : State) : (s.setArch h a).params = s.params := rfl
@[simp] theorem State.setArch_res (h a : Nat) (s : State) :
    (s.setArch h a).res = { s.res with hdr := BitVec.ofNat 32 h, arch := BitVec.ofNat 32 a } := rfl
@[simp] theorem State.setArch_sel (h a : Nat) (s : State) : (s.setArch h a).sel = s.sel := rfl
@[simp] theorem State.setArch_nodeSel (h a : Nat) (s : State) : (s.setArch h a).nodeSel = s.nodeSel := rfl
@[simp] theorem State.setArch_freq (h a : Nat) (s : State) : (s.setArch h a).freq = s.freq := rfl
@[simp] theorem State.setArch_nodes (h a : Nat) (s : State) : (s.setArch h a).nodes = s.nodes := rfl
@[simp] theorem State.setArch_code (h a : Nat) (s : State) : (s.setArch h a).code = s.code := rfl
@[simp] theorem State.setArch_mem (h a : Nat) (s : State) : (s.setArch h a).mem = s.mem := rfl
@[simp] theorem State.setArch_flight (h a : Nat) (s : State) : (s.setArch h a).flight = s.flight := rfl
@[simp] theorem State.setArch_recorded (h a : Nat) (s : State) : (s.setArch h a).recorded = s.recorded := rfl
@[simp] theorem State.setArch_host (h a : Nat) (s : State) : (s.setArch h a).host = s.host := rfl
@[simp] theorem State.setArch_readData (h a : Nat) (s : State) : (s.setArch h a).readData = s.readData := rfl
@[simp] theorem State.setArch_delays (h a : Nat) (s : State) : (s.setArch h a).delays = s.delays := rfl
@[simp] theorem State.setArch_draws (h a : Nat) (s : State) : (s.setArch h a).draws = s.draws := rfl

@[simp] theorem State.setBits_cfg (n : Nat) (s : State) : (s.setBits n).cfg = s.cfg := rfl
@[simp] theorem State.setBits_ctrl (n : Nat) (s : State) : (s.setBits n).ctrl = s.ctrl := rfl
@[simp] theorem State.setBits_cmd (n : Nat) (s : State) : (s.setBits n).cmd = s.cmd := rfl
@[simp] theorem State.setBits_status (n : Nat) (s : State) : (s.setBits n).status = s.status := rfl
@[simp] theorem State.setBits_params (n : Nat) (s : State) : (s.setBits n).params = s.params := rfl
@[simp] theorem State.setBits_res (n : Nat) (s : State) :
    (s.setBits n).res = { s.res with bits := BitVec.ofNat 32 n } := rfl
@[simp] theorem State.setBits_sel (n : Nat) (s : State) : (s.setBits n).sel = s.sel := rfl
@[simp] theorem State.setBits_nodeSel (n : Nat) (s : State) : (s.setBits n).nodeSel = s.nodeSel := rfl
@[simp] theorem State.setBits_freq (n : Nat) (s : State) : (s.setBits n).freq = s.freq := rfl
@[simp] theorem State.setBits_nodes (n : Nat) (s : State) : (s.setBits n).nodes = s.nodes := rfl
@[simp] theorem State.setBits_code (n : Nat) (s : State) : (s.setBits n).code = s.code := rfl
@[simp] theorem State.setBits_mem (n : Nat) (s : State) : (s.setBits n).mem = s.mem := rfl
@[simp] theorem State.setBits_flight (n : Nat) (s : State) : (s.setBits n).flight = s.flight := rfl
@[simp] theorem State.setBits_recorded (n : Nat) (s : State) : (s.setBits n).recorded = s.recorded := rfl
@[simp] theorem State.setBits_host (n : Nat) (s : State) : (s.setBits n).host = s.host := rfl
@[simp] theorem State.setBits_readData (n : Nat) (s : State) : (s.setBits n).readData = s.readData := rfl
@[simp] theorem State.setBits_delays (n : Nat) (s : State) : (s.setBits n).delays = s.delays := rfl
@[simp] theorem State.setBits_draws (n : Nat) (s : State) : (s.setBits n).draws = s.draws := rfl

@[simp] theorem State.storeDst_cfg (w : List Byte) (s : State) : (s.storeDst w).cfg = s.cfg := rfl
@[simp] theorem State.storeDst_ctrl (w : List Byte) (s : State) : (s.storeDst w).ctrl = s.ctrl := rfl
@[simp] theorem State.storeDst_cmd (w : List Byte) (s : State) : (s.storeDst w).cmd = s.cmd := rfl
@[simp] theorem State.storeDst_status (w : List Byte) (s : State) : (s.storeDst w).status = s.status := rfl
@[simp] theorem State.storeDst_params (w : List Byte) (s : State) : (s.storeDst w).params = s.params := rfl
@[simp] theorem State.storeDst_res (w : List Byte) (s : State) :
    (s.storeDst w).res = { s.res with len := BitVec.ofNat 32 w.length } := rfl
@[simp] theorem State.storeDst_sel (w : List Byte) (s : State) : (s.storeDst w).sel = s.sel := rfl
@[simp] theorem State.storeDst_nodeSel (w : List Byte) (s : State) : (s.storeDst w).nodeSel = s.nodeSel := rfl
@[simp] theorem State.storeDst_freq (w : List Byte) (s : State) : (s.storeDst w).freq = s.freq := rfl
@[simp] theorem State.storeDst_nodes (w : List Byte) (s : State) : (s.storeDst w).nodes = s.nodes := rfl
@[simp] theorem State.storeDst_code (w : List Byte) (s : State) : (s.storeDst w).code = s.code := rfl
@[simp] theorem State.storeDst_mem (w : List Byte) (s : State) :
    (s.storeDst w).mem = s.mem.writeBytes s.params.dstAddr.toNat w := rfl
@[simp] theorem State.storeDst_flight (w : List Byte) (s : State) : (s.storeDst w).flight = s.flight := rfl
@[simp] theorem State.storeDst_recorded (w : List Byte) (s : State) : (s.storeDst w).recorded = s.recorded := rfl
@[simp] theorem State.storeDst_host (w : List Byte) (s : State) : (s.storeDst w).host = s.host := rfl
@[simp] theorem State.storeDst_readData (w : List Byte) (s : State) : (s.storeDst w).readData = s.readData := rfl
@[simp] theorem State.storeDst_delays (w : List Byte) (s : State) : (s.storeDst w).delays = s.delays := rfl
@[simp] theorem State.storeDst_draws (w : List Byte) (s : State) : (s.storeDst w).draws = s.draws := rfl

@[simp] theorem State.raise_cfg (e : ErrCode) (s : State) : (s.raise e).cfg = s.cfg := rfl
@[simp] theorem State.raise_ctrl (e : ErrCode) (s : State) : (s.raise e).ctrl = s.ctrl := rfl
@[simp] theorem State.raise_cmd (e : ErrCode) (s : State) : (s.raise e).cmd = s.cmd := rfl
@[simp] theorem State.raise_status (e : ErrCode) (s : State) :
    (s.raise e).status = { s.status with done := true, err := true, errCode := e.code, errInfo := e.info } := rfl
@[simp] theorem State.raise_params (e : ErrCode) (s : State) : (s.raise e).params = s.params := rfl
@[simp] theorem State.raise_res (e : ErrCode) (s : State) : (s.raise e).res = { s.res with len := 0#32 } := rfl
@[simp] theorem State.raise_sel (e : ErrCode) (s : State) : (s.raise e).sel = s.sel := rfl
@[simp] theorem State.raise_nodeSel (e : ErrCode) (s : State) : (s.raise e).nodeSel = s.nodeSel := rfl
@[simp] theorem State.raise_freq (e : ErrCode) (s : State) : (s.raise e).freq = s.freq := rfl
@[simp] theorem State.raise_nodes (e : ErrCode) (s : State) : (s.raise e).nodes = s.nodes := rfl
@[simp] theorem State.raise_code (e : ErrCode) (s : State) : (s.raise e).code = s.code := rfl
@[simp] theorem State.raise_mem (e : ErrCode) (s : State) : (s.raise e).mem = s.mem := rfl
@[simp] theorem State.raise_flight (e : ErrCode) (s : State) : (s.raise e).flight = none := rfl
@[simp] theorem State.raise_recorded (e : ErrCode) (s : State) : (s.raise e).recorded = s.recorded := rfl
@[simp] theorem State.raise_host (e : ErrCode) (s : State) : (s.raise e).host = s.host := rfl
@[simp] theorem State.raise_readData (e : ErrCode) (s : State) : (s.raise e).readData = s.readData := rfl
@[simp] theorem State.raise_delays (e : ErrCode) (s : State) : (s.raise e).delays = s.delays := rfl
@[simp] theorem State.raise_draws (e : ErrCode) (s : State) : (s.raise e).draws = s.draws := rfl

@[simp] theorem State.notComp_cfg (s : State) : s.notComp.cfg = s.cfg := rfl
@[simp] theorem State.notComp_ctrl (s : State) : s.notComp.ctrl = s.ctrl := rfl
@[simp] theorem State.notComp_cmd (s : State) : s.notComp.cmd = s.cmd := rfl
@[simp] theorem State.notComp_status (s : State) :
    s.notComp.status = { s.status with done := true, notcomp := true } := rfl
@[simp] theorem State.notComp_params (s : State) : s.notComp.params = s.params := rfl
@[simp] theorem State.notComp_res (s : State) : s.notComp.res = { s.res with len := 0#32 } := rfl
@[simp] theorem State.notComp_sel (s : State) : s.notComp.sel = s.sel := rfl
@[simp] theorem State.notComp_nodeSel (s : State) : s.notComp.nodeSel = s.nodeSel := rfl
@[simp] theorem State.notComp_freq (s : State) : s.notComp.freq = s.freq := rfl
@[simp] theorem State.notComp_nodes (s : State) : s.notComp.nodes = s.nodes := rfl
@[simp] theorem State.notComp_code (s : State) : s.notComp.code = s.code := rfl
@[simp] theorem State.notComp_mem (s : State) : s.notComp.mem = s.mem := rfl
@[simp] theorem State.notComp_flight (s : State) : s.notComp.flight = none := rfl
@[simp] theorem State.notComp_recorded (s : State) : s.notComp.recorded = s.recorded := rfl
@[simp] theorem State.notComp_host (s : State) : s.notComp.host = s.host := rfl
@[simp] theorem State.notComp_readData (s : State) : s.notComp.readData = s.readData := rfl
@[simp] theorem State.notComp_delays (s : State) : s.notComp.delays = s.delays := rfl
@[simp] theorem State.notComp_draws (s : State) : s.notComp.draws = s.draws := rfl

@[simp] theorem State.acceptAfter_cfg (d : Nat) (w : Word) (s : State) : (s.acceptAfter d w).cfg = s.cfg := rfl
@[simp] theorem State.acceptAfter_ctrl (d : Nat) (w : Word) (s : State) : (s.acceptAfter d w).ctrl = s.ctrl := rfl
@[simp] theorem State.acceptAfter_cmd (d : Nat) (w : Word) (s : State) : (s.acceptAfter d w).cmd = w := rfl
@[simp] theorem State.acceptAfter_status (d : Nat) (w : Word) (s : State) :
    (s.acceptAfter d w).status = { s.status with done := false, err := false, errCode := 0#8, errInfo := 0#8, notcomp := false } := rfl
@[simp] theorem State.acceptAfter_params (d : Nat) (w : Word) (s : State) : (s.acceptAfter d w).params = s.params := rfl
@[simp] theorem State.acceptAfter_res (d : Nat) (w : Word) (s : State) : (s.acceptAfter d w).res = s.res := rfl
@[simp] theorem State.acceptAfter_sel (d : Nat) (w : Word) (s : State) : (s.acceptAfter d w).sel = s.sel := rfl
@[simp] theorem State.acceptAfter_nodeSel (d : Nat) (w : Word) (s : State) :
    (s.acceptAfter d w).nodeSel = s.nodeSel := rfl
@[simp] theorem State.acceptAfter_freq (d : Nat) (w : Word) (s : State) : (s.acceptAfter d w).freq = s.freq := rfl
@[simp] theorem State.acceptAfter_nodes (d : Nat) (w : Word) (s : State) : (s.acceptAfter d w).nodes = s.nodes := rfl
@[simp] theorem State.acceptAfter_code (d : Nat) (w : Word) (s : State) : (s.acceptAfter d w).code = s.code := rfl
@[simp] theorem State.acceptAfter_mem (d : Nat) (w : Word) (s : State) : (s.acceptAfter d w).mem = s.mem := rfl
@[simp] theorem State.acceptAfter_flight (d : Nat) (w : Word) (s : State) :
    (s.acceptAfter d w).flight = some ⟨d, false⟩ := rfl
@[simp] theorem State.acceptAfter_recorded (d : Nat) (w : Word) (s : State) :
    (s.acceptAfter d w).recorded = s.recorded := rfl
@[simp] theorem State.acceptAfter_host (d : Nat) (w : Word) (s : State) : (s.acceptAfter d w).host = s.host := rfl
@[simp] theorem State.acceptAfter_readData (d : Nat) (w : Word) (s : State) :
    (s.acceptAfter d w).readData = s.readData := rfl
@[simp] theorem State.acceptAfter_delays (d : Nat) (w : Word) (s : State) : (s.acceptAfter d w).delays = s.delays := rfl
@[simp] theorem State.acceptAfter_draws (d : Nat) (w : Word) (s : State) : (s.acceptAfter d w).draws = s.draws := rfl

end Sys2Proof.Machine
end

