-- ==== Sys2Proof/Laws/Checks.lean ====
section
/-! SUPPORT. What the window checks say, and the shape of what a command leaves. -/

namespace Sys2Proof.Machine

theorem State.checkSrc_eq_none (s : State) : s.checkSrc = none ↔ s.srcWin.InRange s.cfg.memBytes := by
  simp [State.checkSrc]

theorem State.checkBoth_eq_none (s : State) :
    s.checkBoth = none ↔ s.srcWin.InRange s.cfg.memBytes ∧ s.dstWin.InRange s.cfg.memBytes ∧
      ¬ s.srcWin.Overlaps s.dstWin := by
  simp only [State.checkBoth]
  split
  · simp_all
  · split
    · simp_all
    · split <;> simp_all

theorem State.checkPad_eq_none (s : State) : s.checkPad = none ↔ s.padIn ≤ 8 * s.srcLength := by
  simp [State.checkPad]

@[simp] theorem State.srcBytes_length (s : State) : s.srcBytes.length = s.srcLength := by
  simp [State.srcBytes, State.srcLength]

/-- A stage that has ended its command is complete as it stands. -/
@[simp] theorem Stage.complete_error (t : State) : Stage.complete (.error t) = t := rfl

@[simp] theorem Stage.complete_ok (t : State) : Stage.complete (.ok t) = t.finish := rfl

end Sys2Proof.Machine
end

