-- ==== Sys2Proof/Laws/Exec.lean ====
section
/-! SUPPORT. What a command can leave, said once for all fourteen: a state that differs from the accepted one in tables and
result registers alone, completed with an error, not-compressible, with success, or with success and an output stored. -/

namespace Sys2Proof.Machine

/-- `u` is `s` but for the tables and the result registers. -/
def Touched (s u : State) : Prop :=
  u = { s with freq := u.freq, nodes := u.nodes, code := u.code, res := u.res }

theorem Touched.same (s : State) : Touched s s := Eq.refl s

theorem Touched.setFreq {s u : State} (h : Touched s u) (f : FreqTable) : Touched s (u.setFreq f) := by
  unfold Touched at *; rw [h]; exact Eq.refl _

theorem Touched.setNodes {s u : State} (h : Touched s u) (l : List Node) : Touched s (u.setNodes l) := by
  unfold Touched at *; rw [h]; exact Eq.refl _

theorem Touched.setCode {s u : State} (h : Touched s u) (c : CodeTable) : Touched s (u.setCode c) := by
  unfold Touched at *; rw [h]; exact Eq.refl _

theorem Touched.setLen {s u : State} (h : Touched s u) (n : Nat) : Touched s (u.setLen n) := by
  unfold Touched at *; rw [h]; exact Eq.refl _

theorem Touched.setBody {s u : State} (h : Touched s u) (b p n : Nat) : Touched s (u.setBody b p n) := by
  unfold Touched at *; rw [h]; exact Eq.refl _

theorem Touched.setArch {s u : State} (h : Touched s u) (a b : Nat) : Touched s (u.setArch a b) := by
  unfold Touched at *; rw [h]; exact Eq.refl _

theorem Touched.setBits {s u : State} (h : Touched s u) (n : Nat) : Touched s (u.setBits n) := by
  unfold Touched at *; rw [h]; exact Eq.refl _

theorem Touched.setParsed {s u : State} (h : Touched s u) (r : Parsed) : Touched s (u.setParsed r) :=
  (((h.setCode _).setBody _ _ _).setArch _ _).setLen _

theorem Touched.setSizes {s u : State} (h : Touched s u) (n : Nat) : Touched s (u.setSizes n) :=
  (h.setBody _ _ _).setArch _ _

theorem Touched.setResults {s u : State} (h : Touched s u) (r : Results) : Touched s (u.setResults r) := by
  unfold Touched at *; rw [h]; exact Eq.refl _

/-- How a command completes from a state `u` that differs from the accepted one in tables and results alone: with an
error, not-compressible, with success and nothing stored, or with success and the bytes `w` stored; a command stores only
after both windows have passed their checks. -/
inductive Ending (s u : State) (stores : Bool) : State → Prop where
  | raised (e : ErrCode) : Ending s u stores (u.raise e)
  | notCompressible : Ending s u stores u.notComp
  | finished : stores = false → Ending s u stores u.finish
  | stored (w : List Byte) : stores = true → s.checkBoth = none → Ending s u stores (u.storeDst w).finish

theorem packInto_cases (s : State) (bits : Bits) (hc : s.checkBoth = none) :
    ∃ u, Touched s u ∧ Ending s u true (packInto bits s) := by
  unfold packInto
  split
  · exact ⟨s, .same s, .raised _⟩
  · exact ⟨_, (Touched.same s).setBody .., .stored _ (Eq.refl _) hc⟩

theorem unpackInto_cases (s : State) (bits : Bits) (hc : s.checkBoth = none) :
    ∃ u, Touched s u ∧ Ending s u true (unpackInto bits s) := by
  unfold unpackInto
  split
  · exact ⟨s, .same s, .raised _⟩
  · exact ⟨_, (Touched.same s).setBits _, .stored _ (Eq.refl _) hc⟩

theorem encodeStage_cases {s v : State} (h : Touched s v) (hc : s.checkBoth = none) :
    ∃ u, Touched s u ∧ Ending s u true (encodeStage v) := by
  unfold encodeStage
  split
  · exact ⟨v, h, .raised _⟩
  · dsimp only
    split
    · exact ⟨_, h.setSizes _, .notCompressible⟩
    · split
      · exact ⟨_, h.setSizes _, .raised _⟩
      · exact ⟨_, h.setSizes _, .stored _ (Eq.refl _) hc⟩

/-- The parse stage either ends the command with MALFORMED_ARCHIVE and CODE empty, or yields what `parse` yields with the
code table and the size registers set. -/
theorem parseStage_cases (s : State) :
    (∃ k, parseArchive s.term s.srcBytes = .error k ∧
      parseStage s = .error ((s.setCode CodeTable.empty).raise (.malformedArchive k))) ∨
    (∃ r, parseArchive s.term s.srcBytes = .ok r ∧ parseStage s = .ok (s.setParsed r, r)) := by
  cases h : parseArchive s.term s.srcBytes with
  | error k => exact .inl ⟨k, Eq.refl _, by simp [parseStage, h]⟩
  | ok r => exact .inr ⟨r, Eq.refl _, by simp only [parseStage, h]⟩

/-- SCAN's stage ends with EMPTY_INPUT or goes on, the counts in FREQ either way. -/
theorem scanStage_cases (s : State) :
    (∃ u, Touched s u ∧ scanStage s = .error (u.raise .emptyInput)) ∨ (∃ u, Touched s u ∧ scanStage s = .ok u) := by
  unfold scanStage
  dsimp only
  split
  · exact .inl ⟨_, ((Touched.same s).setFreq _).setLen _, Eq.refl _⟩
  · exact .inr ⟨_, ((Touched.same s).setFreq _).setLen _, Eq.refl _⟩

/-- BUILD's stage ends with EMPTY_INPUT or goes on with the tree. -/
theorem buildStage_cases {s v : State} (h : Touched s v) :
    buildStage v = .error (v.raise .emptyInput) ∨ (∃ u, Touched s u ∧ buildStage v = .ok u) := by
  unfold buildStage
  split
  · exact .inl (Eq.refl _)
  · exact .inr ⟨_, (h.setNodes _).setLen _, Eq.refl _⟩

/-- ASSIGN's stage ends with NO_TREE or goes on with the code table. -/
theorem assignStage_cases {s v : State} (h : Touched s v) :
    assignStage v = .error (v.raise .noTree) ∨ (∃ u, Touched s u ∧ assignStage v = .ok u) := by
  unfold assignStage
  split
  · exact .inl (Eq.refl _)
  · exact .inr ⟨_, (h.setCode _).setLen _, Eq.refl _⟩

/-- Does the command write DMEM? (30_encoding.md R83) -/
def Instr.stores (i : Instr) : Bool := decide (i ∉ storelessCommands)

/-- Everything a command can do: it touches tables and result registers, then ends in one of the ways of `Ending`. -/
theorem exec_cases (i : Instr) (s : State) :
    ∃ u t, exec i s = .next t ∧ Touched s u ∧ Ending s u (Instr.stores i) t := by
  have pack : ∀ {t : State}, (∃ u, Touched s u ∧ Ending s u true t) → ∃ u t', Host.Outcome.next t =
      (Host.Outcome.next t' : Host.Outcome State Fault Refusal) ∧ Touched s u ∧ Ending s u true t' :=
    fun ⟨u, h1, h2⟩ => ⟨u, _, Eq.refl _, h1, h2⟩
  have err : ∀ {b : Bool} {u : State} (e : ErrCode), Touched s u → ∃ v t', Host.Outcome.next (u.raise e) =
      (Host.Outcome.next t' : Host.Outcome State Fault Refusal) ∧ Touched s v ∧ Ending s v b t' :=
    fun e h => ⟨_, _, Eq.refl _, h, .raised e⟩
  have ok : ∀ {u : State}, Touched s u → ∃ v t', Host.Outcome.next u.finish =
      (Host.Outcome.next t' : Host.Outcome State Fault Refusal) ∧ Touched s v ∧ Ending s v false t' :=
    fun h => ⟨_, _, Eq.refl _, h, .finished (Eq.refl _)⟩
  have base := Touched.same s
  cases i
  case nop => exact ok base
  case scan =>
    simp only [exec, execScan]
    cases hc : s.checkSrc with
    | some e => exact err e base
    | none => rcases scanStage_cases s with ⟨u, h, e⟩ | ⟨u, h, e⟩ <;> simp only [e]; exacts [err _ h, ok h]
  case build =>
    simp only [exec, execBuild]
    rcases buildStage_cases base with e | ⟨u, h, e⟩ <;> simp only [e]; exacts [err _ base, ok h]
  case assign =>
    simp only [exec, execAssign]
    rcases assignStage_cases base with e | ⟨u, h, e⟩ <;> simp only [e]; exacts [err _ base, ok h]
  case measure =>
    simp only [exec, execMeasure]
    cases hc : s.checkSrc with
    | some e => exact err e base
    | none =>
      simp only
      split
      · exact err _ base
      · split
        · exact err _ base
        · split
          · exact ⟨_, _, Eq.refl _, (base.setSizes _).setLen 0, .notCompressible⟩
          · exact ok ((base.setSizes _).setLen 0)
  case clear =>
    exact ⟨_, _, Eq.refl _, (((base.setFreq _).setNodes _).setCode _).setResults _, .finished (Eq.refl _)⟩
  case parse =>
    simp only [exec, execParse]
    cases hc : s.checkSrc with
    | some e => exact err e base
    | none =>
      rcases parseStage_cases s with ⟨k, -, e⟩ | ⟨r, -, e⟩ <;> simp only [e]
      exacts [err _ (base.setCode _), ok (base.setParsed r)]
  case encode =>
    simp only [exec, execEncode]
    cases hc : s.checkBoth with
    | some e => exact err e base
    | none =>
      simp only
      split
      · exact err _ base
      · exact pack (encodeStage_cases base hc)
  case pack =>
    simp only [exec, execPack]
    cases hc : s.checkBoth with
    | some e => exact err e base
    | none =>
      simp only
      split
      · exact err _ base
      · split
        · exact err _ base
        · exact pack (packInto_cases _ _ hc)
  case packBits =>
    simp only [exec, execPackBits]
    cases hc : s.checkBoth with
    | some e => exact err e base
    | none =>
      simp only
      split
      · exact pack (packInto_cases _ _ hc)
      · exact err _ base
  case unpackBits =>
    simp only [exec, execUnpackBits]
    cases hc : s.checkBoth with
    | some e => exact err e base
    | none =>
      simp only
      split
      · exact err _ base
      · exact pack (unpackInto_cases _ _ hc)
  case decodeBody =>
    simp only [exec, execDecodeBody]
    cases hc : s.checkBoth with
    | some e => exact err e base
    | none =>
      simp only
      split
      · exact err _ base
      · split
        · exact err _ base
        · exact pack ⟨_, base.setBits _, .stored _ (Eq.refl _) hc⟩
  case decompress =>
    simp only [exec, execDecompress]
    cases hc : s.checkBoth with
    | some e => exact err e base
    | none =>
      simp only
      rcases parseStage_cases s with ⟨k, -, e⟩ | ⟨r, -, e⟩ <;> simp only [e]
      · exact err _ (base.setCode _)
      · split
        · exact err _ (base.setParsed r)
        · exact pack ⟨_, base.setParsed r, .stored _ (Eq.refl _) hc⟩
  case compress =>
    simp only [exec, execCompress]
    cases hc : s.checkBoth with
    | some e => exact err e base
    | none =>
      simp only
      rcases scanStage_cases s with ⟨u, h, e⟩ | ⟨u, h, e⟩ <;> simp only [e]
      · exact err _ h
      · rcases buildStage_cases h with e | ⟨v, hv, e⟩ <;> simp only [e]
        · exact err _ h
        · rcases assignStage_cases hv with e | ⟨w, hw, e⟩ <;> simp only [e]
          · exact err _ hv
          · exact pack (encodeStage_cases hw hc)

end Sys2Proof.Machine
end

