-- ==== Sys2Proof/Laws/Tables.lean ====
section
/-! SUPPORT. Reading an entry of FREQ or CODE after writing one, the live counters, and lookup of a code. -/

namespace Sys2Proof.Machine

theorem FreqTable.get_put_same (f : FreqTable) (s : Byte) (v : Word) : (FreqTable.put f s v).get s = v := by
  simp [FreqTable.get, FreqTable.put]

theorem FreqTable.get_put_ne (f : FreqTable) {s t : Byte} (h : t ≠ s) (v : Word) :
    FreqTable.get (FreqTable.put f s v) t = FreqTable.get f t := by
  have : s.toNat ≠ t.toNat := fun e => h (BitVec.eq_of_toNat_eq e.symm)
  simp [FreqTable.get, FreqTable.put, Vector.getElem_set_ne, this]

@[simp] theorem FreqTable.get_zero (s : Byte) : FreqTable.get FreqTable.zero s = 0#32 := by
  simp [FreqTable.get, FreqTable.zero]

theorem FreqTable.ext_get {f g : FreqTable} (h : ∀ s, FreqTable.get f s = FreqTable.get g s) : f = g := by
  apply Vector.ext
  intro i hi
  have := h (BitVec.ofNat 8 i)
  simpa [FreqTable.get, Nat.mod_eq_of_lt hi] using this

theorem CodeTable.get_put_same (c : CodeTable) (s : Byte) {b : Bits} (h : b.length ≤ 255) :
    CodeTable.get (CodeTable.put c s b) s = b := by
  simp [CodeTable.get, CodeTable.put, List.take_of_length_le, Nat.mod_eq_of_lt (Nat.lt_succ_of_le h)]

theorem CodeTable.get_put_ne (c : CodeTable) {s t : Byte} (h : t ≠ s) (b : Bits) :
    CodeTable.get (CodeTable.put c s b) t = CodeTable.get c t := by
  have : s.toNat ≠ t.toNat := fun e => h (BitVec.eq_of_toNat_eq e.symm)
  simp [CodeTable.get, CodeTable.put, Vector.getElem_set_ne, this]

@[simp] theorem CodeTable.get_empty (s : Byte) : CodeTable.get CodeTable.empty s = [] := by
  simp [CodeTable.get, CodeTable.empty]

theorem CodeTable.ext_get {c d : CodeTable} (h : ∀ s, CodeTable.get c s = CodeTable.get d s) : c = d := by
  apply Vector.ext
  intro i hi
  have := h (BitVec.ofNat 8 i)
  simpa [CodeTable.get, Nat.mod_eq_of_lt hi] using this

/-- A write keeps every code within 255 bits (10_state.md R47). -/
theorem CodeTable.length_get_put_le (c : CodeTable) (s t : Byte) (b : Bits)
    (h : (CodeTable.get c t).length ≤ 255) : (CodeTable.get (CodeTable.put c s b) t).length ≤ 255 := by
  by_cases e : t = s
  · subst e
    simp only [CodeTable.get, CodeTable.put, Vector.getElem_set_self, List.length_take]
    omega
  · rwa [CodeTable.get_put_ne c e]

/-- A symbol that a lookup yields has the code looked up. -/
theorem CodeTable.get_of_lookup {c : CodeTable} {b : Bits} {s : Byte} (h : CodeTable.lookup c b = some s) :
    CodeTable.get c s = b := by
  simp only [CodeTable.lookup, Option.map_eq_some_iff] at h
  obtain ⟨i, hi, rfl⟩ := h
  obtain ⟨h1, h2, -⟩ := List.findIdx?_eq_some_iff_getElem.mp hi
  have : i < 256 := by simpa using h1
  simpa [CodeTable.get, Nat.mod_eq_of_lt this] using h2

/-- A lookup that fails finds no symbol with that code. -/
theorem CodeTable.ne_of_lookup_none {c : CodeTable} {b : Bits} (h : CodeTable.lookup c b = none) (s : Byte) :
    CodeTable.get c s ≠ b := by
  simp only [CodeTable.lookup, Option.map_eq_none_iff, List.findIdx?_eq_none_iff] at h
  intro e
  have := h (CodeTable.get c s) (by simp [CodeTable.get])
  simp [e] at this

theorem mem_allSymbols (s : Byte) : s ∈ allSymbols := by
  simp only [allSymbols, List.mem_map, List.mem_range]
  exact ⟨s.toNat, s.isLt, by simp⟩

theorem allSymbols_nodup : allSymbols.Nodup := by
  apply List.Nodup.map_on _ List.nodup_range
  intro x hx y hy e
  have hx : x < 256 := by simpa using hx
  have hy : y < 256 := by simpa using hy
  have := congrArg BitVec.toNat e
  simpa [Nat.mod_eq_of_lt hx, Nat.mod_eq_of_lt hy] using this

end Sys2Proof.Machine
end

