-- ==== Sys2Proof/Laws/Codec.lean ====
section
/-! SUPPORT. The commands with their window checks and stages written out, the functions `enc` and `decode`, and the lines
and registrations of an archive. -/

namespace Sys2Proof.Machine

/-! ## Window checks -/

theorem State.checkSrc_ready {s : State} (h : s.SrcReady) : s.checkSrc = none := (s.checkSrc_eq_none).2 h

theorem State.checkSrc_notReady {s : State} (h : ¬ s.SrcReady) : s.checkSrc = some .range :=
  if_neg (show ¬ s.srcWin.InRange s.cfg.memBytes from h)

theorem State.checkBoth_ready {s : State} (h : s.WindowsReady) : s.checkBoth = none := (s.checkBoth_eq_none).2 h

/-- The checks of the windows read the parameter registers and MEM_BYTES alone. -/
theorem State.checkBoth_congr {s t : State} (h1 : s.cfg = t.cfg) (h2 : s.params = t.params) :
    s.checkBoth = t.checkBoth := by
  unfold State.checkBoth State.srcWin State.dstWin; rw [h1, h2]

/-! ## The commands of several stages, written out -/

theorem execParse_eq (s : State) : execParse s = match s.checkSrc with
    | some e => .next (s.raise e)
    | none => match parseArchive s.term s.srcBytes with
      | .error k => .next ((s.setCode CodeTable.empty).raise (.malformedArchive k))
      | .ok r => .next (s.setParsed r).finish := by
  unfold execParse parseStage
  cases s.checkSrc <;> simp only
  cases parseArchive s.term s.srcBytes <;> rfl

theorem execDecompress_eq (s : State) : execDecompress s = match s.checkBoth with
    | some e => .next (s.raise e)
    | none => match parseArchive s.term s.srcBytes with
      | .error k => .next ((s.setCode CodeTable.empty).raise (.malformedArchive k))
      | .ok r =>
        match decodeBits (unpack (s.srcBytes.drop r.hdr) r.pad) (CodeTable.ofEntries r.entries) s.dstCapacity with
        | .error e => .next ((s.setParsed r).raise e)
        | .ok out => .next ((s.setParsed r).storeDst out).finish := by
  unfold execDecompress parseStage
  cases s.checkBoth <;> simp only
  cases parseArchive s.term s.srcBytes <;> rfl

/-- The states of COMPRESS after SCAN, BUILD and ASSIGN (42_archive_codec.md R137). -/
def State.afterScan (s : State) : State := (s.setFreq (countBytes s.srcBytes)).setLen 0

def State.afterBuild (s : State) : State := (s.afterScan.setNodes (buildNodes (countBytes s.srcBytes))).setLen 0

def State.afterAssign (s : State) : State :=
  (s.afterBuild.setCode (assignCodes (buildNodes (countBytes s.srcBytes)))).setLen 0

theorem execCompress_eq (s : State) : execCompress s = match s.checkBoth with
    | some e => .next (s.raise e)
    | none =>
      if s.srcLength = 0 then .next (s.afterScan.raise .emptyInput)
      else if nsym (countBytes s.srcBytes) = 0 then .next (s.afterScan.raise .emptyInput)
      else if (buildNodes (countBytes s.srcBytes)).length = 0 then .next (s.afterBuild.raise .noTree)
      else .next (encodeStage s.afterAssign) := by
  unfold execCompress
  cases s.checkBoth <;> simp only
  by_cases h1 : s.srcLength = 0
  · have e : scanStage s = _ := if_pos h1
    simp only [e, if_pos h1]; rfl
  · have e : scanStage s = .ok s.afterScan := if_neg h1
    simp only [e, if_neg h1]
    by_cases h2 : nsym (countBytes s.srcBytes) = 0
    · have e : buildStage s.afterScan = _ := if_pos h2
      simp only [e, if_pos h2]
    · have e : buildStage s.afterScan = .ok s.afterBuild := if_neg h2
      simp only [e, if_neg h2]
      by_cases h3 : (buildNodes (countBytes s.srcBytes)).length = 0
      · have e : assignStage s.afterBuild = _ := if_pos h3
        simp only [if_pos h3, e]
      · have e : assignStage s.afterBuild = .ok s.afterAssign := if_neg h3
        simp only [if_neg h3, e]

/-! ## enc -/

/-- `enc` fails where a byte has no code (41_bit_packer.md R110). -/
theorem enc_eq_none {code : CodeTable} {c : List Byte} (h : ∃ b ∈ c, CodeTable.get code b = []) : enc code c = none := by
  induction c with
  | nil => simp at h
  | cons x r ih =>
    unfold enc
    split
    · rfl
    · rename_i hx
      have : ∃ b ∈ r, CodeTable.get code b = [] := by
        obtain ⟨b, hb, e⟩ := h
        rcases List.mem_cons.1 hb with rfl | hb
        · simp [e] at hx
        · exact ⟨b, hb, e⟩
      rw [ih this]

/-- Else it is the codes of the bytes, one after the other (41_bit_packer.md R110). -/
theorem enc_eq_some {code : CodeTable} {c : List Byte} (h : ∀ b ∈ c, CodeTable.get code b ≠ []) :
    enc code c = some (c.flatMap fun b => CodeTable.get code b) := by
  induction c with
  | nil => rfl
  | cons x r ih =>
    unfold enc
    rw [if_neg (by simpa using h x (by simp)), ih (fun b hb => h b (by simp [hb]))]
    simp

theorem enc_cons {code : CodeTable} {b : Byte} {r : List Byte} {bits : Bits} (h : enc code (b :: r) = some bits) :
    CodeTable.get code b ≠ [] ∧ ∃ t, enc code r = some t ∧ bits = CodeTable.get code b ++ t := by
  simp only [enc] at h
  split at h
  · cases h
  · rename_i hb
    split at h
    · cases h; exact ⟨by simpa using hb, _, ‹_›, rfl⟩
    · cases h

/-! ## decode -/

/-- The errors `decode` can end in (43_prefix_decoder.md R140). -/
theorem decodeLoop_error {code : CodeTable} {longest cap : Nat} {bits buf : Bits} {out : List Byte} {e : ErrCode}
    (h : decodeLoop code longest cap bits buf out = .error e) :
    e = .truncatedStream ∨ e = .dstOverflow ∨ e = .malformedArchive .unmatched := by
  induction bits generalizing buf out with
  | nil =>
    simp only [decodeLoop] at h
    split at h
    · cases h
    · cases h; simp
  | cons x t ih =>
    simp only [decodeLoop] at h
    split at h
    · split at h
      · cases h; simp
      · exact ih h
    · split at h
      · cases h; simp
      · exact ih h

theorem decodeBits_error {code : CodeTable} {cap : Nat} {bits : Bits} {e : ErrCode}
    (h : decodeBits bits code cap = .error e) :
    e = .truncatedStream ∨ e = .dstOverflow ∨ e = .malformedArchive .unmatched := decodeLoop_error h

/-- Output already made takes its part of the capacity and stands before what is still to come. -/
theorem decodeLoop_prepend (code : CodeTable) (longest : Nat) (pre : List Byte) (bits : Bits) :
    ∀ (cap : Nat) (buf : Bits) (out : List Byte),
      decodeLoop code longest (pre.length + cap) bits buf (pre ++ out) =
        (decodeLoop code longest cap bits buf out).map (pre ++ ·) := by
  induction bits with
  | nil => intro cap buf out; simp only [decodeLoop]; split <;> rfl
  | cons x r ih =>
    intro cap buf out
    simp only [decodeLoop]
    cases code.lookup (buf ++ [x]) with
    | none => simp only; split; exacts [rfl, ih cap _ out]
    | some a =>
      simp only [List.length_append, Nat.add_left_cancel_iff]
      split
      · rfl
      · rw [← ih cap [] (out ++ [a]), List.append_assoc]

/-- While no buffer matches and none reaches MAXLEN bits, the loop collects bits (43_prefix_decoder.md R140). -/
theorem decodeLoop_collect {code : CodeTable} {longest cap : Nat} (q : Bits) :
    ∀ (buf rest : Bits) (out : List Byte),
      (∀ k, 1 ≤ k → k ≤ q.length → code.lookup (buf ++ q.take k) = none) → buf.length + q.length < longest →
      decodeLoop code longest cap (q ++ rest) buf out = decodeLoop code longest cap rest (buf ++ q) out := by
  induction q with
  | nil => intro buf rest out _ _; simp
  | cons x r ih =>
    intro buf rest out h hl
    have h1 := h 1 (Nat.le_refl 1) (by simp)
    simp only [List.length_cons] at hl
    simp only [List.take_succ_cons, List.take_zero] at h1
    rw [List.cons_append, decodeLoop, h1]
    simp only
    rw [if_neg (by simp; omega), ih (buf ++ [x]) rest out _ (by simp; omega)]
    · simp
    · intro k hk hk'
      have := h (k + 1) (by omega) (by simp; omega)
      simpa using this

theorem CodeTable.lookup_eq_none {c : CodeTable} {b : Bits} (h : ∀ a : Byte, CodeTable.get c a ≠ b) :
    CodeTable.lookup c b = none := by
  cases hl : CodeTable.lookup c b with
  | none => rfl
  | some a => exact absurd (CodeTable.get_of_lookup hl) (h a)

/-- The length of the longest code bounds every code (10_state.md R39). -/
theorem length_get_le_maxLen (code : CodeTable) (a : Byte) : (CodeTable.get code a).length ≤ maxLen code := by
  have mono : ∀ (l : List Bits) (m : Nat), m ≤ l.foldl (fun m b => max m b.length) m := by
    intro l; induction l with
    | nil => intro m; exact Nat.le_refl _
    | cons x r ih => intro m; exact Nat.le_trans (Nat.le_max_left _ _) (ih _)
  have : ∀ (l : List Bits) (m : Nat) (b : Bits), b ∈ l → b.length ≤ l.foldl (fun m b => max m b.length) m := by
    intro l; induction l with
    | nil => intro m b h; simp at h
    | cons x r ih =>
      intro m b h
      rcases List.mem_cons.1 h with rfl | h
      · exact Nat.le_trans (Nat.le_max_right _ _) (mono _ _)
      · exact ih _ _ h
  exact this _ 0 _ (by simp [CodeTable.get])

/-! ## Lines -/

theorem Term.bytes_ne_nil (t : Term) : t.bytes ≠ [] := by cases t <;> simp

/-- A line whose content holds no LF ends at the terminator written after it (42_archive_codec.md R128). -/
theorem splitAtTerm_line (t : Term) (x rest : List Byte) (h : ∀ b ∈ x, b ≠ chLF) :
    splitAtTerm t.bytes (x ++ t.bytes ++ rest) = some (x, rest) := by
  induction x with
  | nil => cases t <;> simp [Term.bytes, splitAtTerm, List.isPrefixOf]
  | cons b r ih =>
    have ih := ih (fun b hb => h b (by simp [hb]))
    have hb := h b (by simp)
    simp only [List.cons_append, splitAtTerm]
    rw [ih, if_neg]
    cases t
    · simp [Term.bytes, List.isPrefixOf, Ne.symm hb]
    · cases r with
      | nil => simp [Term.bytes, List.isPrefixOf]; intro _; decide
      | cons c q =>
        have hc := h c (by simp)
        simp [Term.bytes, List.isPrefixOf, Ne.symm hc]

/-- What a split yields is the region again. -/
theorem eq_of_splitAtTerm {t x y : List Byte} (s : List Byte) (h : splitAtTerm t s = some (x, y)) : s = x ++ t ++ y := by
  induction s generalizing x y with
  | nil => simp [splitAtTerm] at h
  | cons b r ih =>
    simp only [splitAtTerm] at h
    split at h
    · rename_i hp
      obtain ⟨q, hq⟩ := List.isPrefixOf_iff_prefix.1 hp
      cases h
      rw [← hq]; simp
    · split at h
      · rename_i c rest hh
        cases h
        rw [ih hh]; simp
      · cases h

/-! ## Registration -/

/-- A registration succeeds for a code of at most 255 bits, a new symbol and a new code (42_archive_codec.md R132). -/
theorem register_ok {w : Entries} {s : Byte} {c : Bits} (h : c.length ≤ 255) (h1 : ∀ e ∈ w, e.1 ≠ s)
    (h2 : ∀ e ∈ w, e.2 ≠ c) : register w s c = .ok (w ++ [(s, c)]) := by
  simp only [register]
  rw [if_neg (by omega), if_neg (by simp only [List.any_eq_true, beq_iff_eq, not_exists, not_and]; exact h1),
    if_neg (by simp only [List.any_eq_true, beq_iff_eq, not_exists, not_and]; exact h2)]

/-- And only then. -/
theorem register_ok_iff {w w' : Entries} {s : Byte} {c : Bits} :
    register w s c = .ok w' ↔
      c.length ≤ 255 ∧ (∀ e ∈ w, e.1 ≠ s) ∧ (∀ e ∈ w, e.2 ≠ c) ∧ w' = w ++ [(s, c)] := by
  constructor
  · intro h
    simp only [register] at h
    split at h
    · cases h
    · split at h
      · cases h
      · split at h
        · cases h
        · cases h
          rename_i h1 h2 h3
          simp only [List.any_eq_true, beq_iff_eq, not_exists, not_and] at h2 h3
          exact ⟨by omega, h2, h3, rfl⟩
  · rintro ⟨h, h1, h2, rfl⟩; exact register_ok h h1 h2

theorem register_error {w : Entries} {s : Byte} {c : Bits} {k : SubCause} (h : register w s c = .error k) :
    k = .codeTooLong ∨ k = .dupSymbol ∨ k = .dupCode := by
  simp only [register] at h
  (repeat' split at h) <;> cases h <;> simp

theorem CodeTable.ofEntries_concat (w : Entries) (e : Byte × Bits) :
    CodeTable.ofEntries (w ++ [e]) = (CodeTable.ofEntries w).put e.1 e.2 := by simp [CodeTable.ofEntries]

end Sys2Proof.Machine
end

