-- ==== Sys2Proof/Laws/Memory.lean ====
section
/-! SUPPORT. The laws of DMEM: a read after a write of the same byte gives the byte, a write leaves every other byte
alone, and every operation keeps the canonical form. -/

namespace Sys2Proof.Machine

theorem Memory.lookup_insert_same (a : Nat) (v : Byte) (l : List Host.Cell) :
    Memory.lookup (Memory.insert a v l) a = some v := by
  induction l with
  | nil => simp [Memory.insert, Memory.lookup]
  | cons c r ih =>
    obtain ⟨k, w⟩ := c
    simp only [Memory.insert]
    split
    · simp [Memory.lookup]
    · split
      · simp [Memory.lookup]
      · have : k ≠ a := fun h => by omega
        simp [Memory.lookup, this, ih]

theorem Memory.lookup_insert_ne {a b : Nat} (h : b ≠ a) (v : Byte) (l : List Host.Cell) :
    Memory.lookup (Memory.insert a v l) b = Memory.lookup l b := by
  induction l with
  | nil => simp [Memory.insert, Memory.lookup, h.symm]
  | cons c r ih =>
    obtain ⟨k, w⟩ := c
    simp only [Memory.insert]
    split
    · simp [Memory.lookup, h.symm]
    · split
      · subst_vars; simp [Memory.lookup, h.symm]
      · simp [Memory.lookup, ih]

@[simp] theorem Memory.read_write_same (m : Memory) (a : Nat) (v : Byte) : (m.write a v).read a = v := by
  simp [Memory.read, Memory.write, Memory.lookup_insert_same]

theorem Memory.read_write_ne (m : Memory) {a b : Nat} (h : b ≠ a) (v : Byte) :
    (m.write a v).read b = m.read b := by
  simp [Memory.read, Memory.write, Memory.lookup_insert_ne h]

theorem Memory.read_writeBytes_outside (w : List Byte) (m : Memory) (a b : Nat) (h : ¬(a ≤ b ∧ b < a + w.length)) :
    (m.writeBytes a w).read b = m.read b := by
  induction w generalizing m a with
  | nil => rfl
  | cons v r ih =>
    simp only [List.length_cons] at h
    rw [Memory.writeBytes, ih _ _ (by omega), Memory.read_write_ne _ (by omega)]

theorem Memory.read_writeBytes_inside (w : List Byte) (m : Memory) (a i : Nat) (h : i < w.length) :
    (m.writeBytes a w).read (a + i) = w[i] := by
  induction w generalizing m a i with
  | nil => simp at h
  | cons v r ih =>
    rw [Memory.writeBytes]
    cases i with
    | zero => rw [Memory.read_writeBytes_outside _ _ _ _ (by omega)]; simp
    | succ j =>
      have := ih (m.write a v) (a + 1) j (by simpa using h)
      simpa [Nat.add_assoc, Nat.add_comm 1] using this

theorem Memory.mem_insert {a : Nat} {v : Byte} {l : List Host.Cell} {c : Host.Cell} (h : c ∈ Memory.insert a v l) :
    c = (a, v) ∨ c ∈ l := by
  induction l with
  | nil => simpa [Memory.insert] using h
  | cons x r ih =>
    obtain ⟨k, w⟩ := x
    simp only [Memory.insert] at h
    split at h
    · simpa using h
    · split at h
      · simp only [List.mem_cons] at h ⊢; tauto
      · simp only [List.mem_cons] at h ⊢; rcases h with h | h
        · tauto
        · have := ih h; tauto

theorem Memory.insert_rising (a : Nat) (v : Byte) (l : List Host.Cell) (h : (l.map Prod.fst).Pairwise (· < ·)) :
    ((Memory.insert a v l).map Prod.fst).Pairwise (· < ·) := by
  induction l with
  | nil => simp [Memory.insert]
  | cons x r ih =>
    obtain ⟨k, w⟩ := x
    simp only [List.map_cons, List.pairwise_cons, List.mem_map, forall_exists_index, and_imp] at h
    simp only [Memory.insert]
    split
    · rename_i hak
      simp only [List.map_cons, List.pairwise_cons, List.mem_cons, List.mem_map]
      refine ⟨?_, ⟨fun y hy => ?_, h.2⟩⟩
      · rintro y (rfl | ⟨c, hc, rfl⟩)
        · exact hak
        · exact lt_trans hak (h.1 _ c hc rfl)
      · obtain ⟨c, hc, rfl⟩ := hy; exact h.1 _ c hc rfl
    · split
      · subst_vars
        simp only [List.map_cons, List.pairwise_cons, List.mem_map]
        exact ⟨fun y ⟨c, hc, e⟩ => h.1 _ c hc e, h.2⟩
      · rename_i h1 h2
        simp only [List.map_cons, List.pairwise_cons, List.mem_map]
        refine ⟨fun y ⟨c, hc, e⟩ => ?_, ih h.2⟩
        rcases Memory.mem_insert hc with rfl | hc
        · subst e; simp only; omega
        · exact h.1 _ c hc e

theorem Memory.write_wf {n : Nat} {m : Memory} (h : Memory.wf n m) {a : Nat} (ha : a < n) (v : Byte) :
    Memory.wf n (m.write a v) := by
  refine ⟨Memory.insert_rising a v m.cells h.1, fun c hc => ?_⟩
  rcases Memory.mem_insert hc with rfl | hc
  · exact ha
  · exact h.2 c hc

theorem Memory.writeBytes_wf {n : Nat} (w : List Byte) {m : Memory} (h : Memory.wf n m) {a : Nat}
    (ha : w = [] ∨ a + w.length ≤ n) : Memory.wf n (m.writeBytes a w) := by
  induction w generalizing m a with
  | nil => exact h
  | cons v r ih =>
    have ha : a + (r.length + 1) ≤ n := by simpa using ha
    exact ih (Memory.write_wf h (by omega) v) (by omega)

theorem Memory.powerOn_wf (n : Nat) (m : Memory) : Memory.wf n m.powerOn := by simp [Memory.powerOn, Memory.wf]

theorem Memory.scramble_wf {n : Nat} {m : Memory} (h : Memory.wf n m) (d : Nat) (w : Window) :
    Memory.wf n (m.scramble d n w) := by
  apply Memory.writeBytes_wf _ h
  by_cases hb : w.base < n
  · right; simp only [List.length_map, List.length_range]; omega
  · left; simp [Nat.sub_eq_zero_of_le (Nat.le_of_not_lt hb)]

theorem Memory.read_scramble_outside (m : Memory) (d n : Nat) (w : Window) {b : Nat} (h : ¬ w.Contains b) :
    (m.scramble d n w).read b = m.read b := by
  apply Memory.read_writeBytes_outside
  simp only [List.length_map, List.length_range]
  intro ⟨h1, h2⟩
  exact h ⟨h1, by omega⟩

end Sys2Proof.Machine
end

