-- ==== Sys2Proof/Laws/Parser.lean ====
section
/-! SUPPORT. The parser line by line: where a region is split, what each line's function answers for each form of content,
and that the ordinary lines do not depend on the fuel. -/

namespace Sys2Proof.Machine

/-! ## Lines (42_archive_codec.md R128) -/

theorem splitAtTerm_eq_none {t : List Byte} (s : List Byte) (ht : t ≠ []) : splitAtTerm t s = none ↔ ¬ t <:+: s := by
  induction s with
  | nil => simp [splitAtTerm, ht]
  | cons b r ih =>
    simp only [splitAtTerm, List.infix_cons_iff]
    split
    · rename_i hp
      rw [List.isPrefixOf_iff_prefix] at hp
      simp [hp]
    · rename_i hp
      rw [List.isPrefixOf_iff_prefix] at hp
      simp only [hp, false_or]
      rw [← ih]
      split <;> simp_all

/-- A content without a terminator ends at the terminator written after it: no terminator overlaps another. -/
theorem splitAtTerm_first (t : Term) (c rest : List Byte) (h : ¬ t.bytes <:+: c) :
    splitAtTerm t.bytes (c ++ t.bytes ++ rest) = some (c, rest) := by
  induction c with
  | nil => cases t <;> simp [Term.bytes, splitAtTerm, List.isPrefixOf]
  | cons b r ih =>
    simp only [List.infix_cons_iff, not_or] at h
    simp only [List.cons_append, splitAtTerm]
    rw [if_neg, ih h.2]
    rw [List.isPrefixOf_iff_prefix]
    intro hp
    apply h.1
    cases t
    · simpa [Term.bytes] using hp
    · cases r with
      | nil => exfalso; revert hp; simp only [Term.bytes, chCR, chLF]; simp
      | cons x q => simpa [Term.bytes] using hp

theorem splitAtTerm_content {t c rest : List Byte} (s : List Byte) (h : splitAtTerm t s = some (c, rest)) :
    t ≠ [] → ¬ t <:+: c := by
  intro ht
  induction s generalizing c rest with
  | nil => simp [splitAtTerm] at h
  | cons b r ih =>
    simp only [splitAtTerm] at h
    split at h
    · cases h; simpa using ht
    · rename_i hp
      rw [List.isPrefixOf_iff_prefix] at hp
      split at h
      · rename_i c' rest' hh
        cases h
        simp only [List.infix_cons_iff, not_or]
        refine ⟨fun hq => hp ?_, ih hh⟩
        refine hq.trans ?_
        rw [eq_of_splitAtTerm r hh]
        simp
      · cases h

theorem readLine_of_readsLine {t : Term} {region c rest : List Byte} (h : ReadsLine t.bytes region c rest) :
    readLine t.bytes region = (c, rest) := by
  obtain ⟨-, hc, rfl | ⟨rfl, rfl⟩⟩ := h
  · rw [readLine, splitAtTerm_first t c rest hc]; rfl
  · rw [readLine, (splitAtTerm_eq_none _ t.bytes_ne_nil).2 hc]; rfl

/-- Every region that is not empty has a next line. -/
theorem exists_readsLine (t : Term) {region : List Byte} (h : region ≠ []) :
    ∃ c rest, ReadsLine t.bytes region c rest := by
  cases hs : splitAtTerm t.bytes region with
  | none => exact ⟨region, [], h, (splitAtTerm_eq_none _ t.bytes_ne_nil).1 hs, .inr ⟨rfl, rfl⟩⟩
  | some p =>
    obtain ⟨c, rest⟩ := p
    exact ⟨c, rest, h, splitAtTerm_content _ hs t.bytes_ne_nil, .inl (eq_of_splitAtTerm _ hs)⟩

/-- A line takes at least one byte of the region. -/
theorem ReadsLine.rest_lt {t : Term} {region c rest : List Byte} (h : ReadsLine t.bytes region c rest) :
    rest.length < region.length := by
  have ht : 0 < t.bytes.length := List.length_pos_iff.2 t.bytes_ne_nil
  obtain ⟨hr, -, rfl | ⟨rfl, rfl⟩⟩ := h
  · simp only [List.length_append]; omega
  · exact List.length_pos_iff.2 hr

/-! ## The contents of the lines (42_archive_codec.md R129 to R131) -/

theorem takeWhile_dropWhile_append {p : Byte → Bool} {x : List Byte} (y : List Byte) (h : x.all p = true)
    (hy : ∀ b ∈ y.head?, p b = false) : (x ++ y).takeWhile p = x ∧ (x ++ y).dropWhile p = y := by
  have hx : ∀ a ∈ x, p a = true := List.all_eq_true.1 h
  rw [List.takeWhile_append_of_pos hx, List.dropWhile_append_of_pos hx]
  cases y with
  | nil => simp
  | cons b r =>
    have : p b = false := hy b (by simp)
    simp [this]

theorem isNumber_iff (d : List Byte) : isNumber d = true ↔ IsNumber d := by
  simp only [isNumber, IsNumber, Bool.and_eq_true, decide_eq_true_eq, List.all_eq_true, isDigit, BitVec.le_def]
  simp only [and_assoc]; rfl

/-- Bit characters are the ASCII of the bits they spell. -/
theorem ascii_bitsOfAscii {s : List Byte} (h : s.all isBitChar = true) : ascii (bitsOfAscii s) = s := by
  induction s with
  | nil => rfl
  | cons b r ih =>
    simp only [List.all_cons, Bool.and_eq_true] at h
    have hr := ih h.2
    have : b = ch0 ∨ b = ch1 := by simpa [isBitChar] using h.1
    simp only [bitsOfAscii, ascii, List.map_cons, List.map_map] at hr ⊢
    rw [hr]
    rcases this with rfl | rfl <;> rfl

theorem exists_ascii_iff {s : List Byte} : (∃ b : Bits, s = ascii b) ↔ s.all isBitChar = true :=
  ⟨fun ⟨b, h⟩ => h ▸ ascii_all_isBitChar b, fun h => ⟨_, (ascii_bitsOfAscii h).symm⟩⟩

theorem ascii_eq_nil {b : Bits} : ascii b = [] ↔ b = [] := by simp [ascii]

theorem parseLine1_number {d1 d2 : List Byte} (h1 : IsNumber d1) (h2 : IsNumber d2) :
    parseLine1 (d1 ++ [chSP] ++ d2) = some (decVal d1, decVal d2) := by
  have g1 := (isNumber_iff d1).2 h1
  have hd : d1.all isDigit = true := by simp only [isNumber, Bool.and_eq_true] at g1; exact g1.1.2
  obtain ⟨a, b⟩ := takeWhile_dropWhile_append (chSP :: d2) hd (by simp; decide)
  have e : d1 ++ [chSP] ++ d2 = d1 ++ chSP :: d2 := by simp
  simp only [parseLine1, e, a, b, g1, (isNumber_iff d2).2 h2]
  simp

/-- Line 1 has no other form. -/
theorem parseLine1_some {c : List Byte} {m n : Nat} (h : parseLine1 c = some (m, n)) :
    ∃ d1 d2, IsNumber d1 ∧ IsNumber d2 ∧ c = d1 ++ [chSP] ++ d2 ∧ m = decVal d1 ∧ n = decVal d2 := by
  simp only [parseLine1] at h
  split at h
  · cases h
  · rename_i b d2 hd
    split at h
    · rename_i hc
      cases h
      refine ⟨c.takeWhile isDigit, d2, (isNumber_iff _).1 hc.2.1, (isNumber_iff _).1 hc.2.2, ?_, rfl, rfl⟩
      have := List.takeWhile_append_dropWhile (p := isDigit) (l := c)
      rw [hd, hc.1] at this
      rw [List.append_assoc]; exact this.symm
    · cases h

/-- Line 2 of one field (42_archive_codec.md R130). -/
theorem parseLine2_one (f : Bits) :
    parseLine2 (ascii f) = if 255 < f.length then .error .codeTooLong else .ok (if f = [] then [] else [(chLF, f)]) := by
  obtain ⟨a, b⟩ := takeWhile_dropWhile_append [] (ascii_all_isBitChar f) (by simp)
  rw [List.append_nil] at a b
  simp only [parseLine2, a, b, ascii_length, bitsOfAscii_ascii]
  cases f <;> simp [register]

/-- Line 2 of two fields. -/
theorem parseLine2_two (f g : Bits) :
    parseLine2 (ascii f ++ [chSP] ++ ascii g) =
      if 255 < f.length then .error .codeTooLong
      else if g = [] then .error .emptyCode
      else register (if f = [] then [] else [(chLF, f)]) chCR g := by
  have e : ascii f ++ [chSP] ++ ascii g = ascii f ++ chSP :: ascii g := by simp
  obtain ⟨a, b⟩ := takeWhile_dropWhile_append (chSP :: ascii g) (ascii_all_isBitChar f) (by simp; decide)
  simp only [parseLine2, e, a, b, ascii_length, bitsOfAscii_ascii, ascii_all_isBitChar]
  cases f with
  | nil => cases g <;> simp
  | cons x r =>
    by_cases h : 255 < (x :: r).length
    · have : 255 < r.length + 1 := h
      simp [register, this]
    · have : ¬ 255 < r.length + 1 := h
      cases g <;> simp [register, this]

/-- Line 2 of any other content. -/
theorem parseLine2_other {c : List Byte} (h1 : ¬ ∃ f : Bits, c = ascii f)
    (h2 : ¬ ∃ f g : Bits, c = ascii f ++ [chSP] ++ ascii g) : parseLine2 c = .error .line2Syntax := by
  have hc := List.takeWhile_append_dropWhile (p := isBitChar) (l := c)
  have ht : (c.takeWhile isBitChar).all isBitChar = true :=
    List.all_eq_true.2 fun x hx => List.mem_takeWhile_imp hx
  simp only [parseLine2]
  split
  · rename_i hd
    rw [hd, List.append_nil] at hc
    exact absurd (exists_ascii_iff.2 (hc ▸ ht)) h1
  · rename_i b r hd
    rw [if_neg]
    rintro ⟨rfl, hr⟩
    obtain ⟨f, hf⟩ := exists_ascii_iff.2 ht
    obtain ⟨g, hg⟩ := exists_ascii_iff.2 hr
    refine h2 ⟨f, g, ?_⟩
    rw [← hf, ← hg, List.append_assoc, List.singleton_append, ← hd, hc]

/-- An ordinary line (42_archive_codec.md R131). -/
theorem parseSymbolLine_code {b : Byte} (p : Bits) (w : Entries) (h1 : b ≠ chLF) (h2 : b ≠ chCR) :
    parseSymbolLine ([b, chColon, chSP] ++ ascii p) w = if p = [] then .error .emptyCode else register w b p := by
  simp only [parseSymbolLine, List.cons_append, List.nil_append, ascii_all_isBitChar, bitsOfAscii_ascii, ascii_length]
  rw [if_pos ⟨trivial, trivial, h1, h2, trivial⟩]
  cases p <;> simp

/-- An ordinary line of any other form. -/
theorem parseSymbolLine_other {c : List Byte} (w : Entries)
    (h : ¬ ∃ (b : Byte) (p : Bits), b ≠ chLF ∧ b ≠ chCR ∧ c = [b, chColon, chSP] ++ ascii p) :
    parseSymbolLine c w = .error .lineSyntax := by
  simp only [parseSymbolLine]
  split
  · rename_i b x y r
    rw [if_neg]
    rintro ⟨rfl, rfl, h1, h2, hr⟩
    exact h ⟨b, bitsOfAscii r, h1, h2, by rw [ascii_bitsOfAscii hr]; rfl⟩
  · rfl

/-! ## The lines one after the other -/

theorem parseLines_nil (t : List Byte) (n : Nat) (w : Entries) : parseLines t n [] w = .error .noSentinel := by
  cases n <;> simp [parseLines]

/-- One ordinary line read (42_archive_codec.md R131). -/
theorem parseLines_line {t : Term} {region c rest : List Byte} (h : ReadsLine t.bytes region c rest) (n : Nat)
    (w : Entries) :
    parseLines t.bytes (n + 1) region w =
      if c = sentinel then .ok w
      else match parseSymbolLine c w with
        | .error k => .error k
        | .ok w' => parseLines t.bytes n rest w' := by
  have : region.length ≠ 0 := by simpa using h.1
  rw [parseLines]
  simp only [if_neg this, readLine_of_readsLine h]
  all_goals (split <;> first | rfl | (cases parseSymbolLine c w <;> rfl))

/-- The fuel does not matter once it is the length of the region. -/
theorem parseLines_fuel (t : Term) (n : Nat) {region : List Byte} (w : Entries) (h : region.length ≤ n) :
    parseLines t.bytes n region w = parseOrdinary t.bytes region w := by
  suffices key : ∀ (n m : Nat) (region : List Byte) (w : Entries), region.length ≤ n → region.length ≤ m →
      parseLines t.bytes n region w = parseLines t.bytes m region w from key n _ region w h (Nat.le_refl _)
  intro n
  induction n with
  | zero =>
    intro m region w h1 _
    obtain rfl : region = [] := List.length_eq_zero_iff.1 (by omega)
    simp only [parseLines_nil]
  | succ n ih =>
    intro m region w h1 h2
    by_cases hr : region = []
    · subst hr; simp only [parseLines_nil]
    · obtain ⟨c, rest, hl⟩ := exists_readsLine t hr
      have := hl.rest_lt
      obtain ⟨m, rfl⟩ : ∃ k, m = k + 1 := ⟨m - 1, by omega⟩
      rw [parseLines_line hl, parseLines_line hl]
      cases parseSymbolLine c w with
      | error k => rfl
      | ok w' => simp only; rw [ih m rest w' (by omega) (by omega)]

theorem parseOrdinary_nil (t : List Byte) (w : Entries) : parseOrdinary t [] w = .error .noSentinel := parseLines_nil ..

theorem parseOrdinary_line {t : Term} {region c rest : List Byte} (h : ReadsLine t.bytes region c rest) (w : Entries) :
    parseOrdinary t.bytes region w =
      if c = sentinel then .ok w
      else match parseSymbolLine c w with
        | .error k => .error k
        | .ok w' => parseOrdinary t.bytes rest w' := by
  have := h.rest_lt
  obtain ⟨n, hn⟩ : ∃ n, region.length = n + 1 := ⟨region.length - 1, by omega⟩
  rw [parseOrdinary, hn, parseLines_line h]
  cases parseSymbolLine c w with
  | error k => rfl
  | ok w' => simp only; rw [parseLines_fuel t n w' (by omega)]

theorem parseRegion_line {t : Term} {region c rest : List Byte} (h : ReadsLine t.bytes region c rest) :
    parseRegion t.bytes region =
      match parseLine2 c with
      | .error k => .error k
      | .ok w => parseOrdinary t.bytes rest w := by
  have : region.length ≠ 0 := by simpa using h.1
  simp only [parseRegion, if_neg this, readLine_of_readsLine h]
  all_goals (cases parseLine2 c <;> rfl)

end Sys2Proof.Machine
end

