-- ==== Sys2Proof/Laws/PerInstr.lean ====
section
/-! SUPPORT. One law for every instruction, made per constructor: its command word is legal (30_encoding.md R86). -/

namespace Sys2Proof.Laws.LegalWord

/-- The instruction's word has RSVD = 0 and an opcode below 0x0E, and is the word of its opcode. -/
def Statement (i : Instr) : Prop :=
  CommandWord.wf (CommandWord.ofWord (encode i)) = true ∧ (CommandWord.ofWord (encode i)).op = i.opcode

theorem nop : Statement .nop := by unfold Statement; decide
theorem scan : Statement .scan := by unfold Statement; decide
theorem build : Statement .build := by unfold Statement; decide
theorem assign : Statement .assign := by unfold Statement; decide
theorem measure : Statement .measure := by unfold Statement; decide
theorem encode : Statement .encode := by unfold Statement; decide
theorem pack : Statement .pack := by unfold Statement; decide
theorem packBits : Statement .packBits := by unfold Statement; decide
theorem unpackBits : Statement .unpackBits := by unfold Statement; decide
theorem decodeBody : Statement .decodeBody := by unfold Statement; decide
theorem parse : Statement .parse := by unfold Statement; decide
theorem decompress : Statement .decompress := by unfold Statement; decide
theorem compress : Statement .compress := by unfold Statement; decide
theorem clear : Statement .clear := by unfold Statement; decide

end Sys2Proof.Laws.LegalWord
end

