-- ==== Sys2Proof/Laws/Step.lean ====
section
/-! SUPPORT. What a step can do, said once, and the lemmas of the host's turn. -/

namespace Sys2Proof.Machine

/-- Every outcome of a step that goes on: the host's turn, the meaning of a legal command settled, the completion of an
illegal word settled, or a turn of waiting. -/
theorem step_cases {s t : State} (h : step s = .next t) :
    (s.flight = none ∧ t = s.hostTurn) ∨
    (∃ raced i u, s.flight = some ⟨0, raced⟩ ∧ decode s.cmd = .ok i ∧ exec i s = .next u ∧
      t = u.settle raced (writeSetOf i)) ∨
    (∃ raced e, s.flight = some ⟨0, raced⟩ ∧ decode s.cmd = .error e ∧
      t = s.illegalCommand.settle raced WriteSet.illegal) ∨
    (∃ d raced, s.flight = some ⟨d + 1, raced⟩ ∧ t = s.waitTurn d raced) := by
  simp only [step] at h
  split at h
  · exact .inl ⟨‹_›, (Host.Outcome.next.inj h).symm⟩
  · rename_i raced hf
    right
    simp only [complete] at h
    split at h
    · rename_i i hd
      left
      cases hx : exec i s with
      | next u =>
        rw [hx] at h
        exact ⟨raced, i, u, hf, hd, hx, (Host.Outcome.next.inj h).symm⟩
      | fault r => rw [hx] at h; cases h
      | refused r => rw [hx] at h; cases h
    · rename_i e hd
      right; left
      exact ⟨raced, e, hf, hd, (Host.Outcome.next.inj h).symm⟩
  · rename_i d raced hf
    exact .inr (.inr (.inr ⟨d, raced, hf, (Host.Outcome.next.inj h).symm⟩))

/-- What a turn of the host can do: nothing, one access and go on, or one poll that does not end. -/
theorem hostTurn_cases (s : State) :
    (s.host = [] ∧ s.hostTurn = s) ∨
    (∃ x rest, s.host = x :: rest ∧ s.hostTurn = { s.access x with host := rest }) ∨
    (∃ rest, s.host = .poll :: rest ∧ s.pollEnds = false ∧ s.hostTurn = s.access .poll) := by
  simp only [State.hostTurn]
  split
  · exact .inl ⟨‹_›, rfl⟩
  · rename_i rest hh
    split
    · exact .inr (.inl ⟨_, _, hh, rfl⟩)
    · rename_i hp
      exact .inr (.inr ⟨rest, hh, by simpa using hp, rfl⟩)
  · rename_i x rest hx hh
    exact .inr (.inl ⟨x, rest, hh, rfl⟩)

/-- A turn with an access pending performs the first and drops it (20_memory.md R69). -/
theorem hostTurn_cons {s : State} {x : HostAction} {rest : List HostAction} (h : s.host = x :: rest) (hx : x ≠ .poll) :
    s.hostTurn = { s.access x with host := rest } := by
  simp only [State.hostTurn, h]

/-- Settling a command that was not raced changes nothing. -/
@[simp] theorem State.settle_false (w : WriteSet) (s : State) : s.settle false w = s := rfl

@[simp] theorem State.settle_true (w : WriteSet) (s : State) : s.settle true w = s.scramble w := rfl

/-- What settling leaves alone (20_memory.md R72): all that no command writes. -/
theorem State.scramble_keeps (w : WriteSet) (s : State) :
    (s.scramble w).cfg = s.cfg ∧ (s.scramble w).ctrl = s.ctrl ∧ (s.scramble w).cmd = s.cmd ∧
    (s.scramble w).params = s.params ∧ (s.scramble w).sel = s.sel ∧ (s.scramble w).nodeSel = s.nodeSel ∧
    (s.scramble w).flight = s.flight ∧ (s.scramble w).recorded = s.recorded ∧ (s.scramble w).host = s.host ∧
    (s.scramble w).status.done = s.status.done ∧ (s.scramble w).status.overrun = s.status.overrun :=
  ⟨rfl, rfl, rfl, rfl, rfl, rfl, rfl, rfl, rfl, rfl, rfl⟩

/-- What settling leaves alone because the write set does not name it (20_memory.md R72, 30_encoding.md R83). -/
theorem State.scramble_unnamed (w : WriteSet) (s : State) :
    (w.freq = false → (s.scramble w).freq = s.freq) ∧ (w.nodes = false → (s.scramble w).nodes = s.nodes) ∧
    (w.code = false → (s.scramble w).code = s.code) ∧ (w.dst = false → (s.scramble w).mem = s.mem) ∧
    (w.len = false → (s.scramble w).res.len = s.res.len) ∧
    (w.body = false → (s.scramble w).res.body = s.res.body ∧ (s.scramble w).res.pad = s.res.pad) ∧
    (w.arch = false → (s.scramble w).res.hdr = s.res.hdr ∧ (s.scramble w).res.arch = s.res.arch) ∧
    (w.bits = false → (s.scramble w).res.bits = s.res.bits) ∧
    (w.err = false → (s.scramble w).status.err = s.status.err ∧ (s.scramble w).status.errCode = s.status.errCode ∧
      (s.scramble w).status.errInfo = s.status.errInfo) ∧
    (w.notcomp = false → (s.scramble w).status.notcomp = s.status.notcomp) := by
  refine ⟨?_, ?_, ?_, ?_, ?_, ?_, ?_, ?_, ?_, ?_⟩ <;> intro h <;> simp [State.scramble, h]

/-- The same of settling. -/
theorem State.settle_keeps (r : Bool) (w : WriteSet) (s : State) :
    (s.settle r w).cfg = s.cfg ∧ (s.settle r w).ctrl = s.ctrl ∧ (s.settle r w).cmd = s.cmd ∧
    (s.settle r w).params = s.params ∧ (s.settle r w).sel = s.sel ∧ (s.settle r w).nodeSel = s.nodeSel ∧
    (s.settle r w).flight = s.flight ∧ (s.settle r w).recorded = s.recorded ∧ (s.settle r w).host = s.host ∧
    (s.settle r w).status.done = s.status.done ∧ (s.settle r w).status.overrun = s.status.overrun := by
  cases r
  · exact ⟨rfl, rfl, rfl, rfl, rfl, rfl, rfl, rfl, rfl, rfl, rfl⟩
  · exact State.scramble_keeps w s

/-- A register read changes what the host last read, and the count of draws, alone. -/
theorem State.regRead_cases (s : State) (o : BitVec 8) :
    ∃ v n, s.regRead o = { s with readData := v, draws := n } := by
  simp only [State.regRead]
  split
  · exact ⟨_, s.draws, rfl⟩
  · split
    · exact ⟨_, _, rfl⟩
    · exact ⟨_, s.draws, rfl⟩

/-- So does a DMEM read. -/
theorem State.memRead_cases (s : State) (a : Nat) : ∃ v n, s.memRead a = { s with readData := v, draws := n } := by
  simp only [State.memRead]
  split
  · exact ⟨_, s.draws, rfl⟩
  · split
    · exact ⟨_, _, rfl⟩
    · exact ⟨_, s.draws, rfl⟩

/-- What a host DMEM write can do: nothing, a write, or a write that races with the command in flight. -/
theorem State.memWrite_cases (s : State) (a : Nat) (v : Byte) :
    s.memWrite a v = s ∨
    (a < s.cfg.memBytes ∧ s.memWrite a v = { s with mem := s.mem.write a v }) ∨
    (a < s.cfg.memBytes ∧ ∃ f, s.flight = some f ∧ (s.srcWin.Contains a ∨ s.dstWin.Contains a) ∧
      s.memWrite a v = { s with
        mem := s.mem.write a v, flight := some { f with raced := true }, recorded := some .hostRace }) := by
  simp only [State.memWrite]
  split
  · exact .inl rfl
  · rename_i h
    right
    split
    · exact .inl ⟨by omega, rfl⟩
    · rename_i f hf
      split
      · exact .inr ⟨by omega, f, hf, ‹_›, rfl⟩
      · exact .inl ⟨by omega, rfl⟩

/-- No access of the host changes the parameters of the block or the host's pending accesses. -/
theorem State.access_keeps (x : HostAction) (s : State) : (s.access x).cfg = s.cfg ∧ (s.access x).host = s.host := by
  cases x <;> simp only [State.access]
  case regRead o => obtain ⟨v, n, h⟩ := s.regRead_cases o; rw [h]; exact ⟨rfl, rfl⟩
  case memRead a => obtain ⟨v, n, h⟩ := s.memRead_cases a; rw [h]; exact ⟨rfl, rfl⟩
  case poll => obtain ⟨v, n, h⟩ := s.regRead_cases RegName.status.offset; rw [h]; exact ⟨rfl, rfl⟩
  case hardReset => exact ⟨rfl, rfl⟩
  case memWrite a v =>
    rcases s.memWrite_cases a v with h | ⟨-, h⟩ | ⟨-, f, -, -, h⟩ <;> rw [h] <;> exact ⟨rfl, rfl⟩
  case regWrite o v =>
    simp only [State.regWrite]
    split
    · exact ⟨rfl, rfl⟩
    · rename_i r _
      cases r <;> simp only [State.writeReg, State.writeCtrl, State.writeCmd, State.writeIdle, State.writeStatus,
        State.softReset, State.accept] <;> (repeat' split) <;> first | exact ⟨rfl, rfl⟩ | simp

theorem State.hostTurn_cfg (s : State) : s.hostTurn.cfg = s.cfg := by
  rcases hostTurn_cases s with ⟨_, h⟩ | ⟨x, r, _, h⟩ | ⟨r, _, _, h⟩ <;> rw [h]
  · exact (State.access_keeps x s).1
  · exact (State.access_keeps _ s).1

/-- A run of one more step (Host/Core.lean), for this machine. -/
theorem run_succ_of_step {k : Nat} {s t : State} (h : step s = .next t) :
    Sys2Proof.core.run (k + 1) s = Sys2Proof.core.run k t := by
  have key : ∀ (M : Host.Core) (s t : M.State), M.step s = .next t → M.run (k + 1) s = M.run k t := by
    intro M s t h
    rw [Host.Core.run.eq_def]; simp only [h]
  exact key Sys2Proof.core s t h

end Sys2Proof.Machine
end

