-- ==== Sys2Proof/Laws/Tree.lean ====
section
/-! SUPPORT. What `extract_min` takes, how nodes behave when one is appended, and the live counters as counts of symbols. -/

namespace Sys2Proof.Machine

theorem takenBefore_iff (nodes : List Node) (i j : Nat) : takenBefore nodes i j = true ↔ Before nodes i j := by
  simp [takenBefore, Before]

theorem Before.trans {nodes : List Node} {i j k : Nat} (h1 : Before nodes i j) (h2 : Before nodes j k) :
    Before nodes i k := by
  unfold Before at *; omega

theorem Before.total {nodes : List Node} {i j : Nat} (h : ¬ Before nodes j i) (hne : j ≠ i) : Before nodes i j := by
  unfold Before at *; omega

/-- The node of a queue that comes before all the others (40_tree_builder.md R100). -/
theorem minNode_spec (nodes : List Node) (q : List Nat) (i : Nat) :
    minNode nodes i q ∈ i :: q ∧ ∀ j ∈ i :: q, j ≠ minNode nodes i q → Before nodes (minNode nodes i q) j := by
  induction q generalizing i with
  | nil => simp [minNode]
  | cons x r ih =>
    have e : minNode nodes i (x :: r) = minNode nodes (if takenBefore nodes x i then x else i) r := rfl
    rw [e]
    obtain ⟨h1, h2⟩ := ih (if takenBefore nodes x i then x else i)
    by_cases hx : takenBefore nodes x i = true
    · rw [if_pos hx] at h1 h2 ⊢
      have hb := (takenBefore_iff _ _ _).1 hx
      refine ⟨by simp only [List.mem_cons] at h1 ⊢; tauto, fun j hj hne => ?_⟩
      rcases List.mem_cons.1 hj with rfl | hj
      · by_cases e2 : x = minNode nodes x r
        · rw [← e2]; exact hb
        · exact (h2 x (by simp) e2).trans hb
      · exact h2 j hj hne
    · rw [if_neg hx] at h1 h2 ⊢
      have hb : ¬ Before nodes x i := fun h => hx ((takenBefore_iff _ _ _).2 h)
      refine ⟨by simp only [List.mem_cons] at h1 ⊢; tauto, fun j hj hne => ?_⟩
      simp only [List.mem_cons] at hj
      rcases hj with rfl | rfl | hj
      · exact h2 j (by simp) hne
      · by_cases e2 : i = minNode nodes i r
        · rw [← e2]; exact Before.total hb (by rintro rfl; exact hne e2)
        · have h3 := h2 i (by simp) e2
          by_cases e3 : j = i
          · rw [e3]; exact h3
          · exact h3.trans (Before.total hb e3)
      · exact h2 j (by simp [hj]) hne

/-- `extract_min` takes the first node of the queue in the order of R100 and leaves the others (40_tree_builder.md R100). -/
theorem extractMin_some {nodes : List Node} {q q' : List Nat} {a : Nat} (h : extractMin nodes q = some (a, q')) :
    a ∈ q ∧ q' = q.erase a ∧ ∀ j ∈ q, j ≠ a → Before nodes a j := by
  cases q with
  | nil => simp [extractMin] at h
  | cons i r =>
    simp only [extractMin, Option.some.injEq, Prod.mk.injEq] at h
    obtain ⟨rfl, rfl⟩ := h
    exact ⟨(minNode_spec nodes r i).1, rfl, (minNode_spec nodes r i).2⟩

theorem extractMin_none {nodes : List Node} {q : List Nat} (h : extractMin nodes q = none) : q = [] := by
  cases q with
  | nil => rfl
  | cons i r => simp [extractMin] at h

theorem nodeFreq_append (nodes x : List Node) {i : Nat} (h : i < nodes.length) :
    nodeFreq (nodes ++ x) i = nodeFreq nodes i := by
  simp [nodeFreq, List.getElem?_append_left h]

theorem nodeFreq_concat_last (nodes : List Node) (x : Node) :
    nodeFreq (nodes ++ [x]) nodes.length = x.freq.toNat := by
  simp [nodeFreq]

/-- NSYM counts the symbols present (10_state.md R37). -/
theorem nsym_eq_length (f : FreqTable) : nsym f = (presentSymbols f).length := by
  have : f.toList = allSymbols.map (FreqTable.get f) := by
    apply List.ext_getElem
    · simp [allSymbols]
    · intro i h1 h2
      have : i < 256 := by simpa using h1
      simp [allSymbols, FreqTable.get, Nat.mod_eq_of_lt this]
  rw [nsym, this, List.countP_map, List.countP_eq_length_filter]; rfl

theorem nsym_eq_zero (f : FreqTable) : nsym f = 0 ↔ ∀ b : Byte, FreqTable.get f b = 0#32 := by
  rw [nsym_eq_length, List.length_eq_zero_iff, presentSymbols, List.filter_eq_nil_iff]
  exact ⟨fun h b => by simpa using h b (mem_allSymbols b), fun h b _ => by simp [h b]⟩

/-- NCODES counts the symbols with a code (10_state.md R38). -/
theorem ncodes_eq_length (code : CodeTable) :
    ncodes code = (allSymbols.filter fun b => (CodeTable.get code b).length != 0).length := by
  have : code.toList = allSymbols.map (CodeTable.get code) := by
    apply List.ext_getElem
    · simp [allSymbols]
    · intro i h1 h2
      have : i < 256 := by simpa using h1
      simp [allSymbols, CodeTable.get, Nat.mod_eq_of_lt this]
  rw [ncodes, this, List.countP_map, List.countP_eq_length_filter]; rfl

/-- The count of a byte grows by its occurrences (40_tree_builder.md R96). -/
theorem get_foldl_count (l : List Byte) (f : FreqTable) (b : Byte) :
    FreqTable.get (l.foldl FreqTable.count f) b = FreqTable.get f b + BitVec.ofNat 32 (l.count b) := by
  induction l generalizing f with
  | nil => simp
  | cons x r ih =>
    rw [List.foldl_cons, ih, FreqTable.count]
    by_cases h : b = x
    · subst h; rw [FreqTable.get_put_same, List.count_cons_self]
      rw [BitVec.add_assoc]; congr 1; rw [Nat.add_comm, BitVec.ofNat_add]
    · rw [FreqTable.get_put_ne _ h, List.count_cons_of_ne (Ne.symm h)]

end Sys2Proof.Machine
end

