-- ==== Sys2Proof/Tests/Slice0.lean ====
section
/-! SUPPORT. Tests: ill-formed terms that the checks refuse, command words written out from 30_encoding.md R83, the vectors
of 95_test_vectors.md (named TV-...), and for every statement with hypotheses a state and operands that meet them. -/

namespace Sys2Proof.Tests

set_option Elab.async false

open Sys2Proof Sys2Proof.Machine

/-! ## Well-formedness refuses ill-formed terms (30_encoding.md R86, 00_scope.md R9) -/

theorem test_wf_refuses_reserved_opcode : CommandWord.wf ⟨0#24, 0x0E#8⟩ = false := by decide

theorem test_wf_refuses_last_opcode : CommandWord.wf ⟨0#24, 0xFF#8⟩ = false := by decide

theorem test_wf_refuses_reserved_field : CommandWord.wf ⟨1#24, 0x00#8⟩ = false := by decide

theorem test_wf_takes_the_last_command : CommandWord.wf ⟨0#24, 0x0D#8⟩ = true := by decide

theorem test_wf_refuses_empty_memory : Config.wf ⟨0, 0, 0⟩ = false := by decide

theorem test_wf_refuses_oversized_memory : Config.wf ⟨2 ^ 24 + 1, 0, 0⟩ = false := by decide

theorem test_wf_takes_both_ends : Config.wf ⟨1, 0, 0⟩ = true ∧ Config.wf ⟨2 ^ 24, 0, 0⟩ = true := by decide

/-! ## Decoding (30_encoding.md R81, R83, R86, R87): `[31:8]` RSVD, `[7:0]` OP -/

theorem test_decode_control :
    decode 0b00000000000000000000000000000000#32 = .ok .nop ∧
    decode 0b00000000000000000000000000001101#32 = .ok .clear := by decide

theorem test_decode_tree_builder :
    decode 0b00000000000000000000000000000001#32 = .ok .scan ∧
    decode 0b00000000000000000000000000000010#32 = .ok .build ∧
    decode 0b00000000000000000000000000000011#32 = .ok .assign := by decide

theorem test_decode_bit_packer :
    decode 0b00000000000000000000000000000110#32 = .ok .pack ∧
    decode 0b00000000000000000000000000000111#32 = .ok .packBits ∧
    decode 0b00000000000000000000000000001000#32 = .ok .unpackBits := by decide

theorem test_decode_archive_codec :
    decode 0b00000000000000000000000000000100#32 = .ok .measure ∧
    decode 0b00000000000000000000000000000101#32 = .ok .encode ∧
    decode 0b00000000000000000000000000001010#32 = .ok .parse ∧
    decode 0b00000000000000000000000000001011#32 = .ok .decompress ∧
    decode 0b00000000000000000000000000001100#32 = .ok .compress := by decide

theorem test_decode_prefix_decoder : decode 0b00000000000000000000000000001001#32 = .ok .decodeBody := by decide

theorem test_decode_refuses_reserved_opcode : decode 0x0000000E#32 = .error .reservedOpcode := by decide

/-- R87: the RSVD check comes before the opcode. -/
theorem test_decode_checks_reserved_field_first : decode 0x80000001#32 = .error .reservedField ∧
    decode 0x000001FF#32 = .error .reservedField := by decide

theorem test_decode_table_word : decodeTableWord 32 0x0C = some .compress ∧ decodeTableWord 8 0x0C = some .compress ∧
    decodeTableWord 32 0x10C = none := by decide

theorem test_fetch_word_is_decoded :
    decode (State.reset.withFetchWord 32 0x01).cmd = .ok .scan ∧
    (State.reset.withFetchWord 32 0x01).flight = some ⟨0, false⟩ := by decide

/-! ## Small states -/

def cellsAt (a : Nat) (bytes : List Byte) : List Host.Cell := bytes.zipIdx.map fun p => (a + p.2, p.1)

/-- The source bytes at 0x100, a destination window, PAD_IN and the terminator; the rest as after reset. -/
def start (src : List Byte) (dst cap pad : Nat) (t : Term) : State :=
  { State.reset with
    ctrl := ⟨false, t⟩
    mem := ⟨cellsAt 0x100 src, 0⟩
    params := ⟨0x100#32, BitVec.ofNat 32 src.length, BitVec.ofNat 32 dst, BitVec.ofNat 32 cap, BitVec.ofNat 3 pad⟩ }

/-- The same with the code table {a: 00, b: 01, c: 1} of TV-ASSIGN-1. -/
def startCoded (src : List Byte) (dst cap pad : Nat) : State :=
  { start src dst cap pad .lf with
    code := ((CodeTable.empty.put 97#8 [false, false]).put 98#8 [false, true]).put 99#8 [true] }

/-- What a command leaves, run by acceptance and completion. -/
def after (i : Instr) (s : State) : State :=
  match step (s.withFetchWord 32 (encode i).toNat) with
  | .next t => t
  | _ => s

def statusOf (s : State) : Nat := s.statusWord.toNat

/-- RES_LEN / RES_BODY / RES_PAD / RES_HDR / RES_ARCH / BITS, in the order of 95_test_vectors.md section 0. -/
def sizesOf (s : State) : List Nat :=
  [s.res.len.toNat, s.res.body.toNat, s.res.pad.toNat, s.res.hdr.toNat, s.res.arch.toNat, s.res.bits.toNat]

def bytesAt (s : State) (a n : Nat) : List Byte := (List.range n).map fun i => s.mem.read (a + i)

/-- "abbbccccc". -/
def bytesB : List Byte := [97, 98, 98, 98, 99, 99, 99, 99, 99]

/-- "aaaaabbc" eight times. -/
def bytes3 : List Byte := (List.replicate 8 [97, 97, 97, 97, 97, 98, 98, 99]).flatten

/-- The 37-byte archive of 95_test_vectors.md section 3 (TV-ENC-3). -/
def arch3 : List Byte :=
  [0x31, 0x31, 0x20, 0x30, 0x0a, 0x0a, 0x61, 0x3a, 0x20, 0x31, 0x0a, 0x62, 0x3a, 0x20, 0x30, 0x31, 0x0a, 0x63, 0x3a, 0x20] ++
  [0x30, 0x30, 0x0a, 0x21, 0x40, 0x0a, 0xfa, 0x9f, 0x53, 0xea, 0x7d, 0x4f, 0xa9, 0xf5, 0x3e, 0xa7, 0xd4]

/-- "0 0\n\n!@\n", the empty archive of TV-PARSE-4. -/
def archEmpty : List Byte := [0x30, 0x20, 0x30, 0x0a, 0x0a, 0x21, 0x40, 0x0a]

/-- FREQ of "aaaa" and of "abbbccccc". -/
def freqA : FreqTable := FreqTable.zero.put 97#8 4#32

def freqB : FreqTable := ((FreqTable.zero.put 97#8 1#32).put 98#8 3#32).put 99#8 5#32

/-! ## Vectors of 95_test_vectors.md, at most two for each command -/

/-- 44_control.md R146: NOP leaves ERR clear and DONE set. -/
theorem test_nop : let t := after .nop { State.reset with status := ⟨true, true, true, false, 0x0A, 0x01⟩ }
    (statusOf t, sizesOf t) = (0x00000002, [0, 0, 0, 0, 0, 0]) := by decide +kernel

theorem test_scan_TV_SCAN_1 : let t := after .scan (start bytesB 0 0 0 .lf)
    (statusOf t, FreqTable.get t.freq 97, FreqTable.get t.freq 98, FreqTable.get t.freq 99, nsym t.freq) =
      (0x00000002, 1, 3, 5, 3) := by decide +kernel

/-- The empty window at MEM_BYTES is in range. -/
theorem test_scan_TV_SCAN_4 :
    let s : State := { start [] 0 0 0 .lf with freq := freqA, params := { Params.reset with srcAddr := 4096#32 } }
    (statusOf (after .scan s), nsym (after .scan s).freq) = (0x00000206, 0) := by decide +kernel

theorem test_build_TV_BUILD_1 : let t := after .build { State.reset with freq := freqB }
    (statusOf t, t.nodes) =
      (0x00000002, [.leaf 97 1, .leaf 98 3, .leaf 99 5, .internal 4 0 1, .internal 9 3 2]) := by decide +kernel

/-- A leaf and an internal node of equal frequency: the lesser index is taken first. -/
theorem test_build_TV_BUILD_3 :
    let f := ((FreqTable.zero.put 97#8 1#32).put 98#8 1#32).put 99#8 2#32
    (after .build { State.reset with freq := f }).nodes =
      [.leaf 97 1, .leaf 98 1, .leaf 99 2, .internal 2 0 1, .internal 4 2 3] := by decide +kernel

/-- ASSIGN of the tree of TV-BUILD-1. -/
theorem test_assign_TV_ASSIGN_1 :
    let t := after .assign { State.reset with
      nodes := [.leaf 97 1, .leaf 98 3, .leaf 99 5, .internal 4 0 1, .internal 9 3 2] }
    (statusOf t, CodeTable.get t.code 97, CodeTable.get t.code 98, CodeTable.get t.code 99, ncodes t.code) =
      (0x00000002, [false, false], [false, true], [true], 3) := by decide +kernel

theorem test_assign_TV_ASSIGN_2 : statusOf (after .assign State.reset) = 0x00000606 := by decide +kernel

theorem test_measure_TV_MEAS_1 : let t := after .measure (startCoded bytesB 0x800 256 0)
    (statusOf t, sizesOf t) = (0x0000000A, [0, 2, 3, 25, 27, 13]) := by decide +kernel

theorem test_measure_TV_MEAS_3 : statusOf (after .measure (start [97, 97, 97, 97, 97] 0 0 0 .lf)) = 0x00000706 := by
  decide +kernel

theorem test_encode_TV_ENC_1 : let t := after .encode (startCoded bytesB 0x800 256 0)
    (statusOf t, sizesOf t, t.mem) = (0x0000000A, [0, 2, 3, 25, 27, 13], (startCoded bytesB 0x800 256 0).mem) := by
  decide +kernel

theorem test_encode_TV_ENC_9 : let t := after .encode (startCoded [97, 98, 100] 0x800 256 0)
    (statusOf t, sizesOf t) = (0x00000706, [0, 0, 0, 0, 0, 0]) := by decide +kernel

theorem test_pack_TV_PACK_1 : let t := after .pack (startCoded bytesB 0x200 16 0)
    (statusOf t, sizesOf t, bytesAt t 0x200 2) = (0x00000002, [2, 2, 3, 0, 0, 13], [0x15, 0xF8]) := by decide +kernel

theorem test_pack_TV_PACK_5 : statusOf (after .pack (startCoded bytesB 0x108 4 0)) = 0x00000406 := by decide +kernel

/-- "111111111". -/
theorem test_packBits_TV_PB_4 : let t := after .packBits (start (List.replicate 9 0x31) 0x200 16 0 .lf)
    (statusOf t, sizesOf t, bytesAt t 0x200 2) = (0x00000002, [2, 2, 7, 0, 0, 9], [0xFF, 0x80]) := by decide +kernel

theorem test_packBits_TV_PB_5 : statusOf (after .packBits (start [0x30, 0x31, 0x32, 0x30] 0x200 16 0 .lf)) = 0x00000806 := by
  decide +kernel

theorem test_unpackBits_TV_UB_7 : let t := after .unpackBits (start [0xA5] 0x200 32 0 .lf)
    (statusOf t, sizesOf t, bytesAt t 0x200 8) =
      (0x00000002, [8, 0, 0, 0, 0, 8], [0x31, 0x30, 0x31, 0x30, 0x30, 0x31, 0x30, 0x31]) := by decide +kernel

theorem test_unpackBits_TV_UB_4 : statusOf (after .unpackBits (start [] 0x200 32 1 .lf)) = 0x00000906 := by decide +kernel

theorem test_decodeBody_TV_DB_1 : let t := after .decodeBody (startCoded [0x15, 0xF8] 0x800 16 3)
    (statusOf t, t.res.len, t.res.bits, bytesAt t 0x800 9) = (0x00000002, 9, 13, bytesB) := by decide +kernel

theorem test_decodeBody_TV_DB_2 : let t := after .decodeBody (startCoded [0x15, 0xF8] 0x800 16 0)
    (statusOf t, t.res.bits, t.mem) = (0x00000B06, 0, (startCoded [0x15, 0xF8] 0x800 16 0).mem) := by decide +kernel

theorem test_parse_TV_PARSE_1 : let t := after .parse (start arch3 0 0 0 .lf)
    (statusOf t, sizesOf t, CodeTable.get t.code 97, CodeTable.get t.code 98, CodeTable.get t.code 99, ncodes t.code) =
      (0x00000002, [0, 11, 0, 26, 37, 88], [true], [false, true], [false, false], 3) := by decide +kernel

/-- "0 0\n\na: 0\nb: 0\n!@\n": DUP_CODE, and the table is emptied. -/
theorem test_parse_TV_MAL_10a : let t := after .parse (startCoded ([0x30, 0x20, 0x30, 0x0a, 0x0a] ++
      [0x61, 0x3a, 0x20, 0x30, 0x0a, 0x62, 0x3a, 0x20, 0x30, 0x0a, 0x21, 0x40, 0x0a]) 0 0 0)
    (statusOf t, ncodes t.code) = (0x000A0A06, 0) := by decide +kernel

theorem test_decompress_TV_DEC_1 : let t := after .decompress (start arch3 0x800 256 0 .lf)
    (statusOf t, sizesOf t, bytesAt t 0x800 64) = (0x00000002, [64, 11, 0, 26, 37, 88], bytes3) := by decide +kernel

theorem test_decompress_TV_DEC_3 : let t := after .decompress (start arch3 0x800 63 0 .lf)
    (statusOf t, sizesOf t, ncodes t.code) = (0x00000506, [0, 11, 0, 26, 37, 88], 3) := by decide +kernel

theorem test_compress_TV_ENC_5 : let t := after .compress (start bytes3 0x800 37 0 .lf)
    (statusOf t, sizesOf t, bytesAt t 0x800 37) = (0x00000002, [37, 11, 0, 26, 37, 88], arch3) := by decide +kernel

/-- "aaaa": one symbol is never compressible. -/
theorem test_compress_TV_SRC_A : let t := after .compress (start [97, 97, 97, 97] 0x800 256 0 .lf)
    (statusOf t, sizesOf t, t.nodes) = (0x0000000A, [0, 1, 4, 13, 14, 4], [.leaf 97 4]) := by decide +kernel

/-- 44_control.md R147. -/
theorem test_clear : let t := after .clear { startCoded [] 0 0 0 with freq := freqA, nodes := [.leaf 97 4] }
    (nsym t.freq, t.nodes, ncodes t.code, maxLen t.code, statusOf t) = (0, [], 0, 0, 0x00000002) := by decide +kernel

/-! ## The host's ports -/

/-- TV-BUILD-6, readback: NODE_SEL = 2 of a tree of two symbols with counts 0xFFFFFFFF. -/
theorem test_node_windows_TV_BUILD_6 :
    let s : State := { State.reset with
      nodes := [.leaf 0x00 0xFFFFFFFF, .leaf 0xFF 0xFFFFFFFF, .internal 0x1FFFFFFFE 0 1], nodeSel := 2 }
    (s.readReg .nodeFreq, s.readReg .nodeFreqHi, s.readReg .nodeInfo, { s with nodeSel := 1 }.readReg .nodeInfo,
      { s with nodeSel := 3 }.readReg .nodeInfo) = (0xFFFFFFFE, 1, 0x80000200, 0xC3FC0000, 0) := by decide +kernel

/-- TV-ASSIGN-4, readback of the code "10". -/
theorem test_code_windows_TV_ASSIGN_4 :
    let s : State := { State.reset with code := CodeTable.empty.put 0x61 [true, false], sel := 0x61 }
    (s.readReg .codeLenWin, s.readReg (.codeBitsWin 0), s.readReg (.codeBitsWin 1)) = (2, 0x80000000, 0) := by
  decide +kernel

/-- 10_state.md R25: TERM = 2 and 3 leave TERM unchanged; CTRL reads IE at [0] and TERM at [2:1]. -/
theorem test_ctrl_write : let s := State.reset.writeCtrl 0x00000003#32
    (s.ctrlWord, (s.writeCtrl 0x00000004#32).ctrl.term, (s.writeCtrl 0x00000006#32).ctrl.term) =
      (0x00000003#32, .crlf, .crlf) := by decide +kernel

/-- 10_state.md R32: a second CMD write while BUSY = 1 sets OVERRUN and is lost. -/
theorem test_overrun : let s := (State.reset.withFetchWord 32 0x0D).regWrite 0x08#8 0x0000000C#32
    (s.cmd, s.statusWord) = (0x0000000D#32, 0x00000011#32) := by decide +kernel

/-- 30_encoding.md R88: `RUN NOP` as port accesses, with a delay of one step: acceptance, a poll that stays, the completion,
the poll that ends, and an idle step. -/
theorem test_run_line :
    (match core.run 5 { State.reset with host := hostProgram [.run .nop], delays := [1] } with
      | .next t => decide (t.host = [] ∧ t.readData = 0x00000002#32)
      | _ => false) = true := by decide +kernel

/-- 30_encoding.md R88, 20_memory.md R58: `MEMW` goes upward from its address; a byte at MEM_BYTES or above, however high,
has no effect, and `MEMR` reads 0 there. -/
theorem test_memory_lines : let s := { State.reset with host := hostProgram [.memw 0xFFFFFFFF [1, 2], .memw 4095 [3, 4]] }
    HostLine.accesses (.memr 0xFFFFFFFF 2) = [.memRead 0xFFFFFFFF, .memRead 0x100000000] ∧
    (match core.run 4 s with
      | .next t => decide (t.host = [] ∧ t.mem.cells = [(4095, 3)] ∧ (t.memRead 0x100000000).readData = 0)
      | _ => false) = true := by decide +kernel

/-- 20_memory.md R72: a host write into a window of the running command is recorded and the command still completes. -/
theorem test_host_race : let s := (startCoded bytesB 0x200 16 0).withFetchWord 32 0x06
    ((s.memWrite 0x100 0).recorded, (s.memWrite 0x10F 0).recorded) = (some .hostRace, none) := by decide +kernel

/-! ## Witnesses: a state and operands that meet the hypotheses of each statement, clause by clause -/

/-- What the meaning of a command leaves. -/
def ran (i : Instr) (s : State) : State :=
  match exec i s with
  | .next t => t
  | _ => s

theorem exec_ran (i : Instr) (s : State) : exec i s = .next (ran i s) := by
  obtain ⟨-, t, h, -⟩ := exec_cases i s
  simp [ran, h]

/-- Closed facts about windows. -/
theorem ready_of {s : State}
    (h : s.params.srcAddr.toNat + s.params.srcLen.toNat ≤ s.cfg.memBytes ∧
      s.params.dstAddr.toNat + s.params.dstCap.toNat ≤ s.cfg.memBytes ∧
      ¬(0 < s.params.srcLen.toNat ∧ 0 < s.params.dstCap.toNat ∧
        s.params.srcAddr.toNat < s.params.dstAddr.toNat + s.params.dstCap.toNat ∧
        s.params.dstAddr.toNat < s.params.srcAddr.toNat + s.params.srcLen.toNat)) : s.WindowsReady := h

theorem witness_IllegalWords : ∃ s u : State,
    (s.flight = some ⟨0, false⟩ ∧ 0x0E ≤ (s.cmd.extractLsb' 0 8).toNat) ∧
    (u.flight = some ⟨0, false⟩ ∧ u.cmd.extractLsb' 8 24 ≠ 0#24) :=
  ⟨State.reset.withFetchWord 32 0x0E, State.reset.withFetchWord 32 0x100, by decide, by decide⟩

/-- The last two are a poll that ends and one that stays. -/
theorem witness_StepRuns : ∃ s u v : State,
    (s.flight = some ⟨0, false⟩ ∧ decode s.cmd = .ok .clear) ∧ u.flight = some ⟨0 + 1, true⟩ ∧ v.flight = none ∧
    v.host = [] ∧ { v with host := [.memRead 0] }.host = [.memRead 0] ∧ HostAction.memRead 0 ≠ .poll ∧
    ({ v with host := [.poll], status := { v.status with done := true } } : State).pollEnds = true ∧
    { s with host := [.poll] }.pollEnds = false :=
  ⟨State.reset.withFetchWord 32 0x0D, { State.reset with flight := some ⟨1, true⟩ }, State.reset, by decide, rfl, rfl, rfl,
    rfl, by decide, rfl, rfl⟩

theorem witness_Acceptance : State.reset.flight = none := rfl

theorem witness_TablesChange : exec .nop (start bytesB 0 0 0 .lf) = .next (ran .nop (start bytesB 0 0 0 .lf)) ∧
    Instr.nop ∉ [Instr.scan, .compress, .clear] ∧ Instr.nop ∉ [Instr.build, .compress, .clear] ∧
    Instr.nop ∉ [Instr.assign, .parse, .decompress, .compress, .clear] := ⟨exec_ran _ _, by decide⟩

/-- BUILD of an empty FREQ ends in error; BUILD and NOP are named for no size register. -/
theorem witness_ResultRegisters : State.reset.status.err = false ∧
    exec .build State.reset = .next (ran .build State.reset) ∧
    exec .nop State.reset = .next (ran .nop State.reset) ∧
    (ran .build State.reset).status.err = true ∧ (ran .build State.reset).status.errCode ≠ 0x05#8 ∧
    Instr.build ∉ [Instr.measure, .encode, .pack, .packBits, .unpackBits, .decodeBody, .parse, .decompress, .compress,
      .clear] := ⟨by decide, exec_ran _ _, exec_ran _ _, by decide +kernel, by decide +kernel, by decide⟩

/-- PACK stores two bytes at 0x200 and 0x201; 0x1FF and 0x202 lie just outside. BUILD stores nothing and ends in error. -/
theorem witness_OnlyTheOutputBytes :
    let s := startCoded bytesB 0x200 16 0
    s.status.err = false ∧ s.status.notcomp = false ∧ exec .pack s = .next (ran .pack s) ∧
    Instr.pack ∉ storelessCommands ∧ (ran .pack s).res.len.toNat = 2 ∧
    Instr.build ∈ storelessCommands ∧ (ran .build State.reset).status.err = true ∧
    ¬(0x200 ≤ 0x1FF ∧ 0x1FF < 0x200 + 2) ∧ ¬(0x200 ≤ 0x202 ∧ 0x202 < 0x200 + 2) :=
  ⟨by decide, by decide, exec_ran _ _, by decide, by decide +kernel, by decide, by decide +kernel, by decide, by decide⟩

/-- MEM_BYTES = 4096: a source of 2 bytes at 4095, a destination of 1 byte at 4096, and windows that share byte 0x108. -/
theorem witness_WindowChecks :
    ¬ State.SrcReady { State.reset with params := ⟨4095, 2, 0, 0, 0⟩ } ∧
    (State.SrcReady { State.reset with params := ⟨4095, 1, 4096, 1, 0⟩ } ∧
      ¬ State.DstReady { State.reset with params := ⟨4095, 1, 4096, 1, 0⟩ }) ∧
    (State.SrcReady { State.reset with params := ⟨0x100, 9, 0x108, 4, 0⟩ } ∧
      State.DstReady { State.reset with params := ⟨0x100, 9, 0x108, 4, 0⟩ } ∧
      State.WindowsOverlap { State.reset with params := ⟨0x100, 9, 0x108, 4, 0⟩ }) ∧
    Instr.compress ∈ bothWindowCommands ∧ Instr.parse ∈ [Instr.scan, .measure, .parse] := by
  unfold State.SrcReady State.DstReady State.WindowsOverlap; decide

theorem witness_Scan :
    (State.SrcReady (start [] 0 0 0 .lf) ∧ (start [] 0 0 0 .lf).params.srcLen = 0#32) ∧
    (State.SrcReady { State.reset with params := ⟨4095, 1, 0, 0, 0⟩ } ∧
      ({ State.reset with params := ⟨4095, 1, 0, 0, 0⟩ } : State).params.srcLen ≠ 0#32) := by
  unfold State.SrcReady; decide

theorem witness_Build : (∀ b : Byte, FreqTable.get State.reset.freq b = 0#32) ∧
    (∃ b : Byte, FreqTable.get ({ State.reset with freq := freqA } : State).freq b ≠ 0#32) :=
  ⟨fun b => FreqTable.get_zero b, 97#8, by decide +kernel⟩

theorem witness_NonEmpty : FreqTable.NonEmpty freqA ∧ nsym freqA = 1 ∧ FreqTable.NonEmpty freqB ∧ 2 ≤ nsym freqB := by
  have h1 : nsym freqA = 1 := by decide +kernel
  have h2 : nsym freqB = 3 := by decide +kernel
  simp [FreqTable.NonEmpty, h1, h2]

theorem witness_Merges : (buildNodes freqB)[4]? = some (.internal 9 3 2) ∧
    (buildNodes freqB)[3]? = some (.internal 4 0 1) := by decide +kernel

theorem witness_Assign : State.reset.nodes = [] ∧ ({ State.reset with nodes := [.leaf 97 4] } : State).nodes ≠ [] := by
  decide

theorem witness_NoGap : 2 ≤ nsym freqB ∧ ([true, false] : Bits).length = maxLen (assignCodes (buildNodes freqB)) := by
  decide +kernel

theorem witness_PackedBitOrder : 7 < 8 * (packBody [true]).length ∧ 15 < 8 * ([1, 2] : List Byte).length := by decide

/-- The four clauses of PACK: an empty window; a byte without a code; a body of two bytes in a capacity of 1, and of 2. -/
theorem witness_Pack :
    ((startCoded [] 0x200 4 0).WindowsReady ∧ (startCoded [] 0x200 4 0).params.srcLen = 0#32) ∧
    ((startCoded [97, 100] 0x200 4 0).WindowsReady ∧ (startCoded [97, 100] 0x200 4 0).params.srcLen ≠ 0#32 ∧
      ∃ b ∈ (startCoded [97, 100] 0x200 4 0).srcBytes, CodeTable.get (startCoded [97, 100] 0x200 4 0).code b = []) ∧
    (∀ cap ∈ [1, 2], (startCoded bytesB 0x200 cap 0).WindowsReady ∧ (startCoded bytesB 0x200 cap 0).params.srcLen ≠ 0#32 ∧
      (∀ b ∈ (startCoded bytesB 0x200 cap 0).srcBytes, CodeTable.get (startCoded bytesB 0x200 cap 0).code b ≠ []) ∧
      (((startCoded bytesB 0x200 cap 0).srcBytes.flatMap fun b =>
        CodeTable.get (startCoded bytesB 0x200 cap 0).code b).length + 7) / 8 = 2) := by
  refine ⟨⟨ready_of (by decide), by decide⟩, ⟨ready_of (by decide), by decide, ?_⟩, fun cap hc => ?_⟩
  · decide +kernel
  · simp only [List.mem_cons, List.not_mem_nil, or_false] at hc
    rcases hc with rfl | rfl
    · exact ⟨ready_of (by decide), by decide, by decide +kernel, by decide +kernel⟩
    · exact ⟨ready_of (by decide), by decide, by decide +kernel, by decide +kernel⟩

/-- A byte that is no bit character; the bit string 1 in a capacity of 0, and of 1; the empty bit string. -/
theorem witness_PackBits :
    ((start [0x32] 0x200 1 0 .lf).WindowsReady ∧ ∃ b ∈ (start [0x32] 0x200 1 0 .lf).srcBytes, b ≠ 0x30#8 ∧ b ≠ 0x31#8) ∧
    ((start [0x31] 0x200 0 0 .lf).WindowsReady ∧ (start [0x31] 0x200 1 0 .lf).WindowsReady ∧
      (start [0x31] 0x200 0 0 .lf).srcBytes = [true].map (fun x => if x then 0x31#8 else 0x30#8)) ∧
    ((start [] 0x200 0 0 .lf).WindowsReady ∧
      (start [] 0x200 0 0 .lf).srcBytes = ([] : Bits).map (fun x => if x then 0x31#8 else 0x30#8)) := by
  exact ⟨⟨ready_of (by decide), by decide +kernel⟩, ⟨ready_of (by decide), ready_of (by decide), by decide +kernel⟩,
    ready_of (by decide), by decide⟩

/-- PAD_IN = 1 of an empty source; PAD_IN = 7 of one byte, with a capacity of 0 and of 1 for its one bit. -/
theorem witness_UnpackBits :
    ((start [] 0x200 1 1 .lf).WindowsReady ∧
      8 * (start [] 0x200 1 1 .lf).params.srcLen.toNat < (start [] 0x200 1 1 .lf).params.padIn.toNat) ∧
    (∀ cap ∈ [0, 1], (start [0xFF] 0x200 cap 7 .lf).WindowsReady ∧
      (start [0xFF] 0x200 cap 7 .lf).params.padIn.toNat ≤ 8 * (start [0xFF] 0x200 cap 7 .lf).params.srcLen.toNat ∧
      8 * (start [0xFF] 0x200 cap 7 .lf).params.srcLen.toNat - (start [0xFF] 0x200 cap 7 .lf).params.padIn.toNat = 1) := by
  refine ⟨⟨ready_of (by decide), by decide⟩, fun cap hc => ?_⟩
  simp only [List.mem_cons, List.not_mem_nil, or_false] at hc
  rcases hc with rfl | rfl <;> exact ⟨ready_of (by decide), by decide, by decide⟩

theorem witness_AssignedTablesDecode : 2 ≤ nsym freqB ∧
    (enc (assignCodes (buildNodes freqB)) [97, 99] = some [false, false, true] ∧ ([97, 99] : List Byte).length ≤ 2) ∧
    nsym freqA = 1 := by decide +kernel

/-- No prefix of `l` but the empty one and `p` is a code, from the lookups. -/
theorem no_code {code : CodeTable} {l p : Bits} (h : ∀ q ∈ l.inits, q ≠ [] → q ≠ p → code.lookup q = none) :
    ∀ q : Bits, q <+: l → q ≠ [] → q ≠ p → ∀ a : Byte, CodeTable.get code a ≠ q :=
  fun q hq h1 h2 => CodeTable.ne_of_lookup_none (h q ((List.mem_inits _ _).2 hq) h1 h2)

/-- In {a: 00, b: 01, c: 1} the code of b is the shortest at the front of "011" and of itself; "0" is no code and shorter
than MAXLEN. In {a: 0} "1" is no code and as long as MAXLEN. -/
theorem witness_DecodedOutput : let code := (startCoded [] 0 0 0).code
    (CodeTable.get code 98 = [false, true] ∧ ([false, true] : Bits) ≠ [] ∧
      (∀ q : Bits, q <+: [false, true] → q ≠ [] → q ≠ [false, true] → ∀ a : Byte, CodeTable.get code a ≠ q) ∧
      decodeBits [true] code 1 = .ok [99] ∧ decodeBits [true] code 0 = .error .dstOverflow) ∧
    ((∀ q : Bits, q <+: [false] → q ≠ [] → ∀ a : Byte, CodeTable.get code a ≠ q) ∧
      ([false] : Bits).length < maxLen code) ∧
    ((∀ q : Bits, q <+: [true] → q ≠ [] → ∀ a : Byte, CodeTable.get (CodeTable.empty.put 97#8 [false]) a ≠ q) ∧
      maxLen (CodeTable.empty.put 97#8 [false]) ≤ ([true] : Bits).length) ∧
    decodeBits [false, false, true] code 2 = .ok [97, 99] :=
  ⟨⟨by decide +kernel, by decide, no_code (by decide +kernel), by decide +kernel, by decide +kernel⟩,
    ⟨fun q hq h => no_code (p := []) (by decide +kernel) q hq h h, by decide +kernel⟩,
    ⟨fun q hq h => no_code (p := []) (by decide +kernel) q hq h h, by decide +kernel⟩, by decide +kernel⟩

/-- BAD_PAD; a residual bit; nine symbols in a capacity of nine. -/
theorem witness_DecodeBody :
    ((startCoded [] 0x800 16 1).WindowsReady ∧
      8 * (startCoded [] 0x800 16 1).params.srcLen.toNat < (startCoded [] 0x800 16 1).params.padIn.toNat) ∧
    (∀ p ∈ [0, 3], (startCoded [0x15, 0xF8] 0x800 9 p).WindowsReady ∧ (startCoded [0x15, 0xF8] 0x800 9 p).params.padIn.toNat
      ≤ 8 * (startCoded [0x15, 0xF8] 0x800 9 p).params.srcLen.toNat) ∧
    decodeBits (unpack [0x15, 0xF8] 0) (startCoded [] 0 0 0).code 9 = .error .dstOverflow ∧
    decodeBits (unpack [0x15, 0xF8] 3) (startCoded [] 0 0 0).code 9 = .ok bytesB := by
  refine ⟨⟨ready_of (by decide), by decide⟩, fun p hp => ?_, by decide +kernel, by decide +kernel⟩
  simp only [List.mem_cons, List.not_mem_nil, or_false] at hp
  rcases hp with rfl | rfl <;> exact ⟨ready_of (by decide), by decide⟩

theorem witness_HeaderSize : (7 : Nat) ≤ 7 := by decide

/-- The three clauses of MEASURE; ENCODE has the same first two, on a source and a destination window. -/
theorem witness_Measure :
    (State.SrcReady (startCoded [] 0x200 4 0) ∧ (startCoded [] 0x200 4 0).params.srcLen = 0#32) ∧
    (State.SrcReady (startCoded [97, 100] 0x200 4 0) ∧ (startCoded [97, 100] 0x200 4 0).params.srcLen ≠ 0#32 ∧
      ∃ b ∈ (startCoded [97, 100] 0x200 4 0).srcBytes, CodeTable.get (startCoded [97, 100] 0x200 4 0).code b = []) ∧
    (State.SrcReady (startCoded bytesB 0x200 4 0) ∧ (startCoded bytesB 0x200 4 0).params.srcLen ≠ 0#32 ∧
      ∀ b ∈ (startCoded bytesB 0x200 4 0).srcBytes, CodeTable.get (startCoded bytesB 0x200 4 0).code b ≠ []) := by
  refine ⟨⟨?_, by decide⟩, ⟨?_, by decide, by decide +kernel⟩, ⟨?_, by decide, by decide +kernel⟩⟩ <;>
    (unfold State.SrcReady; decide)

/-- The table {a: 1, b: 01, c: 00} of TV-ENC-3, whose header is 26 bytes and whose body of `bytes3` is 11. -/
def startCoded3 (src : List Byte) (cap : Nat) : State :=
  { start src 0x800 cap 0 .lf with
    code := ((CodeTable.empty.put 97#8 [true]).put 98#8 [false, true]).put 99#8 [false, false] }

/-- The last three clauses of ENCODE: nine bytes that do not get smaller; 64 bytes that do, in a capacity of 36 and 37. -/
theorem witness_Encode :
    (∀ c ∈ [(bytesB, 256), (bytes3, 36), (bytes3, 37)], (startCoded3 c.1 c.2).WindowsReady ∧
      (startCoded3 c.1 c.2).params.srcLen ≠ 0#32 ∧
      ∀ b ∈ (startCoded3 c.1 c.2).srcBytes, CodeTable.get (startCoded3 c.1 c.2).code b ≠ []) ∧
    (bytesB.length : Nat) ≤ (header (startCoded3 bytesB 256).code 2 0 [chLF]).length + 2 ∧
    (header (startCoded3 bytes3 37).code 11 0 [chLF]).length + 11 = 37 ∧ 37 < bytes3.length ∧
    ncodes (startCoded3 bytes3 37).code ≠ 1 := by
  refine ⟨fun c hc => ?_, by decide +kernel⟩
  simp only [List.mem_cons, List.not_mem_nil, or_false] at hc
  rcases hc with rfl | rfl | rfl
  · exact ⟨ready_of (by decide), by decide, by decide +kernel⟩
  · exact ⟨ready_of (by decide), by decide, by decide +kernel⟩
  · exact ⟨ready_of (by decide), by decide, by decide +kernel⟩

/-- An archive of 37 bytes of 64, and a result that is not compressible. -/
theorem witness_ArchivesAreSmaller :
    let s := startCoded3 bytes3 37
    let u := startCoded3 bytesB 256
    (Instr.encode ∈ [Instr.encode, .compress] ∧ s.status.err = false ∧ s.status.notcomp = false ∧
      exec .encode s = .next (ran .encode s) ∧ (ran .encode s).status.err = false ∧
      (ran .encode s).status.notcomp = false) ∧
    (exec .encode u = .next (ran .encode u) ∧ (ran .encode u).status.notcomp = true) :=
  ⟨⟨by decide, by decide, by decide, exec_ran _ _, by decide +kernel, by decide +kernel⟩, exec_ran _ _, by decide +kernel⟩

/-- A table of one code. -/
def tableOne : CodeTable := CodeTable.empty.put 97#8 [false]

theorem witness_ParseInverts : CodeTable.Bounded tableOne ∧ CodeTable.Distinct tableOne ∧
    byteCount ([false] : Bits).length < 2 ^ 32 := by
  have hne : ∀ a : Byte, (CodeTable.get tableOne a).length ≠ 0 → a = 97#8 := by
    intro a h
    by_contra hc
    rw [tableOne, CodeTable.get_put_ne _ hc, CodeTable.get_empty] at h
    exact h rfl
  refine ⟨fun a => CodeTable.length_get_put_le _ _ _ _ (by simp), fun a b h e => ?_, by decide⟩
  rw [hne a h, hne b (by rw [← e]; exact h)]

theorem witness_ParsedArchives : parseArchive Term.lf.bytes arch3 =
    .ok ⟨[(97, [true]), (98, [false, true]), (99, [false, false])], 11, 0, 26⟩ := by decide +kernel

/-- Line 1. No T; a content that is no `D1 SP D2`; B = 0 with P = 8 and with P = 1 (PAD_RANGE); B = 5 with P = 7 and four
bytes left (BODY_LENGTH); B = 0 with P = 0 and a region that parses and one that does not; the greatest number of ten
digits, and one above it. -/
theorem witness_LineOne :
    ¬ Term.lf.bytes <:+: [0x30] ∧
    (¬ Term.lf.bytes <:+: [0x30] ∧
      ¬ ∃ d1 d2 : List Byte, IsNumber d1 ∧ IsNumber d2 ∧ ([0x30] : List Byte) = d1 ++ [0x20#8] ++ d2) ∧
    (IsNumber [0x30] ∧ IsNumber [0x38] ∧ IsNumber [0x31] ∧ IsNumber [0x35] ∧ IsNumber [0x37]) ∧
    (7 < decVal [0x38] ∧ decVal [0x30] = 0 ∧ 0 < decVal [0x31]) ∧
    (decVal [0x37] ≤ 7 ∧ (decVal [0x35] = 0 → decVal [0x37] = 0) ∧
      ([0x0A, 0x21, 0x40, 0x0A] : List Byte).length < decVal [0x35]) ∧
    (parseRegion Term.lf.bytes [0x0A, 0x21, 0x40, 0x0A] = .ok [] ∧ parseRegion Term.lf.bytes [] = .error .noSentinel) ∧
    IsNumber [0x34, 0x32, 0x39, 0x34, 0x39, 0x36, 0x37, 0x32, 0x39, 0x35] ∧
    ¬ IsNumber [0x34, 0x32, 0x39, 0x34, 0x39, 0x36, 0x37, 0x32, 0x39, 0x36] := by
  unfold IsNumber
  refine ⟨by decide, ⟨by decide, fun ⟨d1, d2, h1, h2, e⟩ => ?_⟩, by decide, by decide, by decide, by decide +kernel,
    by decide, by decide⟩
  have := congrArg List.length e
  simp only [List.length_append, List.length_cons, List.length_nil] at this
  omega

/-- A line with its T, a line without one, and under CR LF a line that holds a lone CR and a lone LF. -/
theorem witness_ReadsLine : ReadsLine Term.lf.bytes [0x31, 0x0A, 0x21] [0x31] [0x21] ∧
    ReadsLine Term.lf.bytes [0x21, 0x40] [0x21, 0x40] [] ∧
    ReadsLine Term.crlf.bytes [0x0A, 0x0D, 0x0D, 0x0A] [0x0A, 0x0D] [] := by unfold ReadsLine; decide

/-- Line 2: a content of no form; F1 of 256 and of 255 bits; F1 SP F2 with F2 empty, of 256 bits, equal to F1 and not. -/
theorem witness_LineTwo :
    ((¬ ∃ f1 : Bits, ([0x32] : List Byte) = ascii f1) ∧
      ¬ ∃ f1 f2 : Bits, ([0x32] : List Byte) = ascii f1 ++ [0x20#8] ++ ascii f2) ∧
    (∃ f : Bits, 255 < f.length ∧ ReadsLine Term.lf.bytes (ascii f) (ascii f) []) ∧
    (∃ f : Bits, f.length = 255 ∧ ReadsLine Term.lf.bytes (ascii f) (ascii f) []) ∧
    (ReadsLine Term.lf.bytes [0x30, 0x20, 0x0A] (ascii [false] ++ [0x20#8] ++ ascii []) [] ∧
      ReadsLine Term.lf.bytes [0x30, 0x20, 0x30] (ascii [false] ++ [0x20#8] ++ ascii [false]) [] ∧
      ReadsLine Term.lf.bytes [0x30, 0x20, 0x31] (ascii [false] ++ [0x20#8] ++ ascii [true]) []) ∧
    ∃ f : Bits, 255 < f.length ∧
      ReadsLine Term.lf.bytes ([0x20] ++ ascii f) (ascii [] ++ [0x20#8] ++ ascii f) [] := by
  unfold ReadsLine
  refine ⟨⟨fun ⟨f, e⟩ => ?_, fun ⟨f, g, e⟩ => ?_⟩, ⟨List.replicate 256 true, by decide +kernel⟩,
    ⟨List.replicate 255 true, by decide +kernel⟩, by decide, ⟨List.replicate 256 true, by decide +kernel⟩⟩
  · rcases f with _ | ⟨x, _ | _⟩ <;> revert e <;> simp [ascii]; cases x <;> decide
  · rcases f with _ | ⟨x, _ | _⟩ <;> revert e <;> simp [ascii]

/-- Ordinary lines: the sentinel; a content of no form; an empty code; a code of 256 bits; a symbol and a code that are
registered, and ones that are not. -/
theorem witness_OrdinaryLine :
    let w : Entries := [(97#8, [false])]
    ReadsLine Term.lf.bytes [0x21, 0x40, 0x0A] [0x21#8, 0x40#8] [] ∧
    (([0x61] : List Byte) ≠ [0x21#8, 0x40#8] ∧ ReadsLine Term.lf.bytes [0x61] [0x61] [] ∧
      ¬ ∃ (b : Byte) (p : Bits), b ≠ 0x0A#8 ∧ b ≠ 0x0D#8 ∧ ([0x61] : List Byte) = [b, 0x3A#8, 0x20#8] ++ ascii p) ∧
    ReadsLine Term.lf.bytes [0x62, 0x3A, 0x20, 0x0A] ([0x62#8, 0x3A#8, 0x20#8] ++ ascii []) [] ∧
    (∃ p : Bits, 255 < p.length ∧ ReadsLine Term.lf.bytes ([0x62, 0x3A, 0x20] ++ ascii p)
      ([0x62#8, 0x3A#8, 0x20#8] ++ ascii p) []) ∧
    ((∃ e ∈ w, e.1 = 97#8) ∧ ReadsLine Term.lf.bytes [0x61, 0x3A, 0x20, 0x31] ([0x61#8, 0x3A#8, 0x20#8] ++ ascii [true]) []) ∧
    ((∀ e ∈ w, e.1 ≠ 98#8) ∧ (∃ e ∈ w, e.2 = [false]) ∧
      ReadsLine Term.lf.bytes [0x62, 0x3A, 0x20, 0x30] ([0x62#8, 0x3A#8, 0x20#8] ++ ascii [false]) []) ∧
    ((∀ e ∈ w, e.2 ≠ [true]) ∧
      ReadsLine Term.lf.bytes [0x62, 0x3A, 0x20, 0x31] ([0x62#8, 0x3A#8, 0x20#8] ++ ascii [true]) []) := by
  unfold ReadsLine
  exact ⟨by decide, ⟨by decide, by decide, fun ⟨b, p, _, _, e⟩ => by simp at e⟩, by decide,
    ⟨List.replicate 256 true, by decide +kernel⟩, by decide, by decide, by decide⟩

theorem witness_Parse :
    (State.SrcReady (start arch3 0 0 0 .lf) ∧ (start arch3 0 0 0 .lf).srcBytes = arch3) ∧
    (State.SrcReady (start [] 0 0 0 .lf) ∧
      parseArchive Term.lf.bytes (start [] 0 0 0 .lf).srcBytes = .error .line1Unterminated) := by
  refine ⟨⟨?_, by decide +kernel⟩, ?_, by decide +kernel⟩ <;> (unfold State.SrcReady; decide)

/-- A malformed archive; an archive of 64 symbols in a capacity of 63, and of 64. -/
theorem witness_Decompress :
    ((start [0x30] 0x800 64 0 .lf).WindowsReady ∧
      parseArchive Term.lf.bytes (start [0x30] 0x800 64 0 .lf).srcBytes = .error .line1Unterminated) ∧
    ((start arch3 0x800 63 0 .lf).WindowsReady ∧ (start arch3 0x800 64 0 .lf).WindowsReady) ∧
    decodeBits (unpack (arch3.drop 26) 0) (startCoded3 [] 0).code 63 = .error .dstOverflow ∧
    decodeBits (unpack (arch3.drop 26) 0) (startCoded3 [] 0).code 64 = .ok bytes3 := by
  exact ⟨⟨ready_of (by decide), by decide +kernel⟩, ⟨ready_of (by decide), ready_of (by decide)⟩, by decide +kernel,
    by decide +kernel⟩

theorem witness_CompressEquals :
    ((start [] 0x800 256 0 .lf).WindowsReady ∧ (start [] 0x800 256 0 .lf).params.srcLen = 0#32) ∧
    ((start [97] 0x800 256 0 .lf).WindowsReady ∧ (start [97] 0x800 256 0 .lf).params.srcLen ≠ 0#32 ∧
      (start [97] 0x800 256 0 .lf).status.errCode ≠ 0x07#8) :=
  ⟨⟨ready_of (by decide), by decide⟩, ready_of (by decide), by decide, by decide⟩

theorem witness_DecompressEquals : (start archEmpty 0x800 0 0 .lf).cfg.wf = true ∧
    (start archEmpty 0x800 0 0 .lf).WindowsReady ∧
    ∃ r : Parsed, parseArchive (start archEmpty 0x800 0 0 .lf).ctrl.term.bytes (start archEmpty 0x800 0 0 .lf).srcBytes =
      .ok r :=
  ⟨by decide, ready_of (by decide), ⟨[], 0, 0, 8⟩, by decide +kernel⟩

/-- Bytes "aaa...ab" of length 30, which get smaller: the archive has 22 bytes. -/
def start2 : State := start (List.replicate 29 97 ++ [98]) 0x800 22 0 .lf

/-- COMPRESS of `start2` succeeds, and the host decompresses the archive to 0xA00 with a capacity of exactly 30. -/
theorem witness_DecompressUndoes :
    start2.status.err = false ∧ start2.status.notcomp = false ∧ exec .compress start2 = .next (ran .compress start2) ∧
    (ran .compress start2).status.err = false ∧ (ran .compress start2).status.notcomp = false ∧
    ((ran .compress start2).selectArchive 0xA00 30).WindowsReady ∧ start2.params.srcLen.toNat ≤ (30#32).toNat := by
  have h : (ran .compress start2).status = ⟨true, false, false, false, 0, 0⟩ ∧ (ran .compress start2).res.len = 22 ∧
      (ran .compress start2).cfg = State.reset.cfg ∧
      (ran .compress start2).params = ⟨0x100, 30, 0x800, 22, 0⟩ := by decide +kernel
  refine ⟨by decide, by decide, exec_ran _ _, by rw [h.1], by rw [h.1], ready_of ?_, by decide⟩
  simp only [State.selectArchive, h.2.1, h.2.2.1, h.2.2.2]
  decide

/-- The same for ENCODE with the table that ASSIGN makes of the counts of these bytes. -/
theorem witness_DecompressUndoesEncode :
    let f := (FreqTable.zero.put 97#8 29#32).put 98#8 1#32
    let s := { start2 with code := assignCodes (buildNodes f) }
    nsym f ≠ 0 ∧ s.code = assignCodes (buildNodes f) ∧ s.status.err = false ∧ s.status.notcomp = false ∧
    exec .encode s = .next (ran .encode s) ∧
    (ran .encode s).status.err = false ∧ (ran .encode s).status.notcomp = false :=
  ⟨by decide +kernel, rfl, by decide, by decide, exec_ran _ _, by decide +kernel⟩

theorem witness_TerminatorMismatch : Term.lf ≠ Term.crlf ∧ Term.crlf ≠ Term.lf := by decide

/-- After CLEAR the host chooses windows; PAD_IN = 7 of one byte leaves one bit. -/
theorem witness_AfterClear :
    let t := ran .clear (startCoded bytesB 0x200 16 0)
    let u := { t with params := ⟨0x100, 1, 0x200, 16, 7⟩ }
    exec .clear (startCoded bytesB 0x200 16 0) = .next t ∧ u.freq = t.freq ∧ u.nodes = t.nodes ∧ u.code = t.code ∧
    u.SrcReady ∧ u.WindowsReady ∧ u.params.srcLen ≠ 0#32 ∧ u.params.padIn.toNat < 8 * u.params.srcLen.toNat := by
  refine ⟨exec_ran _ _, rfl, rfl, rfl, ?_, ready_of (by decide), by decide, by decide⟩
  unfold State.SrcReady; decide

theorem witness_SoftReset : (0x80000000#32).getLsbD 31 = true ∧ State.reset.flight = none ∧
    ¬(0x200 ≤ 0x1FF ∧ 0x1FF < 0x200 + 16) := by decide

theorem witness_StatusAndCtrl : (0x7FFFFFFF#32).getLsbD 31 = false := by decide

/-- The ends of the reserved offsets. The last two clauses are met by every state and by `made` below. -/
theorem witness_ReservedOffsets : ((0x6C ≤ (0x6C#8).toNat ∧ (0x6C#8).toNat < 0x80) ∧
    (0x6C ≤ (0x7F#8).toNat ∧ (0x7F#8).toNat < 0x80) ∧ 0xA0 ≤ (0xA0#8).toNat ∧ 0xA0 ≤ (0xFF#8).toNat) := by decide

/-- A state with a byte stored, the tree of "aaaa" and its code table, in which every invariant holds. -/
def made : State := { State.reset with mem := ⟨[(4095, 7)], 0⟩, nodes := [.leaf 97 4], code := tableOne }

theorem made_nodes : made.nodes = buildNodes freqA := by decide +kernel

theorem made_code : made.code = assignCodes (buildNodes freqA) := by rw [← made_nodes]; rfl

theorem witness_TablesBounded : made.TablesBounded ∧ made.MemoryOk := by
  refine ⟨⟨by decide, fun n f l r h => ?_, fun a => ?_⟩, by decide, by decide⟩
  · simp only [made] at h
    cases n <;> simp at h
  · exact CodeTable.length_get_put_le _ _ _ _ (by simp)

theorem witness_StepKeepsTables : made.RaceRecorded ∧ made.TablesMade ∧ step made = .next made := by
  have hf : FreqTable.NonEmpty freqA := witness_NonEmpty.1
  exact ⟨fun f h => by simp [made, State.reset] at h,
    fun _ => ⟨.inr ⟨freqA, hf, made_nodes⟩, .inr (.inl ⟨freqA, hf, made_code⟩)⟩, rfl⟩

/-- A command in flight that has just been accepted, and an error that stands. -/
theorem witness_OneOutcome :
    let s := State.reset.withFetchWord 32 0x0D
    let u := ran .build State.reset
    (s.RaceRecorded ∧ s.OutcomeOk ∧ s.busy = true) ∧ (u.OutcomeOk ∧ u.status.err = true) := by
  refine ⟨⟨fun f h hr => ?_, ⟨by decide, fun _ => ⟨by decide, by decide⟩⟩, by decide⟩, ⟨?_, fun _ => ⟨?_, ?_⟩⟩, ?_⟩
  · cases h; cases hr
  all_goals decide +kernel

/-- The last read-only offset of the map, and tables that are not empty. -/
theorem witness_Registers : made.flight = none ∧ made.TablesBounded ∧ (0x9C#8 : BitVec 8) ∈ [0x00#8, 0x4C#8, 0x9C#8] :=
  ⟨rfl, witness_TablesBounded.1, by decide⟩

theorem witness_Busy : (State.reset.withFetchWord 32 0x0D).busy = true ∧ RegName.padIn ≠ .ctrl ∧ RegName.padIn ≠ .cmd ∧
    RegName.padIn ≠ .status ∧ (0x00000001#32).getLsbD 31 = false := by decide

/-- Address 0x1FF of DMEM lies just below the destination window of a running command, and is no end of DMEM. -/
theorem witness_ReadsWhileBusy : let s := (startCoded bytesB 0x200 16 0).withFetchWord 32 0x06
    s.busy = true ∧ RegName.nodeSel ∈ [RegName.id, .ctrl, .cmd, .status, .srcAddr, .srcLen, .dstAddr, .dstCap, .padIn, .sel,
      .nodeSel] ∧ 0x1FF < s.cfg.memBytes ∧
    ¬(s.params.dstAddr.toNat ≤ 0x1FF ∧ 0x1FF < s.params.dstAddr.toNat + s.params.dstCap.toNat) := by decide

theorem witness_SymbolWindows : made.flight = none ∧ CodeTable.Bounded made.code ∧ (1#8 : Byte) ≠ made.sel ∧ (31 : Nat) < 32 :=
  ⟨rfl, witness_TablesBounded.1.2.2, by decide, by decide⟩

/-- NODE_SEL at NNODES; a leaf; an internal node. -/
theorem witness_NodeWindows : let nodes := [Node.leaf 97 1, .leaf 98 3, .internal 4 0 1]
    let s := fun n : BitVec 9 => { State.reset with nodes := nodes, nodeSel := n }
    (s 3).flight = none ∧ (s 3).nodes.length ≤ (s 3).nodeSel.toNat ∧
    (s 0).nodes[(s 0).nodeSel.toNat]? = some (.leaf 97 1) ∧
    (s 2).nodes[(s 2).nodeSel.toNat]? = some (.internal 4 0 1) := by decide

/-- The last byte of DMEM and the address after it. -/
theorem witness_DmemPort : State.reset.flight = none ∧ 4095 < State.reset.cfg.memBytes ∧
    State.reset.cfg.memBytes ≤ 4096 ∧ (4094 : Nat) ≠ 4095 := by decide

/-- 0x108 is the last source byte, 0x109 lies in neither window, 0x200 is the first destination byte. -/
theorem witness_HostRace : let s := (startCoded bytesB 0x200 16 0).withFetchWord 32 0x06
    s.flight = some ⟨0, false⟩ ∧ 0x200 < s.cfg.memBytes ∧ s.srcWin.Contains 0x108 ∧ s.dstWin.Contains 0x200 ∧
    ¬ s.srcWin.Contains 0x109 ∧ ¬ s.dstWin.Contains 0x109 ∧
    step { State.reset with recorded := some .hostRace } = .next { State.reset with recorded := some .hostRace } ∧
    ({ State.reset with recorded := some .hostRace } : State).recorded = some .hostRace :=
  ⟨by decide, by decide, by decide, by decide, by decide, by decide, rfl, rfl⟩

/-- PACK, raced: 0x200 is the first byte of its destination window and 0x210 the first one after it; NOP; an illegal word. -/
theorem witness_RacedCommand :
    let s := { startCoded bytesB 0x200 16 0 with cmd := 0x06#32, flight := some ⟨0, true⟩ }
    s.flight = some ⟨0, true⟩ ∧ ¬ s.dstWin.Contains 0x210 ∧ s.dstWin.Contains 0x200 ∧ decode s.cmd = .ok .pack ∧
    Instr.pack ∉ [Instr.scan, .compress, .clear] ∧ Instr.pack ∉ [Instr.build, .compress, .clear] ∧
    Instr.pack ∉ [Instr.assign, .parse, .decompress, .compress, .clear] ∧ Instr.pack ∉ [Instr.measure, .encode, .compress] ∧
    decode 0x00#32 = .ok .nop ∧ decode 0x0E#32 = .error .reservedOpcode := by decide

/-- A command in flight while the host reads a byte, and while the host does nothing. -/
theorem witness_AcceptedCommand :
    let s := { State.reset.acceptAfter 3 0x0D#32 with host := [.memRead 0x100] }
    (s.flight = some ⟨3, false⟩ ∧ s.NoResetPending) ∧
    ((State.reset.acceptAfter 3 0x0D#32).flight = some ⟨3, false⟩ ∧ (State.reset.acceptAfter 3 0x0D#32).host = []) := by
  refine ⟨⟨rfl, fun x hx => ?_⟩, rfl, rfl⟩
  simp only [List.mem_cons, List.not_mem_nil, or_false] at hx
  subst hx
  exact ⟨by decide, fun o v h => by cases h⟩

end Sys2Proof.Tests
end

namespace Sys2Proof.Machine

/-! ## The header's lines and their lengths (42_archive_codec.md R116 to R122) -/

@[simp] theorem line1_length (body pad : Nat) (t : List Byte) :
    (line1 body pad t).length = (dec body).length + 1 + (dec pad).length + t.length := by
  simp [line1]; omega

@[simp] theorem line2_length (code : CodeTable) (t : List Byte) :
    (line2 code t).length = (code.get chLF).length +
      (if (code.get chCR).length ≠ 0 then 1 + (code.get chCR).length else 0) + t.length := by
  unfold line2
  split
  · simp; omega
  · simp

@[simp] theorem symbolLine_length (code : CodeTable) (t : List Byte) (b : Byte) :
    (symbolLine code t b).length = 3 + (code.get b).length + t.length := by
  simp [symbolLine]; omega

@[simp] theorem sentinel_length : sentinel.length = 2 := rfl

/-- The header written has the size computed without writing it (42_archive_codec.md R122). -/
theorem header_length (code : CodeTable) (body pad : Nat) (t : List Byte) :
    (header code body pad t).length = headerSize code body pad t.length := by
  simp only [header, headerSize, List.length_append, List.length_flatMap, line1_length, line2_length,
    symbolLine_length, sentinel_length]

/-- An archive has the projected size (42_archive_codec.md R121, R123). -/
theorem archiveOf_length (code : CodeTable) (t : List Byte) (bits : Bits) :
    (archiveOf code t bits).length = archiveSize code t.length bits.length := by
  simp only [archiveOf, archiveSize, List.length_append, header_length, packBody_length]

/-- A number below ten is spelled with one digit (00_scope.md R15). -/
theorem dec_length_of_lt_ten {n : Nat} (h : n < 10) : (dec n).length = 1 := by
  cases n with
  | zero => rfl
  | succ k => simp [dec, decFuel, h]

/-! ## The bounds of the tables (10_state.md R45, R47) -/

/-- Every child of an internal node stands below it (10_state.md R45). -/
def ChildrenBelow (nodes : List Node) : Prop :=
  ∀ (n : Nat) (f : BitVec 40) (l r : BitVec 9), nodes[n]? = some (.internal f l r) → l.toNat < n ∧ r.toNat < n

/-- The bounds of the node array (10_state.md R45). -/
def TreeBounded (nodes : List Node) : Prop := nodes.length ≤ 511 ∧ ChildrenBelow nodes

theorem State.tablesBounded_iff (s : State) : s.TablesBounded ↔ TreeBounded s.nodes ∧ CodeTable.Bounded s.code :=
  (and_assoc (a := s.nodes.length ≤ 511) (b := ChildrenBelow s.nodes)).symm

theorem treeBounded_nil : TreeBounded [] := ⟨by simp, fun n f l r h => by simp at h⟩

theorem CodeTable.bounded_empty : CodeTable.Bounded CodeTable.empty := fun a => by simp

theorem CodeTable.Bounded.put {c : CodeTable} (h : CodeTable.Bounded c) (s : Byte) (b : Bits) :
    CodeTable.Bounded (c.put s b) := fun a => CodeTable.length_get_put_le c s a b (h a)

theorem CodeTable.bounded_ofEntries (w : Entries) : CodeTable.Bounded (CodeTable.ofEntries w) := by
  induction w using List.reverseRecOn with
  | nil => exact CodeTable.bounded_empty
  | append_singleton w e ih => rw [CodeTable.ofEntries_concat]; exact ih.put _ _

/-- The walk of ASSIGN writes the table through `put` alone, so it keeps every code within 255 bits, whatever the nodes. -/
theorem walk_bounded (nodes : List Node) (k n : Nat) (p : Bits) {c : CodeTable} (h : CodeTable.Bounded c) :
    CodeTable.Bounded (walk nodes k n p c) := by
  induction k generalizing n p c with
  | zero => exact h
  | succ k ih =>
    unfold walk
    split
    · exact h
    · exact h.put _ _
    · exact ih _ _ (ih _ _ h)

theorem assignCodes_bounded (nodes : List Node) : CodeTable.Bounded (assignCodes nodes) := by
  unfold assignCodes
  split
  · exact CodeTable.bounded_empty.put _ _
  · exact walk_bounded _ _ _ _ CodeTable.bounded_empty

/-! ## The tree that BUILD makes keeps the bounds (40_tree_builder.md R97 to R102) -/

theorem extractMin_length {nodes : List Node} {q q' : List Nat} {a : Nat} (h : extractMin nodes q = some (a, q')) :
    q.length = q'.length + 1 := by
  obtain ⟨ha, rfl, -⟩ := extractMin_some h
  rw [List.length_erase_of_mem ha]
  have := List.length_pos_of_mem ha
  omega

/-- Every merge takes two nodes from the queue and puts one back, so a queue of `q` nodes is good for at most `q - 1`
merges. -/
theorem mergeLoop_length_le (k : Nat) (nodes : List Node) (q : List Nat) :
    (mergeLoop k nodes q).length ≤ nodes.length + (q.length - 1) := by
  induction k generalizing nodes q with
  | zero => simp [mergeLoop]
  | succ k ih =>
    unfold mergeLoop
    split
    · omega
    · rename_i a q1 h1
      split
      · omega
      · rename_i b q2 h2
        have e1 := extractMin_length h1
        have e2 := extractMin_length h2
        have := ih (nodes ++ [mergedNode nodes a b]) (q2 ++ [nodes.length])
        simp only [List.length_append, List.length_singleton] at this
        omega

/-- A merge of two nodes that are there keeps every child below its parent. -/
theorem ChildrenBelow.concat_mergedNode {nodes : List Node} (h : ChildrenBelow nodes) {a b : Nat}
    (ha : a < nodes.length) (hb : b < nodes.length) : ChildrenBelow (nodes ++ [mergedNode nodes a b]) := by
  intro n f l r hn
  rcases lt_trichotomy n nodes.length with hlt | rfl | hgt
  · exact h n f l r (by rwa [List.getElem?_append_left hlt] at hn)
  · simp only [List.getElem?_concat_length, mergedNode, Option.some.injEq, Node.internal.injEq] at hn
    obtain ⟨-, rfl, rfl⟩ := hn
    simp only [BitVec.toNat_ofNat]
    exact ⟨lt_of_le_of_lt (Nat.mod_le _ _) ha, lt_of_le_of_lt (Nat.mod_le _ _) hb⟩
  · rw [List.getElem?_eq_none (by simp; omega)] at hn
    cases hn

/-- The queue holds indices of nodes that are there, and every merge adds the new node's index alone. -/
theorem mergeLoop_childrenBelow (k : Nat) {nodes : List Node} {q : List Nat} (h : ChildrenBelow nodes)
    (hq : ∀ i ∈ q, i < nodes.length) : ChildrenBelow (mergeLoop k nodes q) := by
  induction k generalizing nodes q with
  | zero => exact h
  | succ k ih =>
    unfold mergeLoop
    split
    · exact h
    · rename_i a q1 h1
      obtain ⟨ha, rfl, -⟩ := extractMin_some h1
      split
      · exact h
      · rename_i b q2 h2
        obtain ⟨hb, rfl, -⟩ := extractMin_some h2
        refine ih (h.concat_mergedNode (hq a ha) (hq b (List.mem_of_mem_erase hb))) fun i hi => ?_
        simp only [List.length_append, List.length_singleton]
        rcases List.mem_append.1 hi with hi | hi
        · have := hq i (List.mem_of_mem_erase (List.mem_of_mem_erase hi))
          omega
        · have := List.mem_singleton.1 hi
          omega

theorem leafNodes_length_le (f : FreqTable) : (leafNodes f).length ≤ 256 := by
  simpa [leafNodes, presentSymbols, allSymbols] using List.length_filter_le (fun b => f.get b != 0#32) allSymbols

theorem leafNodes_childrenBelow (f : FreqTable) : ChildrenBelow (leafNodes f) := by
  intro n g l r h
  simp [leafNodes, List.getElem?_map] at h

/-- At most 256 leaves and one merge fewer: at most 511 nodes (40_tree_builder.md R102). -/
theorem buildNodes_treeBounded (f : FreqTable) : TreeBounded (buildNodes f) := by
  refine ⟨?_, mergeLoop_childrenBelow _ (leafNodes_childrenBelow f) fun i hi => List.mem_range.1 hi⟩
  have h1 := mergeLoop_length_le (leafNodes f).length (leafNodes f) (List.range (leafNodes f).length)
  have h2 := leafNodes_length_le f
  rw [List.length_range] at h1
  exact le_trans h1 (by omega)

/-! ## What a command leaves in the tables and in DMEM -/

/-- The node array a command can leave: the one it found, none, or one that BUILD makes (30_encoding.md R83). -/
inductive NodesFrom (s : State) : List Node → Prop where
  | same : NodesFrom s s.nodes
  | cleared : NodesFrom s []
  | built (f : FreqTable) (hf : FreqTable.NonEmpty f) : NodesFrom s (buildNodes f)

/-- The code table a command can leave: the one it found, the empty one, one that ASSIGN makes, or the parsed one
(30_encoding.md R83). -/
inductive CodeFrom (s : State) : CodeTable → Prop where
  | same : CodeFrom s s.code
  | cleared : CodeFrom s CodeTable.empty
  | assigned (nodes : List Node) (hn : NodesFrom s nodes) (hne : nodes ≠ []) : CodeFrom s (assignCodes nodes)
  | parsed (r : Parsed) (hr : parseArchive s.term s.srcBytes = .ok r) : CodeFrom s (CodeTable.ofEntries r.entries)

/-- The memory a command can leave: the one it found, or an output of at most DST_CAP bytes stored at DST_ADDR after both
windows have passed their checks (20_memory.md R75). -/
inductive MemFrom (s : State) : Memory → Prop where
  | same : MemFrom s s.mem
  | stored (w : List Byte) (hw : w.length ≤ s.dstCapacity) (hc : s.checkBoth = none) :
    MemFrom s (s.mem.writeBytes s.params.dstAddr.toNat w)

/-- `t` has the parameters of `s`, and its tables and its memory are ones that a command from `s` can leave. -/
structure Leaves (s t : State) : Prop where
  cfg : t.cfg = s.cfg
  params : t.params = s.params
  nodes : NodesFrom s t.nodes
  code : CodeFrom s t.code
  mem : MemFrom s t.mem

theorem Leaves.refl (s : State) : Leaves s s := ⟨rfl, rfl, .same, .same, .same⟩

/-- Updates of the other fields do not matter. -/
theorem Leaves.congr {s u t : State} (h : Leaves s u) (hcfg : t.cfg = u.cfg := by rfl)
    (hparams : t.params = u.params := by rfl) (hnodes : t.nodes = u.nodes := by rfl)
    (hcode : t.code = u.code := by rfl) (hmem : t.mem = u.mem := by rfl) : Leaves s t :=
  ⟨hcfg.trans h.cfg, hparams.trans h.params, hnodes ▸ h.nodes, hcode ▸ h.code, hmem ▸ h.mem⟩

theorem Leaves.raise {s u : State} (h : Leaves s u) (e : ErrCode) : Leaves s (u.raise e) := h.congr
theorem Leaves.notComp {s u : State} (h : Leaves s u) : Leaves s u.notComp := h.congr
theorem Leaves.finish {s u : State} (h : Leaves s u) : Leaves s u.finish := h.congr
theorem Leaves.setFreq {s u : State} (h : Leaves s u) (f : FreqTable) : Leaves s (u.setFreq f) := h.congr
theorem Leaves.setLen {s u : State} (h : Leaves s u) (n : Nat) : Leaves s (u.setLen n) := h.congr
theorem Leaves.setBody {s u : State} (h : Leaves s u) (b p n : Nat) : Leaves s (u.setBody b p n) := h.congr
theorem Leaves.setBits {s u : State} (h : Leaves s u) (n : Nat) : Leaves s (u.setBits n) := h.congr
theorem Leaves.setResults {s u : State} (h : Leaves s u) (r : Results) : Leaves s (u.setResults r) := h.congr
theorem Leaves.setSizes {s u : State} (h : Leaves s u) (n : Nat) : Leaves s (u.setSizes n) := h.congr

theorem Leaves.setNodes {s u : State} (h : Leaves s u) {nodes : List Node} (hn : NodesFrom s nodes) :
    Leaves s (u.setNodes nodes) := { h with nodes := hn }

theorem Leaves.setCode {s u : State} (h : Leaves s u) {code : CodeTable} (hc : CodeFrom s code) :
    Leaves s (u.setCode code) := { h with code := hc }

/-- The completion with an output stored (20_memory.md R75). -/
theorem Leaves.stored {s u : State} (h : Leaves s u) (hm : u.mem = s.mem) {w : List Byte}
    (hw : w.length ≤ s.dstCapacity) (hc : s.checkBoth = none) : Leaves s (u.storeDst w).finish := by
  refine ⟨h.cfg, h.params, h.nodes, h.code, ?_⟩
  rw [State.finish_mem, State.storeDst_mem, hm, h.params]
  exact .stored w hw hc

/-- The output of `decode` fits the capacity (43_prefix_decoder.md R140). -/
theorem decodeLoop_length_le {code : CodeTable} {longest cap : Nat} {bits buf : Bits} {out w : List Byte}
    (h : decodeLoop code longest cap bits buf out = .ok w) (ho : out.length ≤ cap) : w.length ≤ cap := by
  induction bits generalizing buf out with
  | nil =>
    simp only [decodeLoop] at h
    split at h
    · cases h; exact ho
    · cases h
  | cons x r ih =>
    simp only [decodeLoop] at h
    split at h
    · split at h
      · cases h
      · exact ih h (by simp; omega)
    · split at h
      · cases h
      · exact ih h ho

theorem decodeBits_length_le {code : CodeTable} {cap : Nat} {bits : Bits} {w : List Byte}
    (h : decodeBits bits code cap = .ok w) : w.length ≤ cap := decodeLoop_length_le h (Nat.zero_le _)

theorem packInto_leaves {s : State} (bits : Bits) (hc : s.checkBoth = none) : Leaves s (packInto bits s) := by
  unfold packInto
  split
  · exact (Leaves.refl s).raise _
  · rename_i hw
    exact .stored ((Leaves.refl s).setBody ..) rfl (by rw [packBody_length]; omega) hc

theorem unpackInto_leaves {s : State} (bits : Bits) (hc : s.checkBoth = none) : Leaves s (unpackInto bits s) := by
  unfold unpackInto
  split
  · exact (Leaves.refl s).raise _
  · rename_i hw
    exact .stored ((Leaves.refl s).setBits _) rfl (by rw [ascii_length]; omega) hc

/-- The archive stored has the projected size, which has passed the check against DST_CAP (42_archive_codec.md R126). -/
theorem encodeStage_leaves {s v : State} (h : Leaves s v) (hm : v.mem = s.mem) (hc : s.checkBoth = none) :
    Leaves s (encodeStage v) := by
  unfold encodeStage
  split
  · exact h.raise _
  · rename_i bits _
    have sizes := h.setSizes bits.length
    dsimp only
    split
    · exact sizes.notComp
    · split
      · exact sizes.raise _
      · rename_i hfits
        have hcap : v.dstCapacity = s.dstCapacity := congrArg (fun q : Params => q.dstCap.toNat) h.params
        exact .stored sizes hm (by rw [archiveOf_length, ← hcap]; exact Nat.le_of_not_lt hfits) hc

/-- The outcome is a next state with tables and a memory of these kinds. -/
def LeadsOn (s : State) (o : Host.Outcome State Fault Refusal) : Prop := ∃ t, o = .next t ∧ Leaves s t

theorem LeadsOn.next {s t : State} (h : Leaves s t) : LeadsOn s (.next t) := ⟨t, rfl, h⟩

theorem LeadsOn.raise {s u : State} (h : Leaves s u) (e : ErrCode) : LeadsOn s (.next (u.raise e)) := .next (h.raise e)

theorem execScan_leadsOn (s : State) : LeadsOn s (execScan s) := by
  have counted := ((Leaves.refl s).setFreq (countBytes s.srcBytes)).setLen 0
  unfold execScan
  split
  · exact .raise (.refl s) _
  · unfold scanStage
    dsimp only
    split
    · exact .raise counted _
    · exact .next counted.finish

theorem execBuild_leadsOn (s : State) : LeadsOn s (execBuild s) := by
  unfold execBuild buildStage
  split
  · exact .raise (.refl s) _
  · rename_i hf
    exact .next (((Leaves.refl s).setNodes (.built s.freq hf)).setLen 0).finish

theorem execAssign_leadsOn (s : State) : LeadsOn s (execAssign s) := by
  unfold execAssign assignStage
  split
  · exact .raise (.refl s) _
  · rename_i hn
    have hcode : CodeFrom s (assignCodes s.nodes) := .assigned _ .same (hn ∘ List.length_eq_zero_iff.2)
    exact .next (((Leaves.refl s).setCode hcode).setLen 0).finish

theorem execMeasure_leadsOn (s : State) : LeadsOn s (execMeasure s) := by
  unfold execMeasure
  split
  · exact .raise (.refl s) _
  · split
    · exact .raise (.refl s) _
    · split
      · exact .raise (.refl s) _
      · rename_i bits _
        have sizes := ((Leaves.refl s).setSizes bits.length).setLen 0
        dsimp only
        split
        · exact .next sizes.notComp
        · exact .next sizes.finish

theorem execEncode_leadsOn (s : State) : LeadsOn s (execEncode s) := by
  unfold execEncode
  split
  · exact .raise (.refl s) _
  · rename_i hc
    split
    · exact .raise (.refl s) _
    · exact .next (encodeStage_leaves (.refl s) rfl hc)

theorem execPack_leadsOn (s : State) : LeadsOn s (execPack s) := by
  unfold execPack
  split
  · exact .raise (.refl s) _
  · rename_i hc
    split
    · exact .raise (.refl s) _
    · split
      · exact .raise (.refl s) _
      · exact .next (packInto_leaves _ hc)

theorem execPackBits_leadsOn (s : State) : LeadsOn s (execPackBits s) := by
  unfold execPackBits
  split
  · exact .raise (.refl s) _
  · rename_i hc
    split
    · exact .next (packInto_leaves _ hc)
    · exact .raise (.refl s) _

theorem execUnpackBits_leadsOn (s : State) : LeadsOn s (execUnpackBits s) := by
  unfold execUnpackBits
  split
  · exact .raise (.refl s) _
  · rename_i hc
    split
    · exact .raise (.refl s) _
    · exact .next (unpackInto_leaves _ hc)

theorem execDecodeBody_leadsOn (s : State) : LeadsOn s (execDecodeBody s) := by
  unfold execDecodeBody
  split
  · exact .raise (.refl s) _
  · rename_i hc
    split
    · exact .raise (.refl s) _
    · dsimp only
      split
      · exact .raise (.refl s) _
      · rename_i out hout
        exact .next (.stored ((Leaves.refl s).setBits _) rfl (decodeBits_length_le hout) hc)

theorem setParsed_leaves {s : State} {r : Parsed} (h : parseArchive s.term s.srcBytes = .ok r) :
    Leaves s (s.setParsed r) := ((Leaves.refl s).setCode (.parsed r h)).congr

theorem execParse_leadsOn (s : State) : LeadsOn s (execParse s) := by
  rw [execParse_eq]
  split
  · exact .raise (.refl s) _
  · split
    · exact .raise ((Leaves.refl s).setCode .cleared) _
    · rename_i r hr
      exact .next (setParsed_leaves hr).finish

theorem execDecompress_leadsOn (s : State) : LeadsOn s (execDecompress s) := by
  rw [execDecompress_eq]
  split
  · exact .raise (.refl s) _
  · rename_i hc
    split
    · exact .raise ((Leaves.refl s).setCode .cleared) _
    · rename_i r hr
      split
      · exact .raise (setParsed_leaves hr) _
      · rename_i out hout
        exact .next (.stored (setParsed_leaves hr) rfl (decodeBits_length_le hout) hc)

theorem State.afterAssign_mem (s : State) : s.afterAssign.mem = s.mem := by
  simp [State.afterAssign, State.afterBuild, State.afterScan]

theorem execCompress_leadsOn (s : State) : LeadsOn s (execCompress s) := by
  have scanned : Leaves s s.afterScan := ((Leaves.refl s).setFreq _).setLen 0
  rw [execCompress_eq]
  split
  · exact .raise (.refl s) _
  · rename_i hc
    split
    · exact .raise scanned _
    · split
      · exact .raise scanned _
      · rename_i hf
        have hnodes : NodesFrom s (buildNodes (countBytes s.srcBytes)) := .built _ hf
        have built : Leaves s s.afterBuild := (scanned.setNodes hnodes).setLen 0
        split
        · exact .raise built _
        · rename_i hn
          have hcode := CodeFrom.assigned _ hnodes (hn ∘ List.length_eq_zero_iff.2)
          have assigned : Leaves s s.afterAssign := (built.setCode hcode).setLen 0
          exact .next (encodeStage_leaves assigned s.afterAssign_mem hc)

theorem execClear_leadsOn (s : State) : LeadsOn s (execClear s) :=
  .next (((((Leaves.refl s).setFreq _).setNodes .cleared).setCode .cleared).setResults _).finish

/-- Every command leaves tables and a memory of these kinds. -/
theorem exec_leaves {i : Instr} {s t : State} (h : exec i s = .next t) : Leaves s t := by
  obtain ⟨u, hu, hl⟩ : LeadsOn s (exec i s) := by
    cases i with
    | nop => exact .next (Leaves.refl s).finish
    | scan => exact execScan_leadsOn s
    | build => exact execBuild_leadsOn s
    | assign => exact execAssign_leadsOn s
    | measure => exact execMeasure_leadsOn s
    | encode => exact execEncode_leadsOn s
    | pack => exact execPack_leadsOn s
    | packBits => exact execPackBits_leadsOn s
    | unpackBits => exact execUnpackBits_leadsOn s
    | decodeBody => exact execDecodeBody_leadsOn s
    | parse => exact execParse_leadsOn s
    | decompress => exact execDecompress_leadsOn s
    | compress => exact execCompress_leadsOn s
    | clear => exact execClear_leadsOn s
  exact Host.Outcome.next.inj (hu.symm.trans h) ▸ hl

end Sys2Proof.Machine

namespace Sys2Proof.Machine

/-! ## Memory and tables within their bounds: kept by a command, by its free values, and by the host -/

/-- The memory is canonical inside DMEM and the tables are within their bounds. -/
def State.WithinBounds (s : State) : Prop := s.MemoryOk ∧ s.TablesBounded

theorem State.withinBounds_iff (s : State) : s.WithinBounds ↔
    Memory.wf s.cfg.memBytes s.mem ∧ TreeBounded s.nodes ∧ CodeTable.Bounded s.code := by
  rw [State.WithinBounds, State.tablesBounded_iff, State.MemoryOk]

/-- The other fields do not matter. -/
theorem State.WithinBounds.congr {s t : State} (h : s.WithinBounds) (hcfg : t.cfg = s.cfg := by rfl)
    (hmem : t.mem = s.mem := by rfl) (hnodes : t.nodes = s.nodes := by rfl) (hcode : t.code = s.code := by rfl) :
    t.WithinBounds := by
  rw [State.withinBounds_iff] at h ⊢
  rwa [hcfg, hmem, hnodes, hcode]

theorem State.WithinBounds.withMem {s : State} (h : s.WithinBounds) {m : Memory} (hm : Memory.wf s.cfg.memBytes m) :
    State.WithinBounds { s with mem := m } := ⟨hm, h.2⟩

/-! ### A command -/

theorem NodesFrom.treeBounded {s : State} {nodes : List Node} (h : NodesFrom s nodes) (hs : TreeBounded s.nodes) :
    TreeBounded nodes := by
  cases h with
  | same => exact hs
  | cleared => exact treeBounded_nil
  | built f _ => exact buildNodes_treeBounded f

theorem CodeFrom.bounded {s : State} {code : CodeTable} (h : CodeFrom s code) (hs : CodeTable.Bounded s.code) :
    CodeTable.Bounded code := by
  cases h with
  | same => exact hs
  | cleared => exact CodeTable.bounded_empty
  | assigned nodes _ _ => exact assignCodes_bounded nodes
  | parsed r _ => exact CodeTable.bounded_ofEntries r.entries

/-- An output of at most DST_CAP bytes lies in the destination window, which the checks have found in range. -/
theorem MemFrom.wf {s : State} {m : Memory} (h : MemFrom s m) (hs : Memory.wf s.cfg.memBytes s.mem) :
    Memory.wf s.cfg.memBytes m := by
  cases h with
  | same => exact hs
  | stored w hw hc =>
    obtain ⟨-, hdst, -⟩ := s.checkBoth_eq_none.1 hc
    have hin : s.params.dstAddr.toNat + s.dstCapacity ≤ s.cfg.memBytes := hdst
    exact Memory.writeBytes_wf w hs (.inr (by omega))

theorem Leaves.withinBounds {s t : State} (h : Leaves s t) (hs : s.WithinBounds) : t.WithinBounds := by
  rw [State.withinBounds_iff] at hs ⊢
  obtain ⟨hmem, hnodes, hcode⟩ := hs
  exact ⟨h.cfg ▸ h.mem.wf hmem, h.nodes.treeBounded hnodes, h.code.bounded hcode⟩

/-! ### The free values after a HOST_RACE (20_memory.md R72) -/

theorem freeNode_children_lt {draw n : Nat} {f : BitVec 40} {l r : BitVec 9} (h : freeNode draw n = .internal f l r) :
    l.toNat < n ∧ r.toNat < n := by
  unfold freeNode at h
  split at h
  · cases h
  · rename_i hn
    have hpos : 0 < n := by omega
    cases h
    simp only [BitVec.toNat_ofNat]
    exact ⟨lt_of_le_of_lt (Nat.mod_le _ _) (Nat.mod_lt _ hpos), lt_of_le_of_lt (Nat.mod_le _ _) (Nat.mod_lt _ hpos)⟩

theorem freeNodes_treeBounded (draw k : Nat) : TreeBounded ((List.range (k % 512)).map (freeNode draw)) := by
  refine ⟨by simp; omega, fun n f l r h => ?_⟩
  simp only [List.getElem?_map, Option.map_eq_some_iff] at h
  obtain ⟨i, hi, hnode⟩ := h
  obtain ⟨_, rfl⟩ := List.getElem?_eq_some_iff.1 hi
  simp only [List.getElem_range] at hnode
  exact freeNode_children_lt hnode

theorem freeCode_length_le (draw sym : Nat) : (freeCode draw sym).length ≤ 255 := by
  simp [freeCode]; omega

theorem freeCodes_bounded (draw : Nat) :
    CodeTable.Bounded (Vector.ofFn fun i : Fin 256 => freeCode draw i.val) := fun a => by
  simpa [CodeTable.get] using freeCode_length_le draw a.toNat

theorem State.WithinBounds.scramble {s : State} (h : s.WithinBounds) (w : WriteSet) : (s.scramble w).WithinBounds := by
  rw [State.withinBounds_iff] at h ⊢
  obtain ⟨hmem, hnodes, hcode⟩ := h
  refine ⟨?_, ?_, ?_⟩
  · show Memory.wf s.cfg.memBytes (if w.dst then _ else s.mem)
    split
    · exact Memory.scramble_wf hmem _ _
    · exact hmem
  · show TreeBounded (if w.nodes then _ else s.nodes)
    split
    · exact freeNodes_treeBounded _ _
    · exact hnodes
  · show CodeTable.Bounded (if w.code then _ else s.code)
    split
    · exact freeCodes_bounded _
    · exact hcode

theorem State.WithinBounds.settle {s : State} (h : s.WithinBounds) (raced : Bool) (w : WriteSet) :
    (s.settle raced w).WithinBounds := by
  cases raced with
  | false => exact h
  | true => exact h.scramble w

/-! ### The host (10_state.md R22, 20_memory.md R58, 70_reset_and_hazards.md R167, R168) -/

/-- A reset empties the tables and leaves the memory to what comes after it. -/
theorem State.WithinBounds.resetRegs {s : State} (h : s.WithinBounds) : s.resetRegs.WithinBounds := by
  rw [State.withinBounds_iff] at h ⊢
  exact ⟨h.1, treeBounded_nil, CodeTable.bounded_empty⟩

theorem State.WithinBounds.softReset {s : State} (h : s.WithinBounds) : s.softReset.WithinBounds := by
  unfold State.softReset
  split
  · exact (h.resetRegs.withMem (Memory.scramble_wf h.1 _ _)).congr
  · exact h.resetRegs

theorem State.WithinBounds.hardReset {s : State} (h : s.WithinBounds) : s.hardReset.WithinBounds :=
  h.resetRegs.withMem (Memory.powerOn_wf _ _)

theorem State.WithinBounds.writeCtrl {s : State} (h : s.WithinBounds) (v : Word) : (s.writeCtrl v).WithinBounds := by
  unfold State.writeCtrl
  split
  · exact h.softReset
  · exact h.congr

theorem State.WithinBounds.writeCmd {s : State} (h : s.WithinBounds) (v : Word) : (s.writeCmd v).WithinBounds := by
  unfold State.writeCmd State.accept
  split
  · exact h.congr
  · split
    · exact h.congr
    · exact h.congr

theorem State.WithinBounds.writeIdle {s : State} (h : s.WithinBounds) (r : RegName) (v : Word) :
    (s.writeIdle r v).WithinBounds := by
  cases r <;> exact h.congr

theorem State.WithinBounds.writeReg {s : State} (h : s.WithinBounds) (r : RegName) (v : Word) :
    (s.writeReg r v).WithinBounds := by
  unfold State.writeReg
  split
  · exact h.writeCtrl v
  · exact h.writeCmd v
  · exact h.congr
  · split
    · exact h
    · exact h.writeIdle _ v

theorem State.WithinBounds.regWrite {s : State} (h : s.WithinBounds) (o : BitVec 8) (v : Word) :
    (s.regWrite o v).WithinBounds := by
  unfold State.regWrite
  split
  · exact h
  · exact h.writeReg _ v

theorem State.WithinBounds.regRead {s : State} (h : s.WithinBounds) (o : BitVec 8) : (s.regRead o).WithinBounds := by
  obtain ⟨v, n, e⟩ := s.regRead_cases o
  rw [e]
  exact h.congr

theorem State.WithinBounds.memRead {s : State} (h : s.WithinBounds) (a : Nat) : (s.memRead a).WithinBounds := by
  obtain ⟨v, n, e⟩ := s.memRead_cases a
  rw [e]
  exact h.congr

theorem State.WithinBounds.memWrite {s : State} (h : s.WithinBounds) (a : Nat) (v : Byte) :
    (s.memWrite a v).WithinBounds := by
  rcases s.memWrite_cases a v with e | ⟨ha, e⟩ | ⟨ha, f, -, -, e⟩ <;> rw [e]
  · exact h
  · exact h.withMem (Memory.write_wf h.1 ha v)
  · exact (h.withMem (Memory.write_wf h.1 ha v)).congr

theorem State.WithinBounds.access {s : State} (h : s.WithinBounds) (x : HostAction) : (s.access x).WithinBounds := by
  cases x with
  | regWrite o v => exact h.regWrite o v
  | regRead o => exact h.regRead o
  | memWrite a v => exact h.memWrite a v
  | memRead a => exact h.memRead a
  | poll => exact h.regRead _
  | hardReset => exact h.hardReset

theorem State.WithinBounds.hostTurn {s : State} (h : s.WithinBounds) : s.hostTurn.WithinBounds := by
  rcases hostTurn_cases s with ⟨-, e⟩ | ⟨x, rest, -, e⟩ | ⟨rest, -, -, e⟩ <;> rw [e]
  · exact h
  · exact (h.access x).congr
  · exact h.access .poll

/-! ### A step -/

theorem State.WithinBounds.step {s t : State} (hs : s.WithinBounds) (h : step s = .next t) : t.WithinBounds := by
  rcases step_cases h with ⟨-, rfl⟩ | ⟨raced, i, u, -, -, hu, rfl⟩ | ⟨raced, e, -, -, rfl⟩ | ⟨d, raced, -, rfl⟩
  · exact hs.hostTurn
  · exact ((exec_leaves hu).withinBounds hs).settle _ _
  · have raised : s.illegalCommand.WithinBounds := hs.congr
    exact raised.settle _ _
  · have waiting : State.WithinBounds { s with flight := some ⟨d, raced⟩ } := hs.congr
    exact waiting.hostTurn

/-! ### The reset state -/

theorem State.reset_withinBounds : State.reset.WithinBounds :=
  (State.withinBounds_iff _).2 ⟨by simp [Memory.wf, State.reset], treeBounded_nil, CodeTable.bounded_empty⟩

theorem State.reset_tablesMade : State.reset.TablesMade := fun _ => ⟨.inl rfl, .inl rfl⟩

/-- No command is in flight. -/
theorem State.reset_raceRecorded : State.reset.RaceRecorded := fun f h => by cases h

theorem State.reset_outcomeOk : State.reset.OutcomeOk :=
  ⟨fun h => (by cases h), fun _ => ⟨fun _ => ⟨rfl, rfl⟩, fun h => (by cases h)⟩⟩

/-! ## The obligations -/

/-- Settles O28: the header is the concatenation of its lines, and each line has the length that the size formula adds. -/
theorem headerSizeIsTheHeaderLength : Obligations.HeaderSizeIsTheHeaderLength :=
  ⟨fun code body pad t => (header_length code body pad t.bytes).symm,
    fun _ h => dec_length_of_lt_ten (Nat.lt_of_le_of_lt h (by decide))⟩

/-- Settles O56: no command in flight, no byte listed, empty tables, no outcome shown. -/
theorem resetMeetsTheInvariants : Obligations.ResetMeetsTheInvariants :=
  ⟨State.reset_withinBounds.1, State.reset_withinBounds.2, State.reset_tablesMade, State.reset_raceRecorded,
    State.reset_outcomeOk, by decide⟩

/-- Settles O57: by what a step can do (`step_cases`), what a command can leave (`exec_leaves`), and that free values and
host accesses stay within the bounds. -/
theorem stepKeepsMemoryAndTablesBounded : Obligations.StepKeepsMemoryAndTablesBounded :=
  fun _ _ h hmem htables => State.WithinBounds.step ⟨hmem, htables⟩ h

end Sys2Proof.Machine

namespace Sys2Proof.Machine

/-! ## What one access of the host can do to the block (10_state.md R22, 20_memory.md R58) -/

/-- What one access of the host leaves: operands, FREQ, DMEM or what it has read changed; STATUS bits acknowledged or
OVERRUN set; a command accepted; a race recorded; or the block reset. -/
inductive HostEffect (s : State) : State → Prop where
  | operands (ctrl : Ctrl) (params : Params) (sel : BitVec 8) (nodeSel : BitVec 9) (freq : FreqTable) (mem : Memory)
      (readData : Word) (draws : Nat) :
    HostEffect s { s with
      ctrl := ctrl, params := params, sel := sel, nodeSel := nodeSel, freq := freq, mem := mem
      readData := readData, draws := draws }
  | acknowledged (done overrun : Bool) (hdone : done = true → s.status.done = true) :
    HostEffect s { s with status := { s.status with done := done, overrun := overrun } }
  | accepted (w : Word) (delay : Nat) (delays : List Nat) (draws : Nat) (hidle : s.flight = none) :
    HostEffect s { s with
      cmd := w, flight := some ⟨delay, false⟩, status := ⟨false, false, false, s.status.overrun, 0#8, 0#8⟩
      delays := delays, draws := draws }
  | raced (mem : Memory) (f : Flight) (hf : s.flight = some f) :
    HostEffect s { s with mem := mem, flight := some { f with raced := true }, recorded := some .hostRace }
  | reset (mem : Memory) (draws : Nat) : HostEffect s { s.resetRegs with mem := mem, draws := draws }

theorem HostEffect.refl (s : State) : HostEffect s s := .operands ..

/-- Acceptance draws the delay from the list, or freely when the list is used up (30_encoding.md R84, R85). -/
theorem State.accept_eq (w : Word) (s : State) : ∃ (d : Nat) (ds : List Nat) (n : Nat),
    s.accept w = { s with
      cmd := w, flight := some ⟨d, false⟩, status := ⟨false, false, false, s.status.overrun, 0#8, 0#8⟩
      delays := ds, draws := n } := by
  unfold State.accept
  split
  · exact ⟨_, _, _, rfl⟩
  · exact ⟨_, _, _, rfl⟩

theorem State.softReset_effect (s : State) : HostEffect s s.softReset := by
  unfold State.softReset
  split
  · exact .reset ..
  · exact .reset ..

theorem State.writeCtrl_effect (v : Word) (s : State) : HostEffect s (s.writeCtrl v) := by
  unfold State.writeCtrl
  split
  · exact s.softReset_effect
  · exact .operands ..

theorem State.writeCmd_effect (v : Word) (s : State) : HostEffect s (s.writeCmd v) := by
  unfold State.writeCmd
  split
  · exact .acknowledged _ _ id
  · rename_i hb
    obtain ⟨d, ds, n, e⟩ := s.accept_eq v
    rw [e]
    exact .accepted _ _ _ _ (by simpa [State.busy] using hb)

theorem State.writeStatus_effect (v : Word) (s : State) : HostEffect s (s.writeStatus v) :=
  .acknowledged _ _ fun h => (Bool.and_eq_true_iff.1 h).1

theorem State.writeIdle_effect (r : RegName) (v : Word) (s : State) : HostEffect s (s.writeIdle r v) := by
  cases r <;> exact .operands ..

theorem State.writeReg_effect (r : RegName) (v : Word) (s : State) : HostEffect s (s.writeReg r v) := by
  unfold State.writeReg
  split
  · exact s.writeCtrl_effect v
  · exact s.writeCmd_effect v
  · exact s.writeStatus_effect v
  · split
    · exact .refl s
    · exact s.writeIdle_effect _ v

theorem State.regWrite_effect (o : BitVec 8) (v : Word) (s : State) : HostEffect s (s.regWrite o v) := by
  unfold State.regWrite
  split
  · exact .refl s
  · exact s.writeReg_effect _ v

theorem State.regRead_effect (o : BitVec 8) (s : State) : HostEffect s (s.regRead o) := by
  obtain ⟨v, n, e⟩ := s.regRead_cases o
  rw [e]
  exact .operands ..

theorem State.memWrite_effect (a : Nat) (v : Byte) (s : State) : HostEffect s (s.memWrite a v) := by
  rcases s.memWrite_cases a v with e | ⟨-, e⟩ | ⟨-, f, hf, -, e⟩ <;> rw [e]
  · exact .refl s
  · exact .operands ..
  · exact .raced _ f hf

theorem State.memRead_effect (a : Nat) (s : State) : HostEffect s (s.memRead a) := by
  obtain ⟨v, n, e⟩ := s.memRead_cases a
  rw [e]
  exact .operands ..

theorem State.access_effect (x : HostAction) (s : State) : HostEffect s (s.access x) := by
  cases x with
  | regWrite o v => exact s.regWrite_effect o v
  | regRead o => exact s.regRead_effect o
  | memWrite a v => exact s.memWrite_effect a v
  | memRead a => exact s.memRead_effect a
  | poll => exact s.regRead_effect RegName.status.offset
  | hardReset => exact .reset ..

/-- A turn of the host is one access and the list of those still to come (20_memory.md R69). -/
theorem hostTurn_effect (s : State) : ∃ u l, HostEffect s u ∧ s.hostTurn = { u with host := l } := by
  rcases hostTurn_cases s with ⟨-, e⟩ | ⟨x, rest, -, e⟩ | ⟨rest, -, -, e⟩ <;> rw [e]
  · exact ⟨s, _, .refl s, rfl⟩
  · exact ⟨_, _, s.access_effect x, rfl⟩
  · exact ⟨_, _, s.access_effect .poll, rfl⟩

/-! ## What the completion of a command leaves alone and what it says in STATUS (30_encoding.md R85) -/

/-- `t` has BUSY = 0 and DONE = 1 and is `s` in all that no command writes (30_encoding.md R82, R85). -/
structure Completed (s t : State) : Prop where
  flight : t.flight = none
  done : t.status.done = true
  overrun : t.status.overrun = s.status.overrun
  cfg : t.cfg = s.cfg
  ctrl : t.ctrl = s.ctrl
  cmd : t.cmd = s.cmd
  params : t.params = s.params
  sel : t.sel = s.sel
  nodeSel : t.nodeSel = s.nodeSel
  recorded : t.recorded = s.recorded
  host : t.host = s.host
  readData : t.readData = s.readData
  delays : t.delays = s.delays

/-- The outcome of a command in STATUS: an error, not-compressible, or success (60_exceptions.md R155). -/
inductive StatusFrom (s : State) : Status → Prop where
  | raised (e : ErrCode) :
    StatusFrom s { s.status with done := true, err := true, errCode := e.code, errInfo := e.info }
  | notCompressible : StatusFrom s { s.status with done := true, notcomp := true }
  | succeeded : StatusFrom s { s.status with done := true }

theorem Ending.statusFrom {s u t : State} {b : Bool} (hu : Touched s u) (h : Ending s u b t) : StatusFrom s t.status := by
  unfold Touched at hu
  rw [hu] at h
  cases h with
  | raised e => exact .raised e
  | notCompressible => exact .notCompressible
  | finished _ => exact .succeeded
  | stored w _ _ => exact .succeeded

theorem Ending.completed {s u t : State} {b : Bool} (hu : Touched s u) (h : Ending s u b t) :
    Completed s t ∧ t.draws = s.draws := by
  unfold Touched at hu
  rw [hu] at h
  cases h <;> exact ⟨by constructor <;> rfl, rfl⟩

/-- Every command answers a next state. -/
theorem exec_total (i : Instr) (s : State) : ∃ t, exec i s = .next t := by
  obtain ⟨u, t, ht, -, -⟩ := exec_cases i s
  exact ⟨t, ht⟩

theorem exec_completed {i : Instr} {s t : State} (h : exec i s = .next t) : Completed s t ∧ t.draws = s.draws := by
  obtain ⟨u, t', ht, hu, hend⟩ := exec_cases i s
  cases Host.Outcome.next.inj (ht.symm.trans h)
  exact hend.completed hu

theorem exec_statusFrom {i : Instr} {s t : State} (h : exec i s = .next t) : StatusFrom s t.status := by
  obtain ⟨u, t', ht, hu, hend⟩ := exec_cases i s
  cases Host.Outcome.next.inj (ht.symm.trans h)
  exact hend.statusFrom hu

theorem illegalCommand_completed (s : State) : Completed s s.illegalCommand := by constructor <;> rfl

theorem Completed.settle {s t : State} (h : Completed s t) (raced : Bool) (w : WriteSet) :
    Completed s (t.settle raced w) := by
  cases raced with
  | false => exact h
  | true => exact { h with }

/-! ## O58: the tables are ones that BUILD, ASSIGN or a parse made -/

theorem State.RaceRecorded.effect {s t : State} (hs : s.RaceRecorded) (h : HostEffect s t) : t.RaceRecorded := by
  cases h with
  | operands => exact hs
  | acknowledged => exact hs
  | accepted => intro f hf hr; cases hf; cases hr
  | raced => intro _ _ _; rfl
  | reset => intro f hf; cases hf

theorem State.RaceRecorded.hostTurn {s : State} (hs : s.RaceRecorded) : s.hostTurn.RaceRecorded := by
  obtain ⟨u, l, hu, e⟩ := hostTurn_effect s
  have accessed : u.RaceRecorded := hs.effect hu
  rw [e]
  exact accessed

/-- A command that has been raced has its race recorded while it waits. -/
theorem State.RaceRecorded.wait {s : State} (hs : s.RaceRecorded) {d d' : Nat} {raced : Bool}
    (hf : s.flight = some ⟨d, raced⟩) : State.RaceRecorded { s with flight := some ⟨d', raced⟩ } := by
  intro f hf' hr
  cases hf'
  exact hs ⟨d, raced⟩ hf hr

theorem Completed.raceRecorded {s t : State} (h : Completed s t) : t.RaceRecorded := by
  intro f hf
  rw [h.flight] at hf
  cases hf

theorem State.RaceRecorded.step {s t : State} (hs : s.RaceRecorded) (h : step s = .next t) : t.RaceRecorded := by
  rcases step_cases h with ⟨-, rfl⟩ | ⟨raced, i, u, -, -, hu, rfl⟩ | ⟨raced, e, -, -, rfl⟩ | ⟨d, raced, hf, rfl⟩
  · exact hs.hostTurn
  · exact ((exec_completed hu).1.settle _ _).raceRecorded
  · exact ((illegalCommand_completed s).settle _ _).raceRecorded
  · exact (hs.wait hf).hostTurn

theorem State.TablesMade.effect {s t : State} (hs : s.TablesMade) (h : HostEffect s t) : t.TablesMade := by
  cases h with
  | operands => exact hs
  | acknowledged => exact hs
  | accepted => exact hs
  | raced => intro hr; cases hr
  | reset => exact fun _ => ⟨.inl rfl, .inl rfl⟩

theorem State.TablesMade.hostTurn {s : State} (hs : s.TablesMade) : s.hostTurn.TablesMade := by
  obtain ⟨u, l, hu, e⟩ := hostTurn_effect s
  have accessed : u.TablesMade := hs.effect hu
  rw [e]
  exact accessed

/-- The tree is none, or one that BUILD makes of a non-empty frequency table (10_state.md R45). -/
def TreeMade (nodes : List Node) : Prop := nodes = [] ∨ ∃ f : FreqTable, FreqTable.NonEmpty f ∧ nodes = buildNodes f

theorem NodesFrom.made {s : State} {nodes : List Node} (h : NodesFrom s nodes) (hs : TreeMade s.nodes) :
    TreeMade nodes := by
  cases h with
  | same => exact hs
  | cleared => exact .inl rfl
  | built f hf => exact .inr ⟨f, hf, rfl⟩

/-- The code table is empty, one that ASSIGN makes of a built tree, or the one of a well-parsed archive (10_state.md R47). -/
def CodeMade (code : CodeTable) : Prop :=
  code = CodeTable.empty ∨
  (∃ f : FreqTable, FreqTable.NonEmpty f ∧ code = assignCodes (buildNodes f)) ∨
  (∃ (t : Term) (a : List Byte) (r : Parsed), parseArchive t.bytes a = .ok r ∧ code = CodeTable.ofEntries r.entries)

theorem CodeFrom.made {s : State} {code : CodeTable} (h : CodeFrom s code) (hnodes : TreeMade s.nodes)
    (hcode : CodeMade s.code) : CodeMade code := by
  cases h with
  | same => exact hcode
  | cleared => exact .inl rfl
  | assigned nodes hn hne =>
    obtain ⟨f, hf, rfl⟩ := (hn.made hnodes).resolve_left hne
    exact .inr (.inl ⟨f, hf, rfl⟩)
  | parsed r hparse => exact .inr (.inr ⟨s.ctrl.term, s.srcBytes, r, hparse, rfl⟩)

/-- What a command leaves in the tables is made by BUILD, ASSIGN or a parse where what it found is. -/
theorem Leaves.tablesMade {s t : State} (h : Leaves s t) (hr : t.recorded = s.recorded) (hs : s.TablesMade) :
    t.TablesMade := by
  intro ht
  obtain ⟨hnodes, hcode⟩ := hs (hr ▸ ht)
  exact ⟨h.nodes.made hnodes, h.code.made hnodes hcode⟩

/-- The free values of a raced command come with a record of the race, which lifts the claim. -/
theorem State.TablesMade.settle {t : State} {raced : Bool} (hraced : raced = true → t.recorded = some .hostRace)
    (ht : t.TablesMade) (w : WriteSet) : (t.settle raced w).TablesMade := by
  cases raced with
  | false => exact ht
  | true =>
    intro hr
    cases (hraced rfl).symm.trans hr

theorem State.TablesMade.step {s t : State} (hrace : s.RaceRecorded) (hs : s.TablesMade) (h : step s = .next t) :
    t.TablesMade := by
  rcases step_cases h with ⟨-, rfl⟩ | ⟨raced, i, u, hf, -, hu, rfl⟩ | ⟨raced, e, hf, -, rfl⟩ | ⟨d, raced, hf, rfl⟩
  · exact hs.hostTurn
  · have hrec : u.recorded = s.recorded := (exec_completed hu).1.recorded
    exact .settle (fun hr => hrec.trans (hrace _ hf hr)) ((exec_leaves hu).tablesMade hrec hs) _
  · have made : s.illegalCommand.TablesMade := hs
    exact State.TablesMade.settle (t := s.illegalCommand) (fun hr => hrace _ hf hr) made _
  · have waiting : State.TablesMade { s with flight := some ⟨d, raced⟩ } := hs
    exact waiting.hostTurn

/-- Settles O58: by what a step can do (`step_cases`), what an access of the host can do (`HostEffect`) and what a command
can leave in the tables (`exec_leaves`). -/
theorem stepKeepsTablesMade : Obligations.StepKeepsTablesMade :=
  fun _ _ h hrace hmade => ⟨hrace.step h, hmade.step hrace h⟩

/-! ## O59: STATUS shows one outcome -/

/-- The codes of the errors: 0x01 to 0x0B, with a sub-cause of at most 0x0C exactly for MALFORMED_ARCHIVE
(60_exceptions.md R149, R150). -/
theorem ErrCode.code_info_range (e : ErrCode) :
    0x01 ≤ e.code.toNat ∧ e.code.toNat ≤ 0x0B ∧ e.info.toNat ≤ 0x0C ∧ (e.info ≠ 0#8 ↔ e.code = 0x0A#8) := by
  cases e with
  | malformedArchive k => cases k <;> decide
  | _ => decide

theorem State.busy_of_flight {s : State} {f : Flight} (h : s.flight = some f) : s.busy = true := by
  rw [State.busy, h]; rfl

theorem State.OutcomeOk.effect {s t : State} (hs : s.OutcomeOk) (h : HostEffect s t) : t.OutcomeOk := by
  obtain ⟨hbusy, hout⟩ := hs
  cases h with
  | operands => exact ⟨hbusy, hout⟩
  | acknowledged done overrun hdone =>
    refine ⟨fun hb => ?_, hout⟩
    obtain ⟨hd, he, hn⟩ := hbusy hb
    exact ⟨Bool.eq_false_iff.2 fun h => by simp [hdone h] at hd, he, hn⟩
  | accepted => exact ⟨fun _ => ⟨rfl, rfl, rfl⟩, fun _ => ⟨fun _ => ⟨rfl, rfl⟩, fun h => by cases h⟩⟩
  | raced mem f hf =>
    exact ⟨fun _ => hbusy (busy_of_flight hf), fun hr => by cases hr⟩
  | reset => exact ⟨fun h => (by cases h), fun _ => ⟨fun _ => ⟨rfl, rfl⟩, fun h => by cases h⟩⟩

theorem State.OutcomeOk.hostTurn {s : State} (hs : s.OutcomeOk) : s.hostTurn.OutcomeOk := by
  obtain ⟨u, l, hu, e⟩ := hostTurn_effect s
  have accessed : u.OutcomeOk := hs.effect hu
  rw [e]
  exact accessed

/-- A command in flight has met no outcome yet, so it leaves exactly one (60_exceptions.md R155). -/
theorem Completed.outcomeOk {s t : State} (h : Completed s t) (hst : StatusFrom s t.status) (hbusy : s.busy = true)
    (hs : s.OutcomeOk) : t.OutcomeOk := by
  refine ⟨fun hb => ?_, fun hr => ?_⟩
  · rw [State.busy, h.flight] at hb
    cases hb
  · obtain ⟨-, herr, hnot⟩ := hs.1 hbusy
    obtain ⟨hcode, hinfo⟩ := (hs.2 (h.recorded ▸ hr)).1 herr
    generalize t.status = st at hst ⊢
    cases hst with
    | raised e => exact ⟨fun h => by (cases h), fun _ => ⟨hnot, e.code_info_range⟩⟩
    | notCompressible => exact ⟨fun _ => ⟨hcode, hinfo⟩, fun h => by rw [herr] at h; cases h⟩
    | succeeded => exact ⟨fun _ => ⟨hcode, hinfo⟩, fun h => by rw [herr] at h; cases h⟩

/-- The free outcome of a raced command comes with a record of the race, and with BUSY = 0. -/
theorem State.OutcomeOk.settle {t : State} {raced : Bool} (hidle : t.flight = none)
    (hraced : raced = true → t.recorded = some .hostRace) (ht : t.OutcomeOk) (w : WriteSet) :
    (t.settle raced w).OutcomeOk := by
  cases raced with
  | false => exact ht
  | true =>
    refine ⟨fun hb => ?_, fun hr => ?_⟩
    · have hb' : t.flight.isSome = true := hb
      rw [hidle] at hb'
      cases hb'
    · cases (hraced rfl).symm.trans hr

theorem State.OutcomeOk.step {s t : State} (hrace : s.RaceRecorded) (hs : s.OutcomeOk) (h : step s = .next t) :
    t.OutcomeOk := by
  rcases step_cases h with ⟨-, rfl⟩ | ⟨raced, i, u, hf, -, hu, rfl⟩ | ⟨raced, e, hf, -, rfl⟩ | ⟨d, raced, hf, rfl⟩
  · exact hs.hostTurn
  · have hc : Completed s u := (exec_completed hu).1
    exact .settle hc.flight (fun hr => hc.recorded.trans (hrace _ hf hr))
      (hc.outcomeOk (exec_statusFrom hu) (busy_of_flight hf) hs) _
  · have hc := illegalCommand_completed s
    exact .settle hc.flight (fun hr => hrace _ hf hr) (hc.outcomeOk (.raised .illegalCmd) (busy_of_flight hf) hs) _
  · have waiting : State.OutcomeOk { s with flight := some ⟨d, raced⟩ } := ⟨fun _ => hs.1 (busy_of_flight hf), hs.2⟩
    exact waiting.hostTurn

/-- Settles O59: a command in flight shows no outcome, and completes with one (`exec_statusFrom`). -/
theorem stepKeepsOneOutcome : Obligations.StepKeepsOneOutcome :=
  fun _ _ h hrace hout => hout.step hrace h

end Sys2Proof.Machine

namespace Sys2Proof.Machine

/-! ## What each command leaves, by the way it ends (30_encoding.md R85) -/

/-- The ends of the encode stage, with the size registers it has set by then (42_archive_codec.md R126). -/
inductive EncodeEnd (v : State) : State → Prop where
  | noCode : EncodeEnd v (v.raise .noCode)
  | notCompressible (n : Nat) : EncodeEnd v (v.setSizes n).notComp
  | overflow (n : Nat) : EncodeEnd v ((v.setSizes n).raise .dstOverflow)
  | stored (n : Nat) (w : List Byte) : EncodeEnd v ((v.setSizes n).storeDst w).finish

/-- The ends of a command: refused by a check with nothing changed, or one of the command's own. -/
inductive ExecEnd (s : State) : Instr → State → Prop where
  | noped : ExecEnd s .nop s.finish
  | refused (i : Instr) (e : ErrCode) (hi : i ∉ [Instr.nop, .clear]) : ExecEnd s i (s.raise e)
  | scannedNothing : ExecEnd s .scan (s.afterScan.raise .emptyInput)
  | scanned : ExecEnd s .scan s.afterScan.finish
  | built (nodes : List Node) : ExecEnd s .build ((s.setNodes nodes).setLen 0).finish
  | assigned (code : CodeTable) : ExecEnd s .assign ((s.setCode code).setLen 0).finish
  | measured (n : Nat) : ExecEnd s .measure ((s.setSizes n).setLen 0).finish
  | measuredNotCompressible (n : Nat) : ExecEnd s .measure ((s.setSizes n).setLen 0).notComp
  | encoded {t : State} (h : EncodeEnd s t) : ExecEnd s .encode t
  | packed (i : Instr) (hi : i ∈ [Instr.pack, .packBits]) (b p n : Nat) (w : List Byte) :
    ExecEnd s i ((s.setBody b p n).storeDst w).finish
  | unpacked (i : Instr) (hi : i ∈ [Instr.unpackBits, .decodeBody]) (n : Nat) (w : List Byte) :
    ExecEnd s i ((s.setBits n).storeDst w).finish
  | malformed (i : Instr) (hi : i ∈ [Instr.parse, .decompress]) (k : SubCause) :
    ExecEnd s i ((s.setCode CodeTable.empty).raise (.malformedArchive k))
  | parsed (r : Parsed) : ExecEnd s .parse (s.setParsed r).finish
  | undecoded (r : Parsed) (e : ErrCode)
      (he : e = .truncatedStream ∨ e = .dstOverflow ∨ e = .malformedArchive .unmatched) :
    ExecEnd s .decompress ((s.setParsed r).raise e)
  | decompressed (r : Parsed) (w : List Byte) : ExecEnd s .decompress ((s.setParsed r).storeDst w).finish
  | scanStopped (e : ErrCode) : ExecEnd s .compress (s.afterScan.raise e)
  | buildStopped (e : ErrCode) : ExecEnd s .compress (s.afterBuild.raise e)
  | compressed {t : State} (h : EncodeEnd s.afterAssign t) : ExecEnd s .compress t
  | cleared : ExecEnd s .clear
    ((((s.setFreq FreqTable.zero).setNodes []).setCode CodeTable.empty).setResults Results.reset).finish

/-- The outcome is a next state that is one of the command's ends. -/
def EndsIn (s : State) (i : Instr) (o : Host.Outcome State Fault Refusal) : Prop := ∃ t, o = .next t ∧ ExecEnd s i t

theorem ExecEnd.endsIn {s t : State} {i : Instr} (h : ExecEnd s i t) : EndsIn s i (.next t) := ⟨t, rfl, h⟩

theorem encodeStage_end (v : State) : EncodeEnd v (encodeStage v) := by
  unfold encodeStage
  split
  · exact .noCode
  · dsimp only
    split
    · exact .notCompressible _
    · split
      · exact .overflow _
      · exact .stored ..

theorem packInto_end (s : State) {i : Instr} (hi : i ∈ [Instr.pack, .packBits]) (bits : Bits) :
    ExecEnd s i (packInto bits s) := by
  unfold packInto
  split
  · exact .refused i _ (by rintro h; cases i <;> simp at hi h)
  · exact .packed i hi ..

theorem unpackInto_end (s : State) (bits : Bits) : ExecEnd s .unpackBits (unpackInto bits s) := by
  unfold unpackInto
  split
  · exact .refused _ _ (by decide)
  · exact .unpacked _ (by decide) ..

theorem execScan_ends (s : State) : EndsIn s .scan (execScan s) := by
  unfold execScan
  split
  · exact (ExecEnd.refused _ _ (by decide)).endsIn
  · unfold scanStage
    dsimp only
    split
    · exact ExecEnd.scannedNothing.endsIn
    · exact ExecEnd.scanned.endsIn

theorem execBuild_ends (s : State) : EndsIn s .build (execBuild s) := by
  unfold execBuild buildStage
  split
  · exact (ExecEnd.refused _ _ (by decide)).endsIn
  · exact (ExecEnd.built _).endsIn

theorem execAssign_ends (s : State) : EndsIn s .assign (execAssign s) := by
  unfold execAssign assignStage
  split
  · exact (ExecEnd.refused _ _ (by decide)).endsIn
  · exact (ExecEnd.assigned _).endsIn

theorem execMeasure_ends (s : State) : EndsIn s .measure (execMeasure s) := by
  have refused (e : ErrCode) : EndsIn s .measure (.next (s.raise e)) := (ExecEnd.refused _ e (by decide)).endsIn
  unfold execMeasure
  split
  · exact refused _
  · split
    · exact refused _
    · split
      · exact refused _
      · dsimp only
        split
        · exact (ExecEnd.measuredNotCompressible _).endsIn
        · exact (ExecEnd.measured _).endsIn

theorem execEncode_ends (s : State) : EndsIn s .encode (execEncode s) := by
  have refused (e : ErrCode) : EndsIn s .encode (.next (s.raise e)) := (ExecEnd.refused _ e (by decide)).endsIn
  unfold execEncode
  split
  · exact refused _
  · split
    · exact refused _
    · exact (ExecEnd.encoded (encodeStage_end s)).endsIn

theorem execPack_ends (s : State) : EndsIn s .pack (execPack s) := by
  have refused (e : ErrCode) : EndsIn s .pack (.next (s.raise e)) := (ExecEnd.refused _ e (by decide)).endsIn
  unfold execPack
  split
  · exact refused _
  · split
    · exact refused _
    · split
      · exact refused _
      · exact (packInto_end s (by decide) _).endsIn

theorem execPackBits_ends (s : State) : EndsIn s .packBits (execPackBits s) := by
  unfold execPackBits
  split
  · exact (ExecEnd.refused _ _ (by decide)).endsIn
  · split
    · exact (packInto_end s (by decide) _).endsIn
    · exact (ExecEnd.refused _ _ (by decide)).endsIn

theorem execUnpackBits_ends (s : State) : EndsIn s .unpackBits (execUnpackBits s) := by
  unfold execUnpackBits
  split
  · exact (ExecEnd.refused _ _ (by decide)).endsIn
  · split
    · exact (ExecEnd.refused _ _ (by decide)).endsIn
    · exact (unpackInto_end s _).endsIn

theorem execDecodeBody_ends (s : State) : EndsIn s .decodeBody (execDecodeBody s) := by
  have refused (e : ErrCode) : EndsIn s .decodeBody (.next (s.raise e)) := (ExecEnd.refused _ e (by decide)).endsIn
  unfold execDecodeBody
  split
  · exact refused _
  · split
    · exact refused _
    · dsimp only
      split
      · exact refused _
      · exact (ExecEnd.unpacked _ (by decide) _ _).endsIn

theorem execParse_ends (s : State) : EndsIn s .parse (execParse s) := by
  rw [execParse_eq]
  split
  · exact (ExecEnd.refused _ _ (by decide)).endsIn
  · split
    · exact (ExecEnd.malformed _ (by decide) _).endsIn
    · exact (ExecEnd.parsed _).endsIn

theorem execDecompress_ends (s : State) : EndsIn s .decompress (execDecompress s) := by
  rw [execDecompress_eq]
  split
  · exact (ExecEnd.refused _ _ (by decide)).endsIn
  · split
    · exact (ExecEnd.malformed _ (by decide) _).endsIn
    · split
      · rename_i he
        exact (ExecEnd.undecoded _ _ (decodeBits_error he)).endsIn
      · exact (ExecEnd.decompressed _ _).endsIn

theorem execCompress_ends (s : State) : EndsIn s .compress (execCompress s) := by
  rw [execCompress_eq]
  split
  · exact (ExecEnd.refused _ _ (by decide)).endsIn
  · split
    · exact (ExecEnd.scanStopped _).endsIn
    · split
      · exact (ExecEnd.scanStopped _).endsIn
      · split
        · exact (ExecEnd.buildStopped _).endsIn
        · exact (ExecEnd.compressed (encodeStage_end _)).endsIn

/-- Every command ends in one of the ways of `ExecEnd`. -/
theorem exec_ends {i : Instr} {s t : State} (h : exec i s = .next t) : ExecEnd s i t := by
  obtain ⟨u, hu, hend⟩ : EndsIn s i (exec i s) := by
    cases i with
    | nop => exact ExecEnd.noped.endsIn
    | scan => exact execScan_ends s
    | build => exact execBuild_ends s
    | assign => exact execAssign_ends s
    | measure => exact execMeasure_ends s
    | encode => exact execEncode_ends s
    | pack => exact execPack_ends s
    | packBits => exact execPackBits_ends s
    | unpackBits => exact execUnpackBits_ends s
    | decodeBody => exact execDecodeBody_ends s
    | parse => exact execParse_ends s
    | decompress => exact execDecompress_ends s
    | compress => exact execCompress_ends s
    | clear => exact ExecEnd.cleared.endsIn
  exact Host.Outcome.next.inj (hu.symm.trans h) ▸ hend

/-! ## What a command may write (30_encoding.md R83, column "writes") -/

/-- `t` is `s` in every table, result register, outcome field and byte that the write set does not name. -/
structure Within (w : WriteSet) (s t : State) : Prop where
  freq : w.freq = false → t.freq = s.freq
  nodes : w.nodes = false → t.nodes = s.nodes
  code : w.code = false → t.code = s.code
  dst : w.dst = false → t.mem = s.mem
  len : w.len = false → t.res.len = s.res.len
  body : w.body = false → t.res.body = s.res.body ∧ t.res.pad = s.res.pad
  arch : w.arch = false → t.res.hdr = s.res.hdr ∧ t.res.arch = s.res.arch
  bits : w.bits = false → t.res.bits = s.res.bits
  err : w.err = false →
    t.status.err = s.status.err ∧ t.status.errCode = s.status.errCode ∧ t.status.errInfo = s.status.errInfo
  notcomp : w.notcomp = false → t.status.notcomp = s.status.notcomp

section
variable {w : WriteSet} {s u v : State}

theorem Within.refl (w : WriteSet) (s : State) : Within w s s := by constructor <;> simp

theorem Within.trans (h : Within w s u) (h' : Within w u v) : Within w s v where
  freq e := (h'.freq e).trans (h.freq e)
  nodes e := (h'.nodes e).trans (h.nodes e)
  code e := (h'.code e).trans (h.code e)
  dst e := (h'.dst e).trans (h.dst e)
  len e := (h'.len e).trans (h.len e)
  body e := ⟨(h'.body e).1.trans (h.body e).1, (h'.body e).2.trans (h.body e).2⟩
  arch e := ⟨(h'.arch e).1.trans (h.arch e).1, (h'.arch e).2.trans (h.arch e).2⟩
  bits e := (h'.bits e).trans (h.bits e)
  err e := ⟨(h'.err e).1.trans (h.err e).1, (h'.err e).2.1.trans (h.err e).2.1, (h'.err e).2.2.trans (h.err e).2.2⟩
  notcomp e := (h'.notcomp e).trans (h.notcomp e)

theorem Within.finish (h : Within w s u) : Within w s u.finish := { h with }

theorem Within.setFreq (h : Within w s u) (f : FreqTable) (hw : w.freq = true := by rfl) : Within w s (u.setFreq f) :=
  { h with freq := fun e => by simp [hw] at e }

theorem Within.setNodes (h : Within w s u) (nodes : List Node) (hw : w.nodes = true := by rfl) :
    Within w s (u.setNodes nodes) := { h with nodes := fun e => by simp [hw] at e }

theorem Within.setCode (h : Within w s u) (code : CodeTable) (hw : w.code = true := by rfl) :
    Within w s (u.setCode code) := { h with code := fun e => by simp [hw] at e }

theorem Within.setLen (h : Within w s u) (n : Nat) (hw : w.len = true := by rfl) : Within w s (u.setLen n) :=
  { h with len := fun e => by simp [hw] at e }

theorem Within.setBits (h : Within w s u) (n : Nat) (hw : w.bits = true := by rfl) : Within w s (u.setBits n) :=
  { h with bits := fun e => by simp [hw] at e }

theorem Within.setBody (h : Within w s u) (b p n : Nat) (hw : w.body = true := by rfl) (hw' : w.bits = true := by rfl) :
    Within w s (u.setBody b p n) :=
  { h with body := fun e => by simp [hw] at e, bits := fun e => by simp [hw'] at e }

theorem Within.setArch (h : Within w s u) (a b : Nat) (hw : w.arch = true := by rfl) : Within w s (u.setArch a b) :=
  { h with arch := fun e => by simp [hw] at e }

theorem Within.setSizes (h : Within w s u) (n : Nat) (hbody : w.body = true := by rfl) (harch : w.arch = true := by rfl)
    (hbits : w.bits = true := by rfl) : Within w s (u.setSizes n) :=
  (h.setBody _ _ _ hbody hbits).setArch _ _ harch

theorem Within.storeDst (h : Within w s u) (x : List Byte) (hdst : w.dst = true := by rfl)
    (hlen : w.len = true := by rfl) : Within w s (u.storeDst x) :=
  { h with dst := fun e => by simp [hdst] at e, len := fun e => by simp [hlen] at e }

theorem Within.raise (h : Within w s u) (e : ErrCode) (herr : w.err = true := by rfl) (hlen : w.len = true := by rfl) :
    Within w s (u.raise e) :=
  { h with len := fun e => by simp [hlen] at e, err := fun e => by simp [herr] at e }

theorem Within.setResults (h : Within w s u) (r : Results) (hlen : w.len = true := by rfl) (hbody : w.body = true := by rfl)
    (harch : w.arch = true := by rfl) (hbits : w.bits = true := by rfl) : Within w s (u.setResults r) :=
  { h with
    len := fun e => by simp [hlen] at e
    body := fun e => by simp [hbody] at e
    arch := fun e => by simp [harch] at e
    bits := fun e => by simp [hbits] at e }

theorem Within.notComp (h : Within w s u) (hn : w.notcomp = true := by rfl) (hlen : w.len = true := by rfl) :
    Within w s u.notComp :=
  { h with len := fun e => by simp [hlen] at e, notcomp := fun e => by simp [hn] at e }

/-- The free values of a raced command stand in what it may write alone (20_memory.md R72). -/
theorem Within.settle (h : Within w s u) (raced : Bool) : Within w s (u.settle raced w) := by
  cases raced with
  | false => exact h
  | true =>
    obtain ⟨freq, nodes, code, dst, len, body, arch, bits, err, notcomp⟩ := State.scramble_unnamed w u
    exact h.trans ⟨freq, nodes, code, dst, len, body, arch, bits, err, notcomp⟩

end

/-- The encode stage keeps to the write set of ENCODE and to that of COMPRESS, which differ in the tables alone. -/
theorem EncodeEnd.within {w : WriteSet} {s v t : State} (h : EncodeEnd v t) (hv : Within w s v)
    (hw : { w with freq := true, nodes := true, code := true } = writeSetOf .compress) : Within w s t := by
  obtain ⟨freq, nodes, code, dst, len, body, arch, bits, err, notcomp⟩ := w
  cases hw
  cases h with
  | noCode => exact hv.raise _
  | notCompressible n => exact (hv.setSizes n).notComp
  | overflow n => exact (hv.setSizes n).raise _
  | stored n x => exact ((hv.setSizes n).storeDst x).finish

theorem Within.setParsed {w : WriteSet} {s u : State} (h : Within w s u) (r : Parsed) (hcode : w.code = true := by rfl)
    (hlen : w.len = true := by rfl) (hbody : w.body = true := by rfl) (harch : w.arch = true := by rfl)
    (hbits : w.bits = true := by rfl) : Within w s (u.setParsed r) :=
  (((h.setCode _ hcode).setBody _ _ _ hbody hbits).setArch _ _ harch).setLen _ hlen

theorem afterScan_within {w : WriteSet} (s : State) (hfreq : w.freq = true := by rfl) (hlen : w.len = true := by rfl) :
    Within w s s.afterScan := ((Within.refl w s).setFreq _ hfreq).setLen _ hlen

theorem afterBuild_within (s : State) : Within (writeSetOf .compress) s s.afterBuild :=
  ((afterScan_within s).setNodes _).setLen _

theorem afterAssign_within (s : State) : Within (writeSetOf .compress) s s.afterAssign :=
  ((afterBuild_within s).setCode _).setLen _

/-- Every command but NOP and CLEAR may write RES_LEN and the error fields. -/
theorem writeSetOf_len_err {i : Instr} (hi : i ∉ [Instr.nop, .clear]) :
    (writeSetOf i).len = true ∧ (writeSetOf i).err = true := by
  revert hi; cases i <;> decide

theorem ExecEnd.within {s t : State} {i : Instr} (h : ExecEnd s i t) : Within (writeSetOf i) s t := by
  have base := Within.refl (writeSetOf i) s
  cases h with
  | noped => exact base.finish
  | refused i e hi => exact base.raise e (writeSetOf_len_err hi).2 (writeSetOf_len_err hi).1
  | scannedNothing => exact (afterScan_within s).raise _
  | scanned => exact (afterScan_within s).finish
  | built nodes => exact ((base.setNodes nodes).setLen 0).finish
  | assigned code => exact ((base.setCode code).setLen 0).finish
  | measured n => exact ((base.setSizes n).setLen 0).finish
  | measuredNotCompressible n => exact ((base.setSizes n).setLen 0).notComp
  | encoded h => exact h.within base rfl
  | packed i hi b p n w =>
    rcases List.mem_pair.1 hi with rfl | rfl <;> exact ((base.setBody b p n).storeDst w).finish
  | unpacked i hi n w =>
    rcases List.mem_pair.1 hi with rfl | rfl <;> exact ((base.setBits n).storeDst w).finish
  | malformed i hi k =>
    rcases List.mem_pair.1 hi with rfl | rfl <;> exact (base.setCode _).raise _
  | parsed r => exact (base.setParsed r).finish
  | undecoded r e he => exact (base.setParsed r).raise e
  | decompressed r w => exact ((base.setParsed r).storeDst w).finish
  | scanStopped e => exact (afterScan_within s).raise e
  | buildStopped e => exact (afterBuild_within s).raise e
  | compressed h => exact h.within (afterAssign_within s) rfl
  | cleared => exact ((((base.setFreq _).setNodes _).setCode _).setResults _).finish

/-- Every command keeps to its write set. -/
theorem exec_within {i : Instr} {s t : State} (h : exec i s = .next t) : Within (writeSetOf i) s t := (exec_ends h).within

/-! ## O6, O7: completion and the tables -/

/-- A step answers a next state: a turn of the host, or the completion of a command, which never stops. -/
theorem step_total (s : State) : ∃ t, step s = .next t := by
  unfold step
  split
  · exact ⟨_, rfl⟩
  · unfold complete
    split
    · rename_i i _
      obtain ⟨t, ht⟩ := exec_total i s
      rw [ht]
      exact ⟨_, rfl⟩
    · exact ⟨_, rfl⟩
  · exact ⟨_, rfl⟩

theorem step_cfg {s t : State} (h : step s = .next t) : t.cfg = s.cfg := by
  rcases step_cases h with ⟨-, rfl⟩ | ⟨raced, i, u, -, -, hu, rfl⟩ | ⟨raced, e, -, -, rfl⟩ | ⟨d, raced, -, rfl⟩
  · exact s.hostTurn_cfg
  · exact ((exec_completed hu).1.settle _ _).cfg
  · exact ((illegalCommand_completed s).settle _ _).cfg
  · exact State.hostTurn_cfg _

/-- Settles O6: the host's turn keeps the parameters, and a command leaves all that `Completed` lists. -/
theorem everyCommandCompletes : Obligations.EveryCommandCompletes := by
  refine ⟨fun s => ?_, fun i s => ?_⟩
  · obtain ⟨t, ht⟩ := step_total s
    exact ⟨t, ht, step_cfg ht⟩
  · obtain ⟨t, ht⟩ := exec_total i s
    obtain ⟨h, hdraws⟩ := exec_completed ht
    exact ⟨t, ht, h.flight, h.done, h.overrun, h.cfg, h.ctrl, h.cmd, h.params, h.sel, h.nodeSel, h.recorded, h.host,
      h.readData, h.delays, hdraws⟩

/-- A command that is not named for a table does not have it in its write set (30_encoding.md R83). -/
theorem writeSetOf_tables (i : Instr) :
    (i ∉ [Instr.scan, .compress, .clear] → (writeSetOf i).freq = false) ∧
    (i ∉ [Instr.build, .compress, .clear] → (writeSetOf i).nodes = false) ∧
    (i ∉ [Instr.assign, .parse, .decompress, .compress, .clear] → (writeSetOf i).code = false) := by
  cases i <;> decide

/-- A command that is not named for a result register does not have it in its write set (10_state.md R36). -/
theorem writeSetOf_results (i : Instr) :
    (i ∉ [Instr.measure, .encode, .pack, .packBits, .parse, .decompress, .compress, .clear] →
      (writeSetOf i).body = false) ∧
    (i ∉ [Instr.measure, .encode, .parse, .decompress, .compress, .clear] → (writeSetOf i).arch = false) ∧
    (i ∉ [Instr.measure, .encode, .pack, .packBits, .unpackBits, .decodeBody, .parse, .decompress, .compress, .clear] →
      (writeSetOf i).bits = false) := by
  cases i <;> decide

/-- A command that is not named for DMEM or an outcome field does not have it in its write set (10_state.md R31). -/
theorem writeSetOf_mem_outcome (i : Instr) :
    (i ∉ bothWindowCommands → (writeSetOf i).dst = false) ∧
    (i ∈ [Instr.nop, .clear] → (writeSetOf i).err = false) ∧
    (i ∉ [Instr.measure, .encode, .compress] → (writeSetOf i).notcomp = false) := by
  cases i <;> decide

/-- Settles O7: a command keeps to its write set (`exec_within`). -/
theorem tablesChangeOnlyByTheirCommands : Obligations.TablesChangeOnlyByTheirCommands := by
  intro i s t h
  have keeps := exec_within h
  obtain ⟨hfreq, hnodes, hcode⟩ := writeSetOf_tables i
  exact ⟨fun hi => keeps.freq (hfreq hi), fun hi => keeps.nodes (hnodes hi), fun hi => keeps.code (hcode hi)⟩

/-! ## O8: the result registers -/

/-- An error of the encode stage leaves the result registers but RES_LEN, unless it is DST_OVERFLOW, which comes after the
size registers are set (42_archive_codec.md R126, R127). -/
theorem EncodeEnd.res_of_err {v t : State} (h : EncodeEnd v t) (hv : v.status.err = false) (ht : t.status.err = true) :
    t.res.len = 0#32 ∧ (t.res = { v.res with len := 0#32 } ∨ t.status.errCode = 0x05#8) := by
  have success {u : State} (hs : u.status.err = v.status.err) : ¬ u.status.err = true := by simp [hs, hv]
  cases h with
  | noCode => exact ⟨rfl, .inl rfl⟩
  | notCompressible n => exact absurd ht (success rfl)
  | overflow n => exact ⟨rfl, .inr rfl⟩
  | stored n w => exact absurd ht (success rfl)

/-- What an error leaves in the result registers: RES_LEN is 0 and the others stay, but for DST_OVERFLOW of ENCODE and
COMPRESS and for an error of the decode stage of DECOMPRESS (10_state.md R36, 42_archive_codec.md R127, R136). -/
theorem ExecEnd.res_of_err {i : Instr} {s t : State} (h : ExecEnd s i t) (hs : s.status.err = false)
    (ht : t.status.err = true) :
    t.res.len = 0#32 ∧ (t.res = { s.res with len := 0#32 } ∨
      (i ∈ [Instr.encode, .compress] ∧ t.status.errCode = 0x05#8) ∨
      (i = .decompress ∧ (t.status.errCode = 0x05#8 ∨ t.status.errCode = 0x0B#8 ∨ t.status.errInfo = 0x0C#8))) := by
  have success {u : State} (hu : u.status.err = s.status.err) : ¬ u.status.err = true := by simp [hu, hs]
  cases h with
  | noped => exact absurd ht (success rfl)
  | refused => exact ⟨rfl, .inl rfl⟩
  | scannedNothing => exact ⟨rfl, .inl rfl⟩
  | scanned => exact absurd ht (success rfl)
  | built => exact absurd ht (success rfl)
  | assigned => exact absurd ht (success rfl)
  | measured => exact absurd ht (success rfl)
  | measuredNotCompressible => exact absurd ht (success rfl)
  | encoded h =>
    obtain ⟨hlen, hres⟩ := h.res_of_err hs ht
    exact ⟨hlen, hres.imp_right fun hcode => .inl ⟨by decide, hcode⟩⟩
  | packed => exact absurd ht (success rfl)
  | unpacked => exact absurd ht (success rfl)
  | malformed => exact ⟨rfl, .inl rfl⟩
  | parsed => exact absurd ht (success rfl)
  | undecoded r e he =>
    refine ⟨rfl, .inr (.inr ⟨rfl, ?_⟩)⟩
    rcases he with rfl | rfl | rfl
    · exact .inr (.inl rfl)
    · exact .inl rfl
    · exact .inr (.inr rfl)
  | decompressed => exact absurd ht (success rfl)
  | scanStopped => exact ⟨rfl, .inl rfl⟩
  | buildStopped => exact ⟨rfl, .inl rfl⟩
  | compressed h =>
    obtain ⟨hlen, hres⟩ := h.res_of_err hs ht
    exact ⟨hlen, hres.imp_right fun hcode => .inl ⟨by decide, hcode⟩⟩
  | cleared => exact absurd ht (success rfl)

/-- Settles O8: by the write sets, and by what each end of a command leaves after an error (`ExecEnd.res_of_err`). -/
theorem resultRegistersChangeOnlyAsListed : Obligations.ResultRegistersChangeOnlyAsListed := by
  intro i s t hs h
  have keeps := exec_within h
  have onError := (exec_ends h).res_of_err hs
  obtain ⟨hbody, harch, hbits⟩ := writeSetOf_results i
  refine ⟨?_, fun hi => keeps.body (hbody hi), fun hi => keeps.arch (harch hi), fun hi => keeps.bits (hbits hi),
    fun ht => (onError ht).1, fun ht hencode hdecode => ?_⟩
  · rintro rfl
    cases h
    rfl
  · rcases (onError ht).2 with hres | hc | hc
    · exact hres
    · exact absurd hc hencode
    · exact absurd hc hdecode

/-! ## O55: a raced command -/

/-- A command stores inside the destination window alone (20_memory.md R75). -/
theorem MemFrom.read_outside {s : State} {m : Memory} (h : MemFrom s m) {a : Nat} (ha : ¬ s.dstWin.Contains a) :
    m.read a = s.mem.read a := by
  cases h with
  | same => rfl
  | stored w hw hc =>
    refine Memory.read_writeBytes_outside _ _ _ _ fun hin => ha ⟨hin.1, lt_of_lt_of_le hin.2 ?_⟩
    exact Nat.add_le_add_left hw _

/-- The free values of a raced command stand inside the destination window alone (20_memory.md R72). -/
theorem State.settle_read_outside (raced : Bool) (w : WriteSet) (s : State) {a : Nat} (ha : ¬ s.dstWin.Contains a) :
    (s.settle raced w).mem.read a = s.mem.read a := by
  cases raced with
  | false => rfl
  | true =>
    show Memory.read (if w.dst then _ else s.mem) a = _
    split
    · exact Memory.read_scramble_outside _ _ _ _ ha
    · rfl

/-- Completing a raced command, legal or not: what it leaves alone whatever its word. -/
theorem step_of_raced {s : State} (hf : s.flight = some ⟨0, true⟩) : ∃ t, step s = .next t ∧ Completed s t ∧
    (∀ a : Nat, ¬ s.dstWin.Contains a → t.mem.read a = s.mem.read a) ∧
    (∀ i : Instr, decode s.cmd = .ok i → Within (writeSetOf i) s t) ∧
    (∀ e : DecodeError, decode s.cmd = .error e → Within WriteSet.illegal s t) := by
  obtain ⟨t, ht⟩ := step_total s
  refine ⟨t, ht, ?_⟩
  have read {u : State} (w : WriteSet) (hp : u.params = s.params)
      (hu : ∀ a, ¬ s.dstWin.Contains a → u.mem.read a = s.mem.read a) (a : Nat) (ha : ¬ s.dstWin.Contains a) :
      (u.settle true w).mem.read a = s.mem.read a := by
    have hwin : u.dstWin = s.dstWin := by simp only [State.dstWin, hp]
    exact (State.settle_read_outside true w u (hwin ▸ ha)).trans (hu a ha)
  rcases step_cases ht with ⟨hn, -⟩ | ⟨raced, i, u, hr, hd, hu, rfl⟩ | ⟨raced, e, hr, hd, rfl⟩ | ⟨d, raced, hr, -⟩
  · cases hf.symm.trans hn
  · cases hf.symm.trans hr
    refine ⟨(exec_completed hu).1.settle _ _,
      read _ (exec_completed hu).1.params fun a ha => (exec_leaves hu).mem.read_outside ha, fun j hj => ?_, fun e he => ?_⟩
    · cases hd.symm.trans hj
      exact (exec_within hu).settle true
    · cases hd.symm.trans he
  · cases hf.symm.trans hr
    refine ⟨(illegalCommand_completed s).settle _ _, read _ rfl fun a _ => rfl, fun j hj => ?_, fun e he => ?_⟩
    · cases hd.symm.trans hj
    · exact ((Within.refl WriteSet.illegal s).raise .illegalCmd).settle true
  · cases hf.symm.trans hr

/-- Settles O55: a raced command completes, and it and its free values keep to its write set and its window. -/
theorem racedCommandCompletes : Obligations.RacedCommandCompletes := by
  intro s hf
  obtain ⟨t, ht, h, hmem, hlegal, hillegal⟩ := step_of_raced hf
  refine ⟨t, ht, h.flight, h.done, h.overrun, h.ctrl, h.cmd, h.params, h.sel, h.nodeSel, h.recorded, h.cfg, h.host,
    h.readData, h.delays, hmem, fun i hi => ?_, fun e he => ?_⟩
  · have keeps := hlegal i hi
    obtain ⟨hfreq, hnodes, hcode⟩ := writeSetOf_tables i
    obtain ⟨hbody, harch, hbits⟩ := writeSetOf_results i
    obtain ⟨hdst, herr, hnotcomp⟩ := writeSetOf_mem_outcome i
    exact ⟨fun hi => keeps.freq (hfreq hi), fun hi => keeps.nodes (hnodes hi), fun hi => keeps.code (hcode hi),
      fun hi => keeps.dst (hdst hi), fun hi => keeps.len (by rw [hi]; rfl), fun hi => keeps.body (hbody hi),
      fun hi => keeps.arch (harch hi), fun hi => keeps.bits (hbits hi), fun hi => keeps.err (herr hi),
      fun hi => keeps.notcomp (hnotcomp hi)⟩
  · have keeps := hillegal e he
    obtain ⟨hbody, hpad⟩ := keeps.body rfl
    obtain ⟨hhdr, harch⟩ := keeps.arch rfl
    refine ⟨keeps.freq rfl, keeps.nodes rfl, keeps.code rfl, keeps.dst rfl, ?_, keeps.notcomp rfl⟩
    show t.res = ⟨t.res.len, s.res.body, s.res.pad, s.res.hdr, s.res.arch, s.res.bits⟩
    rw [← hbody, ← hpad, ← hhdr, ← harch, ← keeps.bits rfl]

/-! ## O12: SCAN -/

/-- No count wraps: a content of the source window has fewer than 2^32 bytes (40_tree_builder.md R96). -/
theorem get_countBytes_toNat (c : List Byte) (h : c.length < 2 ^ 32) (b : Byte) :
    (FreqTable.get (countBytes c) b).toNat = c.count b := by
  have hle : c.count b ≤ c.length := List.count_le_length
  rw [countBytes, get_foldl_count, FreqTable.get_zero, BitVec.zero_add, BitVec.toNat_ofNat,
    Nat.mod_eq_of_lt (lt_of_le_of_lt hle h)]

/-- Every byte of a content is counted at exactly one symbol. -/
theorem sum_count_allSymbols (c : List Byte) : (allSymbols.map fun b => c.count b).sum = c.length := by
  have hmem : ∀ b ∈ (c : Multiset Byte), b ∈ allSymbols.toFinset := fun b _ => List.mem_toFinset.2 (mem_allSymbols b)
  have h := Multiset.sum_count_eq_card hmem
  rw [List.sum_toFinset _ allSymbols_nodup] at h
  simpa using h

theorem mem_presentSymbols {f : FreqTable} {b : Byte} : b ∈ presentSymbols f ↔ FreqTable.get f b ≠ 0#32 := by
  simp [presentSymbols, mem_allSymbols]

theorem presentSymbols_nodup (f : FreqTable) : (presentSymbols f).Nodup := allSymbols_nodup.filter _

/-- The symbols present in the counts of a content are its bytes. -/
theorem nsym_countBytes (c : List Byte) (h : c.length < 2 ^ 32) : nsym (countBytes c) = c.dedup.length := by
  rw [nsym_eq_length]
  refine ((List.perm_ext_iff_of_nodup (presentSymbols_nodup _) c.nodup_dedup).2 fun b => ?_).length_eq
  rw [mem_presentSymbols, List.mem_dedup, ← List.count_pos_iff, ← get_countBytes_toNat c h b, Nat.pos_iff_ne_zero,
    ne_eq, ne_eq, ← BitVec.toNat_inj]
  rfl

theorem State.srcBytes_length_lt (s : State) : s.srcBytes.length < 2 ^ 32 := by
  rw [State.srcBytes_length]
  exact s.params.srcLen.isLt

/-- SCAN of a window in range (40_tree_builder.md R96). -/
theorem execScan_of_ready {s : State} (h : s.SrcReady) : execScan s =
    .next (if s.srcLength = 0 then s.afterScan.raise .emptyInput else s.afterScan.finish) := by
  simp only [execScan, State.checkSrc_ready h, scanStage]
  split
  · rfl
  · rfl

/-- Settles O12: SCAN by its cases, with the counts as those of `countBytes`. -/
theorem scanCountsTheSourceBytes : Obligations.ScanCountsTheSourceBytes := by
  intro s
  have scan : exec .scan s = execScan s := rfl
  have counted := get_countBytes_toNat _ s.srcBytes_length_lt
  refine ⟨fun h => ?_, fun h h0 => ?_, fun h h0 => ⟨countBytes s.srcBytes, ?_, counted, ?_, ?_⟩⟩
  · rw [scan, execScan, State.checkSrc_notReady h]
  · have hlen : s.srcLength = 0 := by rw [State.srcLength, h0]; rfl
    have hempty : s.srcBytes = [] := List.length_eq_zero_iff.1 (s.srcBytes_length.trans hlen)
    rw [scan, execScan_of_ready h, if_pos hlen, State.afterScan, hempty]
    rfl
  · have hlen : s.srcLength ≠ 0 := fun e => h0 (BitVec.eq_of_toNat_eq e)
    rw [scan, execScan_of_ready h, if_neg hlen]
    rfl
  · simp only [counted, sum_count_allSymbols, State.srcBytes_length]
    rfl
  · exact nsym_countBytes _ s.srcBytes_length_lt

end Sys2Proof.Machine

namespace Sys2Proof.Machine

/-! ## The tree as a shape: which symbol stands at the end of which path (40_tree_builder.md R104) -/

/-- A binary tree with symbols at its leaves, as the node array represents it. -/
inductive Shape where
  | leaf (b : Byte)
  | node (l r : Shape)

/-- The symbols at the leaves, from left to right. -/
def Shape.symbols : Shape → List Byte
  | .leaf b => [b]
  | .node l r => l.symbols ++ r.symbols

/-- The length of the longest path. -/
def Shape.depth : Shape → Nat
  | .leaf _ => 0
  | .node l r => max l.depth r.depth + 1

/-- The path to the leaf of a symbol, 0 for left and 1 for right. -/
def Shape.path (b : Byte) : Shape → Option Bits
  | .leaf a => if a = b then some [] else none
  | .node l r => match l.path b with
    | some p => some (false :: p)
    | none => (r.path b).map (true :: ·)

/-- The table that the walk of ASSIGN makes from `c` of a tree reached by the path `p` (40_tree_builder.md R105). -/
def Shape.assign : Shape → Bits → CodeTable → CodeTable
  | .leaf b, p, c => c.put b p
  | .node l r, p, c => r.assign (p ++ [true]) (l.assign (p ++ [false]) c)

/-- The code of a symbol: its path, or "0" where the tree is one leaf (40_tree_builder.md R104, R106). -/
def Shape.codeOf (b : Byte) : Shape → Bits
  | .leaf a => if a = b then [false] else []
  | .node l r => ((Shape.node l r).path b).getD []

/-- Node `i` of the array is the root of the tree. -/
inductive Represents (nodes : List Node) : Nat → Shape → Prop where
  | leaf {i : Nat} {b : Byte} {g : BitVec 40} (h : nodes[i]? = some (.leaf b g)) : Represents nodes i (.leaf b)
  | node {i : Nat} {g : BitVec 40} {l r : BitVec 9} {L R : Shape} (h : nodes[i]? = some (.internal g l r))
      (hl : Represents nodes l.toNat L) (hr : Represents nodes r.toNat R) : Represents nodes i (.node L R)

theorem getElem?_append_of_some {nodes : List Node} {i : Nat} {x : Node} (h : nodes[i]? = some x) (more : List Node) :
    (nodes ++ more)[i]? = some x := by
  rw [List.getElem?_append_left (List.getElem?_eq_some_iff.1 h).1, h]

/-- Nodes appended later leave a tree as it is. -/
theorem Represents.append {nodes : List Node} {i : Nat} {T : Shape} (h : Represents nodes i T) (more : List Node) :
    Represents (nodes ++ more) i T := by
  induction h with
  | leaf h => exact .leaf (getElem?_append_of_some h more)
  | node h _ _ ihl ihr => exact .node (getElem?_append_of_some h more) ihl ihr

/-- A path goes down in the array, so it is no longer than the index of the root. -/
theorem Represents.depth_le {nodes : List Node} (hb : ChildrenBelow nodes) {i : Nat} {T : Shape}
    (h : Represents nodes i T) : T.depth ≤ i := by
  induction h with
  | leaf h => exact Nat.zero_le _
  | node h _ _ ihl ihr =>
    obtain ⟨hl, hr⟩ := hb _ _ _ _ h
    simp only [Shape.depth]
    omega

/-- The walk of ASSIGN follows the tree, given fuel for its longest path (40_tree_builder.md R105). -/
theorem Represents.walk_eq {nodes : List Node} {n : Nat} {T : Shape} (h : Represents nodes n T) {k : Nat}
    (hk : T.depth < k) (p : Bits) (c : CodeTable) : walk nodes k n p c = T.assign p c := by
  induction h generalizing k p c with
  | leaf h =>
    obtain ⟨k, rfl⟩ : ∃ j, k = j + 1 := ⟨k - 1, by omega⟩
    simp only [walk, h, Shape.assign]
  | node h _ _ ihl ihr =>
    obtain ⟨k, rfl⟩ : ∃ j, k = j + 1 := ⟨k - 1, by omega⟩
    simp only [Shape.depth] at hk
    simp only [walk, h, Shape.assign]
    rw [ihl (by omega), ihr (by omega)]

namespace Shape

theorem path_eq_none {b : Byte} {T : Shape} : T.path b = none ↔ b ∉ T.symbols := by
  induction T with
  | leaf a => simp [path, symbols, eq_comm]
  | node l r ihl ihr =>
    simp only [path, symbols, List.mem_append, not_or, ← ihl, ← ihr]
    cases l.path b <;> simp

theorem mem_symbols_of_path {b : Byte} {T : Shape} {p : Bits} (h : T.path b = some p) : b ∈ T.symbols := by
  by_contra hb
  rw [path_eq_none.2 hb] at h
  cases h

/-- A path into a tree of two subtrees is a path into one of them. -/
theorem path_node_some {b : Byte} {l r : Shape} {p : Bits} (h : (node l r).path b = some p) :
    (∃ q, l.path b = some q ∧ p = false :: q) ∨ (∃ q, r.path b = some q ∧ p = true :: q) := by
  simp only [path] at h
  split at h
  · rename_i q hq
    exact .inl ⟨q, hq, (Option.some.inj h).symm⟩
  · obtain ⟨q, hq, e⟩ := Option.map_eq_some_iff.1 h
    exact .inr ⟨q, hq, e.symm⟩

/-- No leaf stands below another (40_tree_builder.md R107). -/
theorem eq_of_path_prefix {a b : Byte} {T : Shape} {p q : Bits} (ha : T.path a = some p) (hb : T.path b = some q)
    (h : p <+: q) : a = b := by
  induction T generalizing p q with
  | leaf s =>
    obtain rfl := List.mem_singleton.1 (mem_symbols_of_path ha)
    exact (List.mem_singleton.1 (mem_symbols_of_path hb)).symm
  | node l r ihl ihr =>
    rcases path_node_some ha with ⟨p', ha', rfl⟩ | ⟨p', ha', rfl⟩ <;>
      rcases path_node_some hb with ⟨q', hb', rfl⟩ | ⟨q', hb', rfl⟩ <;>
      obtain ⟨hbit, htail⟩ := List.cons_prefix_cons.1 h
    · exact ihl ha' hb' htail
    · cases hbit
    · cases hbit
    · exact ihr ha' hb' htail

theorem depth_lt_length (T : Shape) : T.depth < T.symbols.length := by
  induction T with
  | leaf a => simp [depth, symbols]
  | node l r ihl ihr =>
    simp only [depth, symbols, List.length_append]
    omega

/-- The walk gives every symbol of the tree its path as code and leaves the other codes alone: no path is as long as 256
bits, and no symbol has two leaves. -/
theorem get_assign {T : Shape} (hn : T.symbols.Nodup) (p : Bits) (hp : p.length + T.depth ≤ 255) (c : CodeTable)
    (b : Byte) : CodeTable.get (T.assign p c) b = ((T.path b).map (p ++ ·)).getD (CodeTable.get c b) := by
  induction T generalizing p c with
  | leaf a =>
    simp only [assign, path]
    split
    · rename_i e
      subst e
      rw [CodeTable.get_put_same _ _ (by omega)]
      simp
    · rename_i e
      rw [CodeTable.get_put_ne _ (Ne.symm e)]
      rfl
  | node l r ihl ihr =>
    obtain ⟨hl, hr, hdisj⟩ := List.nodup_append'.1 hn
    simp only [depth] at hp
    have hlen (x : Bool) : (p ++ [x]).length = p.length + 1 := by simp
    rw [assign, ihr hr _ (by rw [hlen]; omega), ihl hl _ (by rw [hlen]; omega), path]
    cases hpl : l.path b with
    | some x =>
      rw [path_eq_none.2 (hdisj (mem_symbols_of_path hpl))]
      simp
    | none => cases r.path b <;> simp

theorem codeOf_ne_nil {b : Byte} {T : Shape} : T.codeOf b ≠ [] ↔ b ∈ T.symbols := by
  cases T with
  | leaf a =>
    simp only [codeOf, symbols, List.mem_singleton]
    split <;> simp_all [eq_comm]
  | node l r =>
    rw [codeOf]
    cases h : (node l r).path b with
    | none => simpa using path_eq_none.1 h
    | some p =>
      have hne : p ≠ [] := by
        rcases path_node_some h with ⟨q, -, rfl⟩ | ⟨q, -, rfl⟩ <;> simp
      simpa [hne] using mem_symbols_of_path h

theorem eq_of_codeOf_prefix {a b : Byte} {T : Shape} (ha : T.codeOf a ≠ []) (h : T.codeOf a <+: T.codeOf b) : a = b := by
  have hb : T.codeOf b ≠ [] := fun e => ha (List.prefix_nil.1 (e ▸ h))
  cases T with
  | leaf s =>
    obtain rfl := List.mem_singleton.1 (codeOf_ne_nil.1 ha)
    exact (List.mem_singleton.1 (codeOf_ne_nil.1 hb)).symm
  | node l r =>
    obtain ⟨p, hp⟩ : ∃ p, (node l r).path a = some p :=
      Option.ne_none_iff_exists'.1 fun e => path_eq_none.1 e (codeOf_ne_nil.1 ha)
    obtain ⟨q, hq⟩ : ∃ q, (node l r).path b = some q :=
      Option.ne_none_iff_exists'.1 fun e => path_eq_none.1 e (codeOf_ne_nil.1 hb)
    refine eq_of_path_prefix hp hq ?_
    simpa only [codeOf, hp, hq, Option.getD_some] using h

end Shape

/-- The table of a tree gives every symbol the code that its leaf has there (40_tree_builder.md R105, R106). -/
theorem Represents.get_assignCodes {nodes : List Node} {T : Shape} (h : Represents nodes (rootIndex nodes) T)
    (hb : ChildrenBelow nodes) (hn : T.symbols.Nodup) (hlen : T.symbols.length ≤ 256) (b : Byte) :
    CodeTable.get (assignCodes nodes) b = T.codeOf b := by
  have hdepth := T.depth_lt_length
  cases T with
  | leaf a =>
    cases h with
    | leaf h =>
      simp only [assignCodes, h, Shape.codeOf]
      split
      · rename_i e
        rw [e, CodeTable.get_put_same _ _ (by simp)]
      · rename_i e
        rw [CodeTable.get_put_ne _ (Ne.symm e), CodeTable.get_empty]
  | node l r =>
    have hwalk := h.walk_eq (k := nodes.length) (lt_of_le_of_lt (h.depth_le hb) (by
      cases h with
      | node h _ _ => exact (List.getElem?_eq_some_iff.1 h).1)) [] CodeTable.empty
    cases h with
    | node h _ _ =>
      simp only [assignCodes, h, hwalk, Shape.codeOf]
      rw [Shape.get_assign hn [] (by simp; omega)]
      simp

/-! ## The merges of BUILD (40_tree_builder.md R97 to R103) -/

/-- Node `k` is internal, with two different children below it and the sum of their freqs as its freq
(40_tree_builder.md R101). -/
def IsMerge (nodes : List Node) (k : Nat) : Prop :=
  ∃ (g : BitVec 40) (l r : BitVec 9), nodes[k]? = some (.internal g l r) ∧ l.toNat < k ∧ r.toNat < k ∧ l ≠ r ∧
    g.toNat = nodeFreq nodes l.toNat + nodeFreq nodes r.toNat

/-- Node `i` is a child of some internal node. -/
def IsChild (nodes : List Node) (i : Nat) : Prop :=
  ∃ (k : Nat) (g : BitVec 40) (l r : BitVec 9), nodes[k]? = some (.internal g l r) ∧ (l.toNat = i ∨ r.toNat = i)

/-- The sum of FREQ, without wrap. -/
def totalFreq (f : FreqTable) : Nat := (allSymbols.map fun b => (FreqTable.get f b).toNat).sum

/-- What holds of the nodes made so far and the queue during BUILD: the leaves stand first; every later node is a merge of
two earlier ones; every node is in the queue or a child; the queue holds the whole sum of FREQ; and it holds trees whose
leaves are together the symbols present, each once. -/
structure Merging (f : FreqTable) (nodes : List Node) (q : List Nat) : Prop where
  leaves : leafNodes f <+: nodes
  merges : ∀ k, nsym f ≤ k → k < nodes.length → IsMerge nodes k
  queued : ∀ i ∈ q, i < nodes.length
  nodup : q.Nodup
  owned : ∀ i, i < nodes.length → i ∉ q → IsChild nodes i
  count : nodes.length + q.length = 2 * nsym f
  total : (q.map (nodeFreq nodes)).sum = totalFreq f
  shapes : ∃ shape : Nat → Shape, (∀ i ∈ q, Represents nodes i (shape i)) ∧
    (q.flatMap fun i => (shape i).symbols).Perm (presentSymbols f)

theorem IsMerge.append {nodes : List Node} {k : Nat} (h : IsMerge nodes k) (hk : k < nodes.length) (more : List Node) :
    IsMerge (nodes ++ more) k := by
  obtain ⟨g, l, r, hn, hl, hr, hne, hg⟩ := h
  refine ⟨g, l, r, getElem?_append_of_some hn more, hl, hr, hne, ?_⟩
  rw [nodeFreq_append _ _ (by omega), nodeFreq_append _ _ (by omega), hg]

theorem IsChild.append {nodes : List Node} {i : Nat} (h : IsChild nodes i) (more : List Node) :
    IsChild (nodes ++ more) i := by
  obtain ⟨k, g, l, r, hn, hi⟩ := h
  exact ⟨k, g, l, r, getElem?_append_of_some hn more, hi⟩

theorem allSymbols_length : allSymbols.length = 256 := by simp [allSymbols]

theorem nsym_le (f : FreqTable) : nsym f ≤ 256 := by
  rw [nsym_eq_length, ← allSymbols_length]
  exact List.length_filter_le _ _

theorem leafNodes_length (f : FreqTable) : (leafNodes f).length = nsym f := by
  rw [nsym_eq_length, leafNodes, List.length_map]

/-- 256 counts of 32 bits sum to a value of 40 bits (40_tree_builder.md R103). -/
theorem totalFreq_lt (f : FreqTable) : totalFreq f < 2 ^ 40 := by
  have h := List.sum_le_card_nsmul (allSymbols.map fun b => (FreqTable.get f b).toNat) (2 ^ 32 - 1) (by
    intro x hx
    obtain ⟨b, -, rfl⟩ := List.mem_map.1 hx
    have := (FreqTable.get f b).isLt
    omega)
  rw [List.length_map, allSymbols_length, smul_eq_mul] at h
  exact lt_of_le_of_lt h (by norm_num)

section
variable {f : FreqTable} {nodes : List Node} {q : List Nat}

/-- The order of the queue does not matter. -/
theorem Merging.perm (h : Merging f nodes q) {q' : List Nat} (hq : q.Perm q') : Merging f nodes q' := by
  obtain ⟨shape, hshape, hsyms⟩ := h.shapes
  exact {
    leaves := h.leaves
    merges := h.merges
    queued := fun i hi => h.queued i (hq.mem_iff.2 hi)
    nodup := hq.nodup_iff.1 h.nodup
    owned := fun i hi hnot => h.owned i hi (mt hq.mem_iff.1 hnot)
    count := by rw [← hq.length_eq]; exact h.count
    total := by rw [← (hq.map _).sum_eq]; exact h.total
    shapes := ⟨shape, fun i hi => hshape i (hq.mem_iff.2 hi), (hq.flatMap_right _).symm.trans hsyms⟩ }

/-- Indices and freqs of a merge fit their widths: the queue still holds the two nodes that it merges. -/
theorem Merging.mergedNode_eq {a b : Nat} (h : Merging f nodes (a :: b :: q)) :
    ∃ (g : BitVec 40) (l r : BitVec 9), mergedNode nodes a b = .internal g l r ∧ l.toNat = a ∧ r.toNat = b ∧
      g.toNat = nodeFreq nodes a + nodeFreq nodes b := by
  have hcount := h.count
  have htotal := h.total
  have hf := totalFreq_lt f
  have hsym := nsym_le f
  have ha := h.queued a (by simp)
  have hb := h.queued b (by simp)
  simp only [List.length_cons] at hcount
  simp only [List.map_cons, List.sum_cons] at htotal
  refine ⟨_, _, _, rfl, ?_, ?_, ?_⟩ <;> rw [BitVec.toNat_ofNat] <;> exact Nat.mod_eq_of_lt (by omega)

/-- The tree of a merged node is made of the trees of its children. -/
theorem Merging.merge_shapes {a b : Nat} (h : Merging f nodes (a :: b :: q)) :
    ∃ shape : Nat → Shape,
      (∀ i ∈ q ++ [nodes.length], Represents (nodes ++ [mergedNode nodes a b]) i (shape i)) ∧
      ((q ++ [nodes.length]).flatMap fun i => (shape i).symbols).Perm (presentSymbols f) := by
  obtain ⟨shape, hshape, hsyms⟩ := h.shapes
  obtain ⟨g, l, r, e, rfl, rfl, -⟩ := h.mergedNode_eq
  have old : ∀ i ∈ q, i ≠ nodes.length := fun i hi => (h.queued i (by simp [hi])).ne
  refine ⟨Function.update shape nodes.length (.node (shape l.toNat) (shape r.toNat)), fun i hi => ?_, ?_⟩
  · rcases List.mem_append.1 hi with hi | hi
    · rw [Function.update_of_ne (old i hi)]
      exact (hshape i (by simp [hi])).append _
    · obtain rfl := List.mem_singleton.1 hi
      rw [Function.update_self, e]
      exact .node List.getElem?_concat_length ((hshape _ (by simp)).append _) ((hshape _ (by simp)).append _)
  · have hq : (q.flatMap fun i =>
        (Function.update shape nodes.length (.node (shape l.toNat) (shape r.toNat)) i).symbols) =
        q.flatMap fun i => (shape i).symbols :=
      List.flatMap_congr fun i hi => by rw [Function.update_of_ne (old i hi)]
    rw [List.flatMap_append, hq, List.flatMap_singleton, Function.update_self]
    refine (List.perm_append_comm.trans ?_).trans hsyms
    rw [Shape.symbols, List.flatMap_cons, List.flatMap_cons, List.append_assoc]

/-- A merge of two nodes of the queue keeps the invariant (40_tree_builder.md R97, R101). -/
theorem Merging.merge {a b : Nat} (h : Merging f nodes (a :: b :: q)) :
    Merging f (nodes ++ [mergedNode nodes a b]) (q ++ [nodes.length]) := by
  obtain ⟨g, l, r, e, rfl, rfl, hg⟩ := h.mergedNode_eq
  have hl := h.queued l.toNat (by simp)
  have hr := h.queued r.toNat (by simp)
  have hnew : (nodes ++ [mergedNode nodes l.toNat r.toNat])[nodes.length]? = some (.internal g l r) := by
    rw [e, List.getElem?_concat_length]
  have hnodup := h.nodup
  simp only [List.nodup_cons, List.mem_cons, not_or] at hnodup
  obtain ⟨⟨hne, -⟩, -, hq⟩ := hnodup
  have old : ∀ i ∈ q, i < nodes.length := fun i hi => h.queued i (by simp [hi])
  have hlen : (nodes ++ [mergedNode nodes l.toNat r.toNat]).length = nodes.length + 1 := by simp
  exact {
    leaves := h.leaves.trans (List.prefix_append _ _)
    merges := fun k hk hk' => by
      rcases Nat.lt_succ_iff_lt_or_eq.1 (hlen ▸ hk') with hlt | rfl
      · exact (h.merges k hk hlt).append hlt _
      · refine ⟨g, l, r, hnew, hl, hr, fun e => hne (congrArg _ e), ?_⟩
        rw [nodeFreq_append _ _ hl, nodeFreq_append _ _ hr, hg]
    queued := fun i hi => by
      rcases List.mem_append.1 hi with hi | hi
      · exact hlen ▸ Nat.lt_succ_of_lt (old i hi)
      · exact hlen ▸ Nat.lt_succ_of_le (List.mem_singleton.1 hi).le
    nodup := List.nodup_append'.2 ⟨hq, List.nodup_singleton _, by
      simpa using fun hi => (old _ hi).ne rfl⟩
    owned := fun i hi hnot => by
      simp only [List.mem_append, List.mem_singleton, not_or] at hnot
      by_cases hchild : l.toNat = i ∨ r.toNat = i
      · exact ⟨_, g, l, r, hnew, hchild⟩
      · refine (h.owned i (by omega) ?_).append _
        simp only [List.mem_cons, not_or]
        exact ⟨fun e => hchild (.inl e.symm), fun e => hchild (.inr e.symm), hnot.1⟩
    count := by
      have := h.count
      simp only [List.length_cons] at this
      simp only [List.length_append, List.length_singleton]
      omega
    total := by
      have htotal := h.total
      have hmap : q.map (nodeFreq (nodes ++ [mergedNode nodes l.toNat r.toNat])) = q.map (nodeFreq nodes) :=
        List.map_congr_left fun i hi => nodeFreq_append _ _ (old i hi)
      simp only [List.map_cons, List.sum_cons] at htotal
      rw [List.map_append, List.sum_append, hmap, List.map_singleton, List.sum_singleton, nodeFreq_concat_last, e,
        Node.freq, hg]
      omega
    shapes := h.merge_shapes }

end

/-- The queue before and after an extraction (40_tree_builder.md R100). -/
theorem extractMin_perm {nodes : List Node} {q q' : List Nat} {a : Nat} (h : extractMin nodes q = some (a, q')) :
    q.Perm (a :: q') := by
  obtain ⟨ha, rfl, -⟩ := extractMin_some h
  exact List.perm_cons_erase ha

/-- The merge loop ends with one node in the queue, the root (40_tree_builder.md R102). -/
theorem mergeLoop_merging {f : FreqTable} (k : Nat) {nodes : List Node} {q : List Nat} (h : Merging f nodes q)
    (hq : q ≠ []) (hk : q.length ≤ k + 1) : ∃ root, Merging f (mergeLoop k nodes q) [root] := by
  induction k generalizing nodes q with
  | zero =>
    obtain ⟨root, rfl⟩ := List.length_eq_one_iff.1 (le_antisymm hk (List.length_pos_iff.2 hq))
    exact ⟨root, h⟩
  | succ k ih =>
    unfold mergeLoop
    split
    · rename_i hnone
      exact absurd (extractMin_none hnone) hq
    · rename_i a q1 h1
      split
      · rename_i hnone
        obtain rfl := extractMin_none hnone
        exact ⟨a, h.perm (extractMin_perm h1)⟩
      · rename_i b q2 h2
        have hperm : q.Perm (a :: b :: q2) := (extractMin_perm h1).trans ((extractMin_perm h2).cons a)
        have hlen := hperm.length_eq
        refine ih (h.perm hperm).merge (by simp) ?_
        simp only [List.length_cons, List.length_append, List.length_nil] at hlen ⊢
        omega

/-! ### The leaves -/

theorem leafNodes_getElem? {f : FreqTable} {k : Nat} {b : Byte} (h : (presentSymbols f)[k]? = some b) :
    (leafNodes f)[k]? = some (.leaf b ((FreqTable.get f b).setWidth 40)) := by
  rw [leafNodes, List.getElem?_map, h]
  rfl

/-- The symbols that are not present add nothing. -/
theorem sum_presentSymbols (f : FreqTable) :
    ((presentSymbols f).map fun b => (FreqTable.get f b).toNat).sum = totalFreq f := by
  have key (l : List Byte) : ((l.filter fun b => FreqTable.get f b != 0#32).map fun b => (FreqTable.get f b).toNat).sum =
      (l.map fun b => (FreqTable.get f b).toNat).sum := by
    induction l with
    | nil => rfl
    | cons b r ih =>
      by_cases hb : FreqTable.get f b = 0#32
      · simp [hb, ih]
      · simp [hb, ih]
  exact key allSymbols

theorem nodeFreq_of_getElem? {nodes : List Node} {i : Nat} {n : Node} (h : nodes[i]? = some n) :
    nodeFreq nodes i = n.freq.toNat := by
  rw [nodeFreq, h]
  rfl

theorem map_nodeFreq_leafNodes (f : FreqTable) :
    (List.range (nsym f)).map (nodeFreq (leafNodes f)) = (presentSymbols f).map fun b => (FreqTable.get f b).toNat := by
  refine List.ext_getElem (by simp [nsym_eq_length]) fun i _ h => ?_
  rw [List.length_map] at h
  rw [List.getElem_map, List.getElem_range, nodeFreq_of_getElem? (leafNodes_getElem? (List.getElem?_eq_getElem h)),
    List.getElem_map, Node.freq, BitVec.toNat_setWidth]
  exact Nat.mod_eq_of_lt (by have := (FreqTable.get f (presentSymbols f)[i]).isLt; omega)

/-- The invariant before the first merge: every node is a leaf, and in the queue (40_tree_builder.md R97, R98). -/
theorem leafNodes_merging (f : FreqTable) : Merging f (leafNodes f) (List.range (nsym f)) where
  leaves := List.prefix_rfl
  merges k hk hk' := absurd (leafNodes_length f ▸ hk') (Nat.not_lt.2 hk)
  queued i hi := by rwa [leafNodes_length, ← List.mem_range]
  nodup := List.nodup_range
  owned i hi hnot := by
    rw [leafNodes_length] at hi
    exact absurd (List.mem_range.2 hi) hnot
  count := by rw [leafNodes_length, List.length_range]; omega
  total := by rw [map_nodeFreq_leafNodes, sum_presentSymbols]
  shapes := by
    refine ⟨fun i => .leaf ((presentSymbols f)[i]?.getD 0), fun i hi => ?_, .of_eq ?_⟩
    · rw [List.mem_range, nsym_eq_length] at hi
      have hb := List.getElem?_eq_getElem hi
      show Represents (leafNodes f) i (.leaf ((presentSymbols f)[i]?.getD 0))
      rw [hb]
      exact .leaf (leafNodes_getElem? hb)
    · simp only [Shape.symbols]
      rw [nsym_eq_length, ← List.map_eq_flatMap]
      refine List.ext_getElem (by simp) fun i _ h => ?_
      simp [h]

/-- The last node is no child, because a child stands below its parent: it is the node left in the queue. -/
theorem Merging.root_eq {f : FreqTable} {nodes : List Node} {root : Nat} (h : Merging f nodes [root])
    (hb : ChildrenBelow nodes) : root = rootIndex nodes := by
  have hroot := h.queued root (by simp)
  by_contra hne
  obtain ⟨k, g, l, r, hk, hchild⟩ := h.owned (rootIndex nodes) (by rw [rootIndex]; omega) (by simpa using Ne.symm hne)
  have hlt := (List.getElem?_eq_some_iff.1 hk).1
  obtain ⟨hl, hr⟩ := hb k g l r hk
  rw [rootIndex] at hchild
  omega

/-- BUILD's tree has one node left in the queue, the last (40_tree_builder.md R102). -/
theorem buildNodes_merging {f : FreqTable} (hf : FreqTable.NonEmpty f) :
    Merging f (buildNodes f) [rootIndex (buildNodes f)] := by
  have start := leafNodes_merging f
  rw [← leafNodes_length] at start
  obtain ⟨root, h⟩ := mergeLoop_merging (leafNodes f).length start
    (fun e => hf (leafNodes_length f ▸ List.range_eq_nil.1 e)) (by simp)
  have hbuilt : Merging f (buildNodes f) [root] := h
  exact hbuilt.root_eq (buildNodes_treeBounded f).2 ▸ hbuilt

/-! ## O14, O18: the tree of BUILD and the codes of ASSIGN -/

theorem presentSymbols_pairwise (f : FreqTable) : (presentSymbols f).Pairwise fun a b => a.toNat < b.toNat := by
  refine List.Pairwise.filter _ (List.pairwise_map.2 ?_)
  refine List.pairwise_lt_range.imp_of_mem fun {i j} hi hj h => ?_
  rw [List.mem_range] at hi hj
  rwa [BitVec.toNat_ofNat, BitVec.toNat_ofNat, Nat.mod_eq_of_lt hi, Nat.mod_eq_of_lt hj]

/-- Settles O14: by the invariant of the merge loop (`Merging`) with the root alone in the queue. -/
theorem builtTreeHasNLeavesAndNMinusOneMerges : Obligations.BuiltTreeHasNLeavesAndNMinusOneMerges := by
  intro f hf
  have h := buildNodes_merging hf
  have hcount : (buildNodes f).length + 1 = 2 * nsym f := h.count
  have hlen : (buildNodes f).length = 2 * nsym f - 1 := by omega
  refine ⟨presentSymbols f, presentSymbols_pairwise f, fun b => mem_presentSymbols, (nsym_eq_length f).symm, hlen,
    fun k b hk => ?_, fun k hk hk' => h.merges k hk (hlen ▸ hk'), fun i hi => ?_, ?_⟩
  · obtain ⟨more, hmore⟩ := h.leaves
    rw [← hmore]
    exact getElem?_append_of_some (leafNodes_getElem? hk) more
  · exact h.owned i (by omega) (by rw [List.mem_singleton, rootIndex]; omega)
  · simpa [totalFreq] using h.total

/-- BUILD's tree as a shape: its leaves are the symbols present, and its paths are the codes that ASSIGN makes. -/
theorem exists_shape_buildNodes {f : FreqTable} (hf : FreqTable.NonEmpty f) : ∃ T : Shape,
    T.symbols.Perm (presentSymbols f) ∧ ∀ b, CodeTable.get (assignCodes (buildNodes f)) b = T.codeOf b := by
  obtain ⟨shape, hshape, hsyms⟩ := (buildNodes_merging hf).shapes
  rw [List.flatMap_singleton] at hsyms
  have hlen : (shape (rootIndex (buildNodes f))).symbols.length ≤ 256 := by
    rw [hsyms.length_eq, ← nsym_eq_length]
    exact nsym_le f
  exact ⟨_, hsyms, (hshape _ (by simp)).get_assignCodes (buildNodes_treeBounded f).2
    (hsyms.nodup_iff.2 (presentSymbols_nodup f)) hlen⟩

/-- Settles O18: codes are the paths to the leaves of a tree (`exists_shape_buildNodes`), and no leaf stands below
another. -/
theorem assignedCodesArePrefixFree : Obligations.AssignedCodesArePrefixFree := by
  intro f hf
  obtain ⟨T, hsyms, hcode⟩ := exists_shape_buildNodes hf
  have hmem (b : Byte) : CodeTable.get (assignCodes (buildNodes f)) b ≠ [] ↔ FreqTable.get f b ≠ 0#32 := by
    rw [hcode, Shape.codeOf_ne_nil, hsyms.mem_iff, mem_presentSymbols]
  refine ⟨fun a b ha h => ?_, assignCodes_bounded _, hmem, ?_⟩
  · rw [hcode, hcode] at h
    rw [hcode] at ha
    exact Shape.eq_of_codeOf_prefix (fun e => ha (List.length_eq_zero_iff.2 e)) h
  · rw [ncodes_eq_length, nsym_eq_length, presentSymbols]
    congr 1
    refine List.filter_congr fun b _ => ?_
    rw [Bool.eq_iff_iff, bne_iff_ne, bne_iff_ne, ← hmem b]
    exact not_congr List.length_eq_zero_iff

end Sys2Proof.Machine

namespace Sys2Proof.Machine

/-! ## The register port by name (10_state.md R22, R23) -/

/-- The map read in both directions (10_state.md R23). -/
@[simp] theorem RegName.ofOffset_offset (r : RegName) : RegName.ofOffset r.offset = some r := by
  cases r with
  | codeBitsWin k => revert k; decide
  | _ => rfl

theorem State.regWrite_offset (s : State) (r : RegName) (v : Word) : s.regWrite r.offset v = s.writeReg r v := by
  rw [State.regWrite, RegName.ofOffset_offset]

/-- A read while BUSY = 0 gives the register's value (10_state.md R24 to R43). -/
theorem State.regRead_idle {s : State} (h : s.flight = none) (r : RegName) :
    s.regRead r.offset = { s with readData := s.readReg r } := by
  simp only [State.regRead, RegName.ofOffset_offset, State.busy, h, Option.isSome_none, Bool.false_and]
  rfl

/-- So does a read of a register that reads true while BUSY = 1 (10_state.md R55). -/
theorem State.regRead_true {r : RegName} (h : r.trueWhileBusy = true) (s : State) :
    s.regRead r.offset = { s with readData := s.readReg r } := by
  simp only [State.regRead, RegName.ofOffset_offset, h, Bool.not_true, Bool.and_false]
  rfl

theorem State.readData_idle {s : State} (h : s.flight = none) (r : RegName) :
    (s.regRead r.offset).readData = s.readReg r := by rw [State.regRead_idle h]

theorem State.readData_true {r : RegName} (h : r.trueWhileBusy = true) (s : State) :
    (s.regRead r.offset).readData = s.readReg r := by rw [State.regRead_true h]

/-- The registers that take a write while BUSY = 1 too (10_state.md R56). -/
def RegName.writableWhileBusy : RegName → Bool
  | .ctrl | .cmd | .status => true
  | _ => false

/-- The other registers are written while BUSY = 0 alone (10_state.md R56). -/
theorem State.writeReg_eq {r : RegName} (h : r.writableWhileBusy = false) (v : Word) (s : State) :
    s.writeReg r v = if s.busy then s else s.writeIdle r v := by
  cases r with
  | ctrl | cmd | status => cases h
  | _ => rfl

theorem State.regWrite_idle {s : State} (hs : s.flight = none) {r : RegName} (h : r.writableWhileBusy = false) (v : Word) :
    s.regWrite r.offset v = s.writeIdle r v := by
  simp only [State.regWrite_offset, State.writeReg_eq h, State.busy, hs, Option.isSome_none]
  rfl

theorem State.regWrite_busy {s : State} (hs : s.busy = true) {r : RegName} (h : r.writableWhileBusy = false) (v : Word) :
    s.regWrite r.offset v = s := by
  rw [State.regWrite_offset, State.writeReg_eq h, if_pos hs]

theorem State.regWrite_ctrl (s : State) (v : Word) : s.regWrite 0x04#8 v = s.writeCtrl v := s.regWrite_offset .ctrl v

theorem State.regWrite_cmd (s : State) (v : Word) : s.regWrite 0x08#8 v = s.writeCmd v := s.regWrite_offset .cmd v

theorem State.regWrite_status (s : State) (v : Word) : s.regWrite 0x0C#8 v = s.writeStatus v := s.regWrite_offset .status v

/-- A CTRL write with bit [31] set is the soft reset (10_state.md R25). -/
theorem State.writeCtrl_reset {v : Word} (h : v.getLsbD 31 = true) (s : State) : s.writeCtrl v = s.softReset := by
  rw [State.writeCtrl, if_pos h]

theorem State.writeCtrl_noReset {v : Word} (h : v.getLsbD 31 = false) (s : State) : s.writeCtrl v =
    { s with ctrl := ⟨v.getLsbD 0, if s.busy then s.ctrl.term else s.ctrl.term.write (v.extractLsb' 1 2)⟩ } := by
  rw [State.writeCtrl, if_neg (Bool.eq_false_iff.1 h)]

/-! ## O44, O43: reset -/

/-- A reset but for DMEM: every register and table at its reset value (10_state.md R54). -/
structure RegsReset (t : State) : Prop where
  ctrl : t.ctrl = ⟨false, .lf⟩
  cmd : t.cmd = 0#32
  flight : t.flight = none
  status : t.status = ⟨false, false, false, false, 0#8, 0#8⟩
  params : t.params = ⟨0#32, 0#32, 0#32, 0#32, 0#3⟩
  res : t.res = ⟨0#32, 0#32, 0#3, 0#32, 0#32, 0#32⟩
  sel : t.sel = 0#8
  nodeSel : t.nodeSel = 0#9
  tables : ∀ b : Byte, FreqTable.get t.freq b = 0#32 ∧ CodeTable.get t.code b = []
  nodes : t.nodes = []

theorem State.reset_regsReset : RegsReset State.reset where
  ctrl := rfl
  cmd := rfl
  flight := rfl
  status := rfl
  params := rfl
  res := rfl
  sel := rfl
  nodeSel := rfl
  tables b := ⟨FreqTable.get_zero b, CodeTable.get_empty b⟩
  nodes := rfl

theorem State.resetRegs_regsReset (s : State) : RegsReset s.resetRegs := { State.reset_regsReset with }

theorem State.hardReset_regsReset (s : State) : RegsReset s.hardReset := { s.resetRegs_regsReset with }

theorem State.softReset_regsReset (s : State) : RegsReset s.softReset := by
  unfold State.softReset
  split
  · exact { s.resetRegs_regsReset with }
  · exact s.resetRegs_regsReset

/-- DMEM after a soft reset while no command is in flight (70_reset_and_hazards.md R168). -/
theorem State.softReset_mem_idle {s : State} (h : s.flight = none) : s.softReset.mem = s.mem := by
  rw [State.softReset, State.busy, h]
  rfl

/-- A soft reset leaves DMEM outside the destination window (70_reset_and_hazards.md R168). -/
theorem State.softReset_read_outside (s : State) {a : Nat} (ha : ¬ s.dstWin.Contains a) :
    s.softReset.mem.read a = s.mem.read a := by
  unfold State.softReset
  split
  · exact Memory.read_scramble_outside _ _ _ _ ha
  · rfl

/-- Settles O44: the CTRL write is the soft reset, which resets registers and tables and leaves DMEM outside the window. -/
theorem softResetKeepsDmem : Obligations.SoftResetKeepsDmem := by
  intro s v hv
  refine ⟨s.softReset, by rw [State.regWrite_ctrl, State.writeCtrl_reset hv], ?_⟩
  obtain ⟨ctrl, cmd, flight, status, params, res, sel, nodeSel, tables, nodes⟩ := s.softReset_regsReset
  exact ⟨ctrl, cmd, flight, status, params, res, sel, nodeSel, tables, nodes, State.softReset_mem_idle,
    fun a ha => s.softReset_read_outside ha⟩

/-- Settles O43: a hard reset and the reset state list no byte, so every byte reads its power-on value. -/
theorem hardResetValues : Obligations.HardResetValues := by
  intro s t h
  obtain ⟨hregs, hm⟩ : RegsReset t ∧ t.mem.cells = [] := by
    rcases h with rfl | rfl
    · exact ⟨s.hardReset_regsReset, rfl⟩
    · exact ⟨State.reset_regsReset, rfl⟩
  obtain ⟨ctrl, cmd, flight, status, params, res, sel, nodeSel, tables, nodes⟩ := hregs
  refine ⟨ctrl, cmd, flight, status, params, res, sel, nodeSel, tables, nodes, ?_, rfl, fun a => ?_⟩
  · rw [State.irq, ctrl]
    rfl
  · rw [Memory.read, hm]
    rfl

/-! ## O49, O50: the port while BUSY = 1 -/

/-- Settles O49: every register but CTRL, CMD and STATUS is frozen (`State.regWrite_busy`). -/
theorem operandsAreFrozenWhileBusy : Obligations.OperandsAreFrozenWhileBusy := by
  intro s r v hb
  refine ⟨fun hctrl hcmd hstatus => State.regWrite_busy hb ?_ v, fun hv => ?_, ?_, ?_⟩
  · cases r with
    | ctrl => exact absurd rfl hctrl
    | cmd => exact absurd rfl hcmd
    | status => exact absurd rfl hstatus
    | _ => rfl
  · rw [State.regWrite_ctrl, State.writeCtrl_noReset hv, hb]
    rfl
  · rw [State.regWrite_cmd, State.writeCmd, if_pos hb]
  · rw [State.regWrite_status]
    rfl

/-- Settles O50: the registers listed read true, and no read changes more than what was read and the count of draws. -/
theorem readsWhileBusy : Obligations.ReadsWhileBusy := by
  intro s _
  refine ⟨fun r hr => State.regRead_true ?_ s, fun r => s.regRead_cases _, s.memRead_cases, fun a ha hout => ?_⟩
  · revert r; decide
  · rw [State.memRead, if_neg (Nat.not_le.2 ha), if_neg fun h => hout h.2]

/-! ## O4, O5: a step and the acceptance of a command -/

theorem settleOutcome_false (w : WriteSet) (o : Host.Outcome State Fault Refusal) : settleOutcome false w o = o := by
  cases o <;> rfl

theorem step_of_complete {s : State} {i : Instr} (hf : s.flight = some ⟨0, false⟩) (hd : decode s.cmd = .ok i) :
    step s = exec i s := by
  simp only [step, hf, complete, hd, settleOutcome_false]

theorem step_of_waiting {s : State} {d : Nat} {raced : Bool} (hf : s.flight = some ⟨d + 1, raced⟩) :
    step s = .next { s with flight := some ⟨d, raced⟩ }.hostTurn := by
  simp only [step, hf]
  rfl

theorem step_of_idle {s : State} (hf : s.flight = none) : step s = .next s.hostTurn := by simp only [step, hf]

theorem hostTurn_nil {s : State} (h : s.host = []) : s.hostTurn = s := by simp only [State.hostTurn, h]

/-- A poll ends while BUSY = 0 and DONE = 1 (30_encoding.md R88). -/
theorem State.pollEnds_iff (s : State) : s.pollEnds = true ↔ s.flight = none ∧ s.status.done = true := by
  simp [State.pollEnds, State.busy]

/-- A poll reads STATUS and stays first until it ends (30_encoding.md R88). -/
theorem hostTurn_poll {s : State} {rest : List HostAction} (h : s.host = .poll :: rest) :
    s.hostTurn = { s.regRead 0x0C#8 with
      host := if s.flight = none ∧ s.status.done = true then rest else .poll :: rest } := by
  simp only [State.hostTurn, h, State.pollEnds_iff]
  split
  · rfl
  · have keeps : (s.access .poll).host = .poll :: rest := (State.access_keeps .poll s).2.trans h
    rw [← keeps]
    rfl

/-- Settles O4: `step` by its three cases, a turn of the host by its three, and each access by name. -/
theorem stepRunsTheDecodedCommand : Obligations.StepRunsTheDecodedCommand :=
  ⟨fun _ _ => step_of_complete, fun _ _ _ => step_of_waiting, fun _ => step_of_idle, fun _ => hostTurn_nil,
    fun _ _ _ => hostTurn_cons, fun _ _ => hostTurn_poll, fun _ _ _ _ _ => ⟨rfl, rfl, rfl, rfl, rfl⟩⟩

/-- Settles O5: the CMD write accepts the word, with a delay that the model chooses (`State.accept_eq`). -/
theorem acceptanceOfACommandWord : Obligations.AcceptanceOfACommandWord := by
  intro s w h
  obtain ⟨d, ds, n, e⟩ := s.accept_eq w
  refine ⟨d, ds, n, ?_⟩
  rw [State.regWrite_cmd, State.writeCmd, State.busy, h]
  exact e

/-! ## O46, O47: STATUS, CTRL and the interrupt output -/

/-- The terminator that a CTRL write leaves (10_state.md R25). -/
theorem Term.write_eq (v : BitVec 2) (t : Term) :
    t.write v = if v = 0#2 then .lf else if v = 1#2 then .crlf else t := by
  revert v
  cases t <;> decide

/-- CTRL as a number (10_state.md R25). -/
theorem State.ctrlWord_eq (s : State) : s.ctrlWord =
    BitVec.ofNat 32 ((if s.ctrl.ie then 1 else 0) + (if s.ctrl.term = .crlf then 2 else 0)) := by
  unfold State.ctrlWord
  cases s.ctrl.ie <;> cases s.ctrl.term <;> rfl

/-- Settles O46: the writes of STATUS and CTRL, and CTRL read back. -/
theorem statusAndCtrlWrites : Obligations.StatusAndCtrlWrites := by
  refine ⟨fun s v => ?_, fun s v hv => ?_, fun s => ?_⟩
  · rw [State.regWrite_status, State.writeStatus]
    have cleared (x y : Bool) : (x && !y) = if y then false else x := by cases y <;> simp
    rw [cleared, cleared]
  · rw [State.regWrite_ctrl, State.writeCtrl_noReset hv, Term.write_eq]
  · rw [← s.ctrlWord_eq]
    exact State.regRead_true (r := .ctrl) rfl s

/-- Settles O47: each event lowers IE or DONE. -/
theorem interruptIsEnableAndDone : Obligations.InterruptIsEnableAndDone := by
  intro s w
  have masked : s.regWrite 0x04#8 0x00000000#32 = _ :=
    (s.regWrite_ctrl _).trans (State.writeCtrl_noReset (by decide) s)
  have soft : s.regWrite 0x04#8 0x80000000#32 = s.softReset :=
    (s.regWrite_ctrl _).trans (State.writeCtrl_reset (by decide) s)
  refine ⟨rfl, ?_, fun h => ?_, ?_, rfl, ?_, ?_⟩
  · rw [State.regWrite_status]
    simp [State.irq, State.writeStatus]
  · obtain ⟨d, ds, n, e⟩ := acceptanceOfACommandWord s w h
    rw [e]
    exact Bool.and_false _
  · rw [soft, State.irq, s.softReset_regsReset.ctrl]
    rfl
  · rw [masked]
    rfl
  · rw [masked]

end Sys2Proof.Machine

namespace Sys2Proof.Machine

/-! ## Fields of a register word as numbers (10_state.md R23) -/

theorem toNat_append_add {m n : Nat} (x : BitVec m) (y : BitVec n) : (x ++ y).toNat = x.toNat * 2 ^ n + y.toNat := by
  rw [BitVec.toNat_append, ← Nat.shiftLeft_add_eq_or_of_lt y.isLt, Nat.shiftLeft_eq]

theorem toNat_extract {n : Nat} (x : BitVec n) (i k : Nat) : (x.extractLsb' i k).toNat = x.toNat / 2 ^ i % 2 ^ k := by
  rw [BitVec.extractLsb'_toNat, Nat.shiftRight_eq_div_pow]

theorem getLsbD_eq_decide {n : Nat} (x : BitVec n) (i : Nat) : x.getLsbD i = decide (x.toNat / 2 ^ i % 2 = 1) := by
  rw [BitVec.getLsbD, Nat.testBit_eq_decide_div_mod_eq]

theorem getLsbD_eq_of_toNat {n : Nat} {x : BitVec n} {i : Nat} {b : Bool} (h : x.toNat / 2 ^ i % 2 = b.toNat) :
    x.getLsbD i = b := by
  rw [getLsbD_eq_decide, h]
  cases b <;> rfl

/-- STATUS as a number (10_state.md R27). -/
theorem State.statusWord_toNat (s : State) : s.statusWord.toNat =
    s.status.errInfo.toNat * 2 ^ 16 + s.status.errCode.toNat * 2 ^ 8 + s.status.overrun.toNat * 2 ^ 4 +
      s.status.notcomp.toNat * 2 ^ 3 + s.status.err.toNat * 2 ^ 2 + s.status.done.toNat * 2 + s.busy.toNat := by
  simp only [State.statusWord, toNat_append_add, BitVec.toNat_ofNat, BitVec.toNat_ofBool]
  omega

/-- The single bits of STATUS (10_state.md R27). -/
theorem State.statusWord_bits (s : State) :
    s.statusWord.getLsbD 0 = s.busy ∧ s.statusWord.getLsbD 1 = s.status.done ∧ s.statusWord.getLsbD 2 = s.status.err ∧
    s.statusWord.getLsbD 3 = s.status.notcomp ∧ s.statusWord.getLsbD 4 = s.status.overrun := by
  have hbusy := s.busy.toNat_lt
  have hdone := s.status.done.toNat_lt
  have herr := s.status.err.toNat_lt
  have hnotcomp := s.status.notcomp.toNat_lt
  have hoverrun := s.status.overrun.toNat_lt
  refine ⟨?_, ?_, ?_, ?_, ?_⟩ <;> refine getLsbD_eq_of_toNat ?_ <;> rw [s.statusWord_toNat] <;> omega

/-- ERRCODE, ERRINFO and the reserved fields of STATUS (10_state.md R23, R27). -/
theorem State.statusWord_fields (s : State) :
    s.statusWord.extractLsb' 8 8 = s.status.errCode ∧ s.statusWord.extractLsb' 16 8 = s.status.errInfo ∧
    s.statusWord.extractLsb' 5 3 = 0#3 ∧ s.statusWord.extractLsb' 24 8 = 0#8 := by
  have hcode := s.status.errCode.isLt
  have hinfo := s.status.errInfo.isLt
  have hbusy := s.busy.toNat_lt
  have hdone := s.status.done.toNat_lt
  have herr := s.status.err.toNat_lt
  have hnotcomp := s.status.notcomp.toNat_lt
  have hoverrun := s.status.overrun.toNat_lt
  simp only [← BitVec.toNat_inj, toNat_extract, s.statusWord_toNat, BitVec.toNat_ofNat]
  omega

/-- NODE_INFO of a leaf as a number (10_state.md R43). -/
theorem Node.leaf_info_toNat (b : Byte) (g : BitVec 40) :
    (Node.leaf b g).info.toNat = 2 ^ 31 + 2 ^ 30 + b.toNat * 2 ^ 18 := by
  simp only [Node.info, toNat_append_add, BitVec.toNat_ofNat]
  omega

/-- NODE_INFO of an internal node as a number (10_state.md R43). -/
theorem Node.internal_info_toNat (g : BitVec 40) (l r : BitVec 9) :
    (Node.internal g l r).info.toNat = 2 ^ 31 + r.toNat * 2 ^ 9 + l.toNat := by
  simp only [Node.info, toNat_append_add, BitVec.toNat_ofNat]
  omega

theorem Node.leaf_info_fields (b : Byte) (g : BitVec 40) :
    (Node.leaf b g).info.getLsbD 30 = true ∧ (Node.leaf b g).info.extractLsb' 18 8 = b ∧
    (Node.leaf b g).info.extractLsb' 0 18 = 0#18 := by
  have hb := b.isLt
  simp only [getLsbD_eq_decide, decide_eq_true_eq, ← BitVec.toNat_inj, toNat_extract, Node.leaf_info_toNat,
    BitVec.toNat_ofNat]
  omega

theorem Node.internal_info_fields (g : BitVec 40) (l r : BitVec 9) :
    (Node.internal g l r).info.getLsbD 30 = false ∧ (Node.internal g l r).info.extractLsb' 0 9 = l ∧
    (Node.internal g l r).info.extractLsb' 9 9 = r ∧ (Node.internal g l r).info.extractLsb' 18 8 = 0#8 := by
  have hl := l.isLt
  have hr := r.isLt
  simp only [getLsbD_eq_decide, decide_eq_false_iff_not, ← BitVec.toNat_inj, toNat_extract, Node.internal_info_toNat,
    BitVec.toNat_ofNat]
  omega

/-- VALID is 1 and the reserved bits are 0 in the NODE_INFO of every node (10_state.md R43). -/
theorem Node.info_valid (n : Node) : n.info.getLsbD 31 = true ∧ n.info.extractLsb' 26 4 = 0#4 := by
  simp only [getLsbD_eq_decide, decide_eq_true_eq, ← BitVec.toNat_inj, toNat_extract, BitVec.toNat_ofNat]
  cases n with
  | leaf b g =>
    have hb := b.isLt
    rw [Node.leaf_info_toNat]
    omega
  | internal g l r =>
    have hl := l.isLt
    have hr := r.isLt
    rw [Node.internal_info_toNat]
    omega

/-! ## O52: the node windows -/

/-- The node registers while NODE_SEL selects no node (10_state.md R43). -/
theorem State.readReg_noNode {s : State} (h : s.selectedNode = none) :
    s.readReg .nodeFreq = 0#32 ∧ s.readReg .nodeFreqHi = 0#32 ∧ s.readReg .nodeInfo = 0#32 := by
  simp only [State.readReg, h, and_self]

/-- The node registers while NODE_SEL selects a node (10_state.md R43). -/
theorem State.readReg_node {s : State} {n : Node} (h : s.selectedNode = some n) :
    s.readReg .nodeFreq = n.freq.extractLsb' 0 32 ∧ s.readReg .nodeFreqHi = (n.freq.extractLsb' 32 8).setWidth 32 ∧
    s.readReg .nodeInfo = n.info := by
  simp only [State.readReg, h, and_self]

/-- The two halves of a freq together (10_state.md R43). -/
theorem freq_halves (g : BitVec 40) :
    ((g.extractLsb' 32 8).setWidth 32).toNat * 2 ^ 32 + (g.extractLsb' 0 32).toNat = g.toNat := by
  have hg := g.isLt
  simp only [BitVec.toNat_setWidth, toNat_extract]
  omega

/-- Settles O52: the node registers by whether NODE_SEL selects a node, and NODE_INFO by what the node is. -/
theorem nodeWindowsShowTheSelectedNode : Obligations.NodeWindowsShowTheSelectedNode := by
  intro s hf
  have lo : (s.regRead 0x60#8).readData = s.readReg .nodeFreq := State.readData_idle hf .nodeFreq
  have hi : (s.regRead 0x64#8).readData = s.readReg .nodeFreqHi := State.readData_idle hf .nodeFreqHi
  have info : (s.regRead 0x68#8).readData = s.readReg .nodeInfo := State.readData_idle hf .nodeInfo
  rw [lo, hi, info]
  refine ⟨fun h => State.readReg_noNode (List.getElem?_eq_none h), fun n hn => ?_⟩
  obtain ⟨hlo, hhi, hinfo⟩ := State.readReg_node (s := s) hn
  rw [hlo, hhi, hinfo]
  refine ⟨freq_halves n.freq, n.info_valid.1, ?_, ?_⟩
  · rintro b g rfl
    exact Node.leaf_info_fields b g
  · rintro g l r rfl
    exact Node.internal_info_fields g l r

/-! ## O51: the symbol windows -/

/-- Bit 31 - j of CODE_BITS_WIN[k] is code bit 32k + j, and 0 beyond the code's end (10_state.md R42). -/
theorem codeWindow_getLsbD (code : Bits) (k : Nat) {j : Nat} (hj : j < 32) :
    (codeWindow code k).getLsbD (31 - j) = code[32 * k + j]?.getD false := by
  have hlen : ((code.drop (32 * k) ++ List.replicate 32 false).take 32).length = 32 := by simp
  rw [codeWindow, BitVec.getLsbD_ofNat, bitsVal_testBit, List.getElem?_reverse (by omega), hlen,
    show 32 - 1 - (31 - j) = j by omega, List.getElem?_take_of_lt hj, decide_eq_true (by omega : 31 - j < 32),
    Bool.true_and, List.getElem?_append]
  split
  · rw [List.getElem?_drop]
  · rename_i hend
    rw [List.length_drop] at hend
    rw [List.getElem?_eq_none (l := code) (by omega), List.getElem?_replicate]
    split <;> rfl

theorem codeLen_toNat {n : Nat} (h : n ≤ 255) : (BitVec.ofNat 32 n).toNat = n :=
  BitVec.toNat_ofNat .. |>.trans (Nat.mod_eq_of_lt (by omega))

/-- Settles O51: the windows are reads and writes of the selected symbol's entry. -/
theorem symbolWindowsShowTheSelectedSymbol : Obligations.SymbolWindowsShowTheSelectedSymbol := by
  refine ⟨fun s v hf => ?_, fun s hf hb => ⟨?_, fun k j hj => ?_⟩⟩
  · have write : s.regWrite 0x54#8 v = { s with freq := FreqTable.put s.freq s.sel v } :=
      State.regWrite_idle hf (r := .freqWin) rfl v
    rw [write]
    exact ⟨State.readData_idle hf .freqWin, FreqTable.get_put_same .., fun b hne => FreqTable.get_put_ne _ hne v, rfl⟩
  · have read : (s.regRead 0x58#8).readData = BitVec.ofNat 32 (CodeTable.get s.code s.sel).length :=
      State.readData_idle hf .codeLenWin
    rw [read]
    exact codeLen_toNat (hb s.sel)
  · have read : (s.regRead (0x80#8 + 4#8 * BitVec.ofNat 8 k.val)).readData = _ :=
      State.readData_idle hf (.codeBitsWin k)
    rw [read]
    exact codeWindow_getLsbD _ _ hj

/-! ## O45, O48: the values of the registers and their widths -/

theorem exists_length_eq_foldl_max (l : List Bits) (m : Nat) :
    l.foldl (fun m b => max m b.length) m = m ∨ ∃ b ∈ l, b.length = l.foldl (fun m b => max m b.length) m := by
  induction l generalizing m with
  | nil => exact .inl rfl
  | cons x r ih =>
    rw [List.foldl_cons]
    rcases ih (max m x.length) with h | ⟨b, hb, e⟩
    · rcases le_total x.length m with hx | hx
      · exact .inl (h.trans (max_eq_left hx))
      · exact .inr ⟨x, List.mem_cons_self, (h.trans (max_eq_right hx)).symm⟩
    · exact .inr ⟨b, List.mem_cons_of_mem _ hb, e⟩

/-- MAXLEN is the length of some code (10_state.md R39). -/
theorem exists_length_eq_maxLen (code : CodeTable) : ∃ b : Byte, (CodeTable.get code b).length = maxLen code := by
  rcases exists_length_eq_foldl_max code.toList 0 with h | ⟨c, hc, e⟩
  · have hzero : maxLen code = 0 := h
    exact ⟨0#8, Nat.le_antisymm (length_get_le_maxLen code 0#8) (hzero.le.trans (Nat.zero_le _))⟩
  · obtain ⟨i, hi, rfl⟩ := List.getElem_of_mem hc
    have hi' : i < 256 := by simpa using hi
    refine ⟨BitVec.ofNat 8 i, ?_⟩
    rw [← show _ = maxLen code from e]
    simp [CodeTable.get, Nat.mod_eq_of_lt hi']

theorem maxLen_le {code : CodeTable} (h : CodeTable.Bounded code) : maxLen code ≤ 255 := by
  obtain ⟨b, hb⟩ := exists_length_eq_maxLen code
  exact hb ▸ h b

theorem ncodes_le (code : CodeTable) : ncodes code ≤ 256 := by
  rw [ncodes_eq_length, ← allSymbols_length]
  exact List.length_filter_le _ _

/-- The counts that the host reads fit a register (10_state.md R37 to R40). -/
theorem State.readReg_counts_toNat {s : State} (h : s.TablesBounded) :
    (s.readReg .nsym).toNat = nsym s.freq ∧ (s.readReg .ncodes).toNat = ncodes s.code ∧
    (s.readReg .maxlen).toNat = maxLen s.code ∧ (s.readReg .nnodes).toNat = s.nodes.length ∧
    (s.readReg .root).toNat = s.nodes.length - 1 := by
  obtain ⟨hnodes, -, hcode⟩ := h
  have hnsym := nsym_le s.freq
  have hncodes := ncodes_le s.code
  have hmax := maxLen_le hcode
  simp only [State.readReg, BitVec.toNat_ofNat, rootIndex]
  refine ⟨?_, ?_, ?_, ?_, ?_⟩ <;> exact Nat.mod_eq_of_lt (by omega)

/-- NSYM and NCODES count symbols (10_state.md R37, R38). -/
theorem nsym_eq_filter (f : FreqTable) : nsym f = (allSymbols.filter fun b => FreqTable.get f b ≠ 0#32).length := by
  rw [nsym_eq_length, presentSymbols]
  congr 1
  exact List.filter_congr fun b _ => by rw [Bool.eq_iff_iff, bne_iff_ne, decide_eq_true_iff]

theorem ncodes_eq_filter (code : CodeTable) :
    ncodes code = (allSymbols.filter fun b => CodeTable.get code b ≠ []).length := by
  rw [ncodes_eq_length]
  congr 1
  refine List.filter_congr fun b _ => ?_
  rw [Bool.eq_iff_iff, bne_iff_ne, decide_eq_true_iff]
  exact not_congr List.length_eq_zero_iff

/-- The registers that a host write never changes (10_state.md R23). -/
def RegName.readOnly : RegName → Bool
  | .ctrl | .cmd | .status | .srcAddr | .srcLen | .dstAddr | .dstCap | .padIn | .sel | .nodeSel | .freqWin => false
  | _ => true

theorem State.regWrite_readOnly {r : RegName} (h : r.readOnly = true) (v : Word) (s : State) :
    s.regWrite r.offset v = s := by
  have frozen : r.writableWhileBusy = false ∧ s.writeIdle r v = s := by
    cases r with
    | ctrl | cmd | status | srcAddr | srcLen | dstAddr | dstCap | padIn | sel | nodeSel | freqWin => cases h
    | _ => exact ⟨rfl, rfl⟩
  rw [State.regWrite_offset, State.writeReg_eq frozen.1, frozen.2, ite_self]

/-- The read-only registers in the order of the map. -/
def readOnlyRegs : List RegName :=
  [.id, .resLen, .resBody, .resPad, .resHdr, .resArch, .bits, .nsym, .ncodes, .maxlen, .nnodes, .root, .codeLenWin,
    .nodeFreq, .nodeFreqHi, .nodeInfo, .codeBitsWin 0, .codeBitsWin 1, .codeBitsWin 2, .codeBitsWin 3, .codeBitsWin 4,
    .codeBitsWin 5, .codeBitsWin 6, .codeBitsWin 7]

/-- A register read that shows a narrower field, as a number (10_state.md R23). -/
theorem readData_toNat_of_setWidth {t : State} {n : Nat} {x : BitVec n} (h : t.readData = x.setWidth 32)
    (hn : n ≤ 32 := by decide) : t.readData.toNat = x.toNat := by
  rw [h, BitVec.toNat_setWidth_of_le hn]

/-- Settles O45: every register read and written by its name, at the offset of the map. -/
theorem registersTakeWritesAndReadTheirValues : Obligations.RegistersTakeWritesAndReadTheirValues := by
  refine ⟨fun s v hf => ?_, fun s hf hb => ?_, fun s => ?_⟩
  · have write {r : RegName} (h : r.writableWhileBusy = false) := State.regWrite_idle hf h v
    refine ⟨write (r := .srcAddr) rfl, write (r := .srcLen) rfl, write (r := .dstAddr) rfl, write (r := .dstCap) rfl,
      write (r := .padIn) rfl, write (r := .sel) rfl, write (r := .nodeSel) rfl, fun o ho => ?_⟩
    obtain ⟨r, hr, rfl⟩ : ∃ r ∈ readOnlyRegs, r.offset = o := List.mem_map.1 ho
    have hreadOnly : ∀ r ∈ readOnlyRegs, r.readOnly = true := by decide
    exact State.regWrite_readOnly (hreadOnly r hr) v s
  · have read := State.readData_idle hf
    obtain ⟨hnsym, hncodes, hmax, hnodes, hroot⟩ := State.readReg_counts_toNat hb
    refine ⟨read .cmd, read .srcAddr, read .srcLen, read .dstAddr, read .dstCap,
      readData_toNat_of_setWidth (read .padIn), readData_toNat_of_setWidth (read .sel),
      readData_toNat_of_setWidth (read .nodeSel), read .resLen, read .resBody, readData_toNat_of_setWidth (read .resPad),
      read .resHdr, read .resArch, read .bits, ?_, ?_, ?_, ?_, ?_, ?_⟩
    · exact (congrArg BitVec.toNat (read .nsym)).trans (hnsym.trans (nsym_eq_filter _))
    · exact (congrArg BitVec.toNat (read .ncodes)).trans (hncodes.trans (ncodes_eq_filter _))
    · have hread := (congrArg BitVec.toNat (read .maxlen)).trans hmax
      exact fun b => (length_get_le_maxLen s.code b).trans hread.ge
    · have hread := (congrArg BitVec.toNat (read .maxlen)).trans hmax
      obtain ⟨b, hb⟩ := exists_length_eq_maxLen s.code
      exact ⟨b, hb.trans hread.symm⟩
    · exact (congrArg BitVec.toNat (read .nnodes)).trans hnodes
    · exact (congrArg BitVec.toNat (read .root)).trans hroot
  · have read : (s.regRead 0x0C#8).readData = s.statusWord := State.readData_true (r := .status) rfl s
    rw [read]
    obtain ⟨hbusy, hdone, herr, hnotcomp, hoverrun⟩ := s.statusWord_bits
    obtain ⟨hcode, hinfo, -, -⟩ := s.statusWord_fields
    exact ⟨hbusy, hdone, herr, hnotcomp, hoverrun, hcode, hinfo⟩

/-- Bits [1:0] of an offset do not matter (10_state.md R22). -/
theorem RegName.ofOffset_aligned (o : BitVec 8) : RegName.ofOffset (o &&& 0xFC#8) = RegName.ofOffset o := by
  revert o; decide

/-- The offsets of no register (10_state.md R23). -/
theorem RegName.ofOffset_reserved {o : BitVec 8} (h : (0x6C ≤ o.toNat ∧ o.toNat < 0x80) ∨ 0xA0 ≤ o.toNat) :
    RegName.ofOffset o = none := by
  revert o; decide

/-- CTRL reads three bits at most (10_state.md R25). -/
theorem State.ctrlWord_lt (s : State) : s.ctrlWord.toNat < 2 ^ 3 := by
  rw [State.ctrlWord_eq]
  split <;> split <;> decide

/-- The reserved fields that read 0 while BUSY = 1 too (10_state.md R23, R55). -/
theorem reservedFields_zero (s : State) :
    (s.regRead 0x04#8).readData.toNat < 2 ^ 3 ∧ (s.regRead 0x0C#8).readData.extractLsb' 5 3 = 0#3 ∧
    (s.regRead 0x0C#8).readData.extractLsb' 24 8 = 0#8 ∧ (s.regRead 0x20#8).readData.toNat < 2 ^ 3 ∧
    (s.regRead 0x50#8).readData.toNat < 2 ^ 8 ∧ (s.regRead 0x5C#8).readData.toNat < 2 ^ 9 := by
  have ctrl : (s.regRead 0x04#8).readData = s.ctrlWord := State.readData_true (r := .ctrl) rfl s
  have status : (s.regRead 0x0C#8).readData = s.statusWord := State.readData_true (r := .status) rfl s
  have padIn : (s.regRead 0x20#8).readData.toNat = s.params.padIn.toNat :=
    readData_toNat_of_setWidth (State.readData_true (r := .padIn) rfl s)
  have sel : (s.regRead 0x50#8).readData.toNat = s.sel.toNat :=
    readData_toNat_of_setWidth (State.readData_true (r := .sel) rfl s)
  have nodeSel : (s.regRead 0x5C#8).readData.toNat = s.nodeSel.toNat :=
    readData_toNat_of_setWidth (State.readData_true (r := .nodeSel) rfl s)
  obtain ⟨-, -, hlow, hhigh⟩ := s.statusWord_fields
  rw [ctrl, status, padIn, sel, nodeSel]
  exact ⟨s.ctrlWord_lt, hlow, hhigh, s.params.padIn.isLt, s.sel.isLt, s.nodeSel.isLt⟩

/-- NODE_FREQ_HI and NODE_INFO keep to their fields, whether a node is selected or not (10_state.md R43). -/
theorem State.readReg_node_reserved (s : State) :
    (s.readReg .nodeFreqHi).toNat < 2 ^ 8 ∧ (s.readReg .nodeInfo).extractLsb' 26 4 = 0#4 := by
  cases h : s.selectedNode with
  | none =>
    obtain ⟨-, hhi, hinfo⟩ := State.readReg_noNode h
    rw [hhi, hinfo]
    decide
  | some n =>
    obtain ⟨-, hhi, hinfo⟩ := State.readReg_node h
    rw [hhi, hinfo, BitVec.toNat_setWidth_of_le (by decide)]
    exact ⟨BitVec.isLt _, n.info_valid.2⟩

/-- The reserved fields that read 0 while BUSY = 0 (10_state.md R23). -/
theorem reservedFields_zero_idle {s : State} (hf : s.flight = none) (hb : s.TablesBounded) :
    (s.regRead 0x2C#8).readData.toNat < 2 ^ 3 ∧ (s.regRead 0x3C#8).readData.toNat < 2 ^ 9 ∧
    (s.regRead 0x40#8).readData.toNat < 2 ^ 9 ∧ (s.regRead 0x44#8).readData.toNat < 2 ^ 8 ∧
    (s.regRead 0x48#8).readData.toNat < 2 ^ 10 ∧ (s.regRead 0x4C#8).readData.toNat < 2 ^ 9 ∧
    (s.regRead 0x58#8).readData.toNat < 2 ^ 8 ∧ (s.regRead 0x64#8).readData.toNat < 2 ^ 8 ∧
    (s.regRead 0x68#8).readData.extractLsb' 26 4 = 0#4 := by
  have read (r : RegName) := congrArg BitVec.toNat (State.readData_idle hf r)
  have info : (s.regRead 0x68#8).readData = s.readReg .nodeInfo := State.readData_idle hf .nodeInfo
  obtain ⟨hnsym, hncodes, hmax, hnodes, hroot⟩ := State.readReg_counts_toNat hb
  obtain ⟨hlen, -, hcode⟩ := hb
  obtain ⟨hhi, hinfo⟩ := s.readReg_node_reserved
  refine ⟨?_, ?_, ?_, ?_, ?_, ?_, ?_, (read .nodeFreqHi).trans_lt hhi, info ▸ hinfo⟩
  · exact (readData_toNat_of_setWidth (State.readData_idle hf .resPad)).trans_lt s.res.pad.isLt
  · exact ((read .nsym).trans hnsym).trans_lt ((nsym_le s.freq).trans_lt (by decide))
  · exact ((read .ncodes).trans hncodes).trans_lt ((ncodes_le s.code).trans_lt (by decide))
  · exact ((read .maxlen).trans hmax).trans_lt ((maxLen_le hcode).trans_lt (by decide))
  · exact ((read .nnodes).trans hnodes).trans_lt (hlen.trans_lt (by decide))
  · exact ((read .root).trans hroot).trans_lt ((Nat.sub_le _ _).trans_lt (hlen.trans_lt (by decide)))
  · exact ((read .codeLenWin).trans (codeLen_toNat (hcode s.sel))).trans_lt ((hcode s.sel).trans_lt (by decide))

/-- Settles O48: the map as a function of the aligned offset, and the reserved fields register by register. -/
theorem reservedOffsetsAndFieldsReadZero : Obligations.ReservedOffsetsAndFieldsReadZero := by
  refine ⟨fun s o v => ?_, fun s o v h => ?_, RegName.ofOffset_offset, reservedFields_zero,
    fun _ => reservedFields_zero_idle⟩
  · simp only [State.regRead, State.regWrite, RegName.ofOffset_aligned, and_self]
  · simp only [State.regRead, State.regWrite, RegName.ofOffset_reserved h, and_self]

end Sys2Proof.Machine

namespace Sys2Proof.Machine

/-! ## O53, O54: the DMEM host port (20_memory.md R58, R72) -/

/-- A write below MEM_BYTES while no command is in flight (20_memory.md R58). -/
theorem State.memWrite_idle {s : State} (hf : s.flight = none) {a : Nat} (ha : a < s.cfg.memBytes) (v : Byte) :
    s.memWrite a v = { s with mem := s.mem.write a v } := by
  simp only [State.memWrite, if_neg (Nat.not_le.2 ha), hf]

/-- A write below MEM_BYTES while a command is in flight: a race inside its windows (20_memory.md R72). -/
theorem State.memWrite_busy {s : State} {f : Flight} (hf : s.flight = some f) {a : Nat} (ha : a < s.cfg.memBytes)
    (v : Byte) : s.memWrite a v =
      if s.srcWin.Contains a ∨ s.dstWin.Contains a then
        { s with mem := s.mem.write a v, flight := some { f with raced := true }, recorded := some .hostRace }
      else { s with mem := s.mem.write a v } := by
  simp only [State.memWrite, if_neg (Nat.not_le.2 ha), hf]

/-- A read below MEM_BYTES while no command is in flight (20_memory.md R58). -/
theorem State.memRead_idle {s : State} (hf : s.flight = none) {a : Nat} (ha : a < s.cfg.memBytes) :
    s.memRead a = { s with readData := (s.mem.read a).setWidth 32 } := by
  rw [State.memRead, if_neg (Nat.not_le.2 ha), State.busy, hf, if_neg fun h => Bool.false_ne_true h.1]

/-- Settles O53: the port refuses what is above MEM_BYTES, and below it moves the byte (`State.memWrite_idle`,
`State.memRead_idle`). -/
theorem dmemPortMovesOneByte : Obligations.DmemPortMovesOneByte := by
  intro s a v
  refine ⟨fun ha => ⟨if_pos ha, if_pos ha⟩, fun hf ha => ?_⟩
  rw [State.memWrite_idle hf ha]
  exact ⟨Memory.read_write_same .., fun b hb => Memory.read_write_ne _ hb v, rfl, State.memRead_idle hf ha⟩

/-- No access of the host clears the record of a race (60_exceptions.md R160). -/
theorem HostEffect.recorded {s t : State} (h : HostEffect s t) (hs : s.recorded = some .hostRace) :
    t.recorded = some .hostRace := by
  cases h with
  | operands | acknowledged | accepted | reset => exact hs
  | raced => rfl

theorem State.hostTurn_recorded {s : State} (hs : s.recorded = some .hostRace) :
    s.hostTurn.recorded = some .hostRace := by
  obtain ⟨u, l, hu, e⟩ := hostTurn_effect s
  rw [e]
  exact hu.recorded hs

/-- No step clears the record of a race (60_exceptions.md R160). -/
theorem step_recorded {s t : State} (h : step s = .next t) (hs : s.recorded = some .hostRace) :
    t.recorded = some .hostRace := by
  rcases step_cases h with ⟨-, rfl⟩ | ⟨raced, i, u, -, -, hu, rfl⟩ | ⟨raced, e, -, -, rfl⟩ | ⟨d, raced, -, rfl⟩
  · exact State.hostTurn_recorded hs
  · exact ((exec_completed hu).1.settle _ _).recorded.trans hs
  · exact ((illegalCommand_completed s).settle _ _).recorded.trans hs
  · exact State.hostTurn_recorded (s := { s with flight := some ⟨d, raced⟩ }) hs

/-- Settles O54: a write while a command is in flight by `State.memWrite_busy`, the record by `step_recorded`. -/
theorem hostRaceIsRecordedAndNeverCleared : Obligations.HostRaceIsRecordedAndNeverCleared := by
  refine ⟨fun s d raced a v hf ha => ?_, fun _ _ => step_recorded⟩
  rw [State.memWrite_busy hf ha]
  refine ⟨?_, fun hin => if_pos hin, fun hsrc hdst => if_neg (not_or.2 ⟨hsrc, hdst⟩)⟩
  split <;> exact Memory.read_write_same ..

/-! ## O11: the window checks come first (20_memory.md R66, R67) -/

/-- The first failing check of a command that uses both windows (60_exceptions.md R154): the source window. -/
theorem State.checkBoth_srcNotReady {s : State} (h : ¬ s.SrcReady) : s.checkBoth = some .range := if_pos h

/-- The second: the destination window. -/
theorem State.checkBoth_dstNotReady {s : State} (hs : s.SrcReady) (hd : ¬ s.DstReady) : s.checkBoth = some .range :=
  (if_neg (not_not.2 hs)).trans (if_pos hd)

/-- The third: windows that share a byte. -/
theorem State.checkBoth_overlap {s : State} (hs : s.SrcReady) (hd : s.DstReady) (ho : s.WindowsOverlap) :
    s.checkBoth = some .overlap :=
  (if_neg (not_not.2 hs)).trans ((if_neg (not_not.2 hd)).trans (if_pos ho))

/-- A command that uses both windows raises what their check finds before it does anything else. -/
theorem exec_of_checkBoth {i : Instr} (hi : i ∈ bothWindowCommands) {s : State} {e : ErrCode}
    (h : s.checkBoth = some e) : exec i s = .next (s.raise e) := by
  cases i with
  | encode => simp only [exec, execEncode, h]
  | pack => simp only [exec, execPack, h]
  | packBits => simp only [exec, execPackBits, h]
  | unpackBits => simp only [exec, execUnpackBits, h]
  | decodeBody => simp only [exec, execDecodeBody, h]
  | decompress => simp only [exec, execDecompress, h]
  | compress => simp only [exec, execCompress, h]
  | nop | scan | build | assign | measure | parse | clear => exact absurd hi (by decide)

/-- SCAN, MEASURE and PARSE raise what the check of the source window finds before they do anything else. -/
theorem exec_of_checkSrc {i : Instr} (hi : i ∈ [Instr.scan, .measure, .parse]) {s : State} {e : ErrCode}
    (h : s.checkSrc = some e) : exec i s = .next (s.raise e) := by
  simp only [List.mem_cons, List.not_mem_nil, or_false] at hi
  rcases hi with rfl | rfl | rfl
  · simp only [exec, execScan, h]
  · simp only [exec, execMeasure, h]
  · simp only [exec, execParse, h]

/-- Settles O11: each command raises what its check finds (`exec_of_checkBoth`, `exec_of_checkSrc`), and the check finds
RANGE for the source, RANGE for the destination, OVERLAP, in this order. -/
theorem windowChecksComeFirst : Obligations.WindowChecksComeFirst :=
  ⟨fun _ _ hi => ⟨fun hs => exec_of_checkBoth hi (State.checkBoth_srcNotReady hs),
      fun hs hd => exec_of_checkBoth hi (State.checkBoth_dstNotReady hs hd),
      fun hs hd ho => exec_of_checkBoth hi (State.checkBoth_overlap hs hd ho)⟩,
    fun _ _ hi hs => exec_of_checkSrc hi (State.checkSrc_notReady hs)⟩

/-! ## O21: the order of the bits in a packed body (20_memory.md R60) -/

/-- Bit `7 - i` of byte `j` of a padded bit string is its bit `8j + i` (41_bit_packer.md R108). -/
theorem bodyByte_getLsbD {b : Bits} {j : Nat} (hb : 8 * j + 8 ≤ b.length) {i : Nat} (hi : i < 8) :
    (bodyByte b j).getLsbD (7 - i) = b[8 * j + i]?.getD false := by
  have hlen : ((b.drop (8 * j)).take 8).length = 8 := by rw [List.length_take, List.length_drop]; omega
  rw [bodyByte, BitVec.getLsbD_ofNat, bitsVal_testBit, List.getElem?_reverse (by omega), hlen,
    show 8 - 1 - (7 - i) = i by omega, List.getElem?_take_of_lt hi, List.getElem?_drop,
    decide_eq_true (by omega : 7 - i < 8), Bool.true_and]

/-- The padding reads as 0 bits (41_bit_packer.md R108). -/
theorem getElem?_pad_getD (b : Bits) (n k : Nat) :
    (b ++ List.replicate n false)[k]?.getD false = b[k]?.getD false := by
  rw [List.getElem?_append]
  split
  · rfl
  · rename_i hk
    rw [List.getElem?_eq_none (l := b) (by omega), List.getElem?_replicate]
    split <;> rfl

/-- Bit `k` of a bit string is bit `7 - k mod 8` of byte `k div 8` of its body (20_memory.md R60). -/
theorem packBody_getLsbD {b : Bits} {k : Nat} (hk : k < 8 * byteCount b.length) :
    (packBody b)[k / 8]?.map (fun v => v.getLsbD (7 - k % 8)) = some (b[k]?.getD false) := by
  obtain ⟨hpad, -⟩ := byteCount_spec b.length
  have hbyte : k / 8 < byteCount b.length := by omega
  have hfull : 8 * (k / 8) + 8 ≤ (b ++ List.replicate (padCount b.length) false).length := by
    rw [List.length_append, List.length_replicate]; omega
  rw [packBody, List.getElem?_map, List.getElem?_range hbyte, Option.map_some, Option.map_some,
    bodyByte_getLsbD hfull (Nat.mod_lt k (by decide)), getElem?_pad_getD, Nat.div_add_mod]

/-- The bits of a byte come most significant first (20_memory.md R60). -/
theorem bitsOfByte_getElem? (v : Byte) {k : Nat} (hk : k < 8) : (bitsOfByte v)[k]? = some (v.getLsbD (7 - k)) := by
  interval_cases k <;> rfl

/-- Bit `k` of the bits of a body is bit `7 - k mod 8` of its byte `k div 8` (20_memory.md R60). -/
theorem flatMap_bitsOfByte_getElem? (body : List Byte) (k : Nat) :
    (body.flatMap bitsOfByte)[k]? = body[k / 8]?.map fun v => v.getLsbD (7 - k % 8) := by
  induction body generalizing k with
  | nil => rfl
  | cons v r ih =>
    rw [List.flatMap_cons, List.getElem?_append, bitsOfByte_length]
    split
    · rename_i hk
      rw [bitsOfByte_getElem? v hk, Nat.div_eq_of_lt hk, Nat.mod_eq_of_lt hk]
      rfl
    · rename_i hk
      rw [ih, show k / 8 = (k - 8) / 8 + 1 by omega, show k % 8 = (k - 8) % 8 by omega, List.getElem?_cons_succ]

/-- Settles O21: the bits of a packed byte (`packBody_getLsbD`) and of an unpacked one (`flatMap_bitsOfByte_getElem?`). -/
theorem packedBitOrderIsMsbFirst : Obligations.PackedBitOrderIsMsbFirst := by
  refine ⟨fun b k hk => packBody_getLsbD (packBody_length b ▸ hk), fun body k hk => ?_⟩
  rw [unpack, Nat.sub_zero, List.getElem?_take_of_lt hk, flatMap_bitsOfByte_getElem?]

/-! ## O9: the output bytes (20_memory.md R75) -/

theorem Touched.mem {s u : State} (h : Touched s u) : u.mem = s.mem := by unfold Touched at h; rw [h]

theorem Touched.params {s u : State} (h : Touched s u) : u.params = s.params := by unfold Touched at h; rw [h]

theorem Touched.status {s u : State} (h : Touched s u) : u.status = s.status := by unfold Touched at h; rw [h]

/-- The ways a command that stores can end, from a state `u` with DMEM as it was found: an error or not-compressible, or
an output of at most DST_CAP bytes stored. -/
inductive StoreEnd (s : State) : Host.Outcome State Fault Refusal → Prop where
  | raised (u : State) (e : ErrCode) (hu : u.mem = s.mem) : StoreEnd s (.next (u.raise e))
  | notCompressible (u : State) (hu : u.mem = s.mem) : StoreEnd s (.next u.notComp)
  | stored (u : State) (w : List Byte) (hu : Touched s u) (hw : w.length ≤ s.dstCapacity) :
    StoreEnd s (.next (u.storeDst w).finish)

/-- A refusal by a check of the command itself. -/
theorem StoreEnd.refused {s : State} (e : ErrCode) : StoreEnd s (.next (s.raise e)) := .raised s e rfl

theorem packInto_storeEnd (bits : Bits) (s : State) : StoreEnd s (.next (packInto bits s)) := by
  unfold packInto
  split
  · exact .refused _
  · rename_i hfits
    exact .stored _ _ ((Touched.same s).setBody ..) (by rw [packBody_length]; exact Nat.le_of_not_lt hfits)

theorem unpackInto_storeEnd (bits : Bits) (s : State) : StoreEnd s (.next (unpackInto bits s)) := by
  unfold unpackInto
  split
  · exact .refused _
  · rename_i hfits
    exact .stored _ _ ((Touched.same s).setBits _) (by rw [ascii_length]; exact Nat.le_of_not_lt hfits)

/-- The stage of ENCODE and COMPRESS, which has touched tables and results alone before it (42_archive_codec.md R126). -/
theorem encodeStage_storeEnd {s v : State} (hv : Touched s v) : StoreEnd s (.next (encodeStage v)) := by
  have hmem : v.mem = s.mem := hv.mem
  have hcap : v.dstCapacity = s.dstCapacity := congrArg (fun q : Params => q.dstCap.toNat) hv.params
  unfold encodeStage
  split
  · exact .raised _ _ hmem
  · dsimp only
    split
    · exact .notCompressible _ hmem
    · split
      · exact .raised _ _ hmem
      · rename_i hfits
        exact .stored _ _ (hv.setSizes _) (by rw [archiveOf_length, ← hcap]; exact Nat.le_of_not_lt hfits)

theorem execEncode_storeEnd (s : State) : StoreEnd s (execEncode s) := by
  unfold execEncode
  split
  · exact .refused _
  · split
    · exact .refused _
    · exact encodeStage_storeEnd (.same s)

theorem execPack_storeEnd (s : State) : StoreEnd s (execPack s) := by
  unfold execPack
  split
  · exact .refused _
  · split
    · exact .refused _
    · split
      · exact .refused _
      · exact packInto_storeEnd _ s

theorem execPackBits_storeEnd (s : State) : StoreEnd s (execPackBits s) := by
  unfold execPackBits
  split
  · exact .refused _
  · split
    · exact packInto_storeEnd _ s
    · exact .refused _

theorem execUnpackBits_storeEnd (s : State) : StoreEnd s (execUnpackBits s) := by
  unfold execUnpackBits
  split
  · exact .refused _
  · split
    · exact .refused _
    · exact unpackInto_storeEnd _ s

theorem execDecodeBody_storeEnd (s : State) : StoreEnd s (execDecodeBody s) := by
  unfold execDecodeBody
  split
  · exact .refused _
  · split
    · exact .refused _
    · dsimp only
      split
      · exact .refused _
      · rename_i hout
        exact .stored _ _ ((Touched.same s).setBits _) (decodeBits_length_le hout)

theorem execDecompress_storeEnd (s : State) : StoreEnd s (execDecompress s) := by
  rw [execDecompress_eq]
  split
  · exact .refused _
  · split
    · exact .raised _ _ rfl
    · split
      · exact .raised _ _ rfl
      · rename_i hout
        exact .stored _ _ ((Touched.same s).setParsed _) (decodeBits_length_le hout)

theorem State.afterAssign_touched (s : State) : Touched s s.afterAssign :=
  ((((((Touched.same s).setFreq _).setLen _).setNodes _).setLen _).setCode _).setLen _

theorem execCompress_storeEnd (s : State) : StoreEnd s (execCompress s) := by
  rw [execCompress_eq]
  split
  · exact .refused _
  · split
    · exact .raised _ _ rfl
    · split
      · exact .raised _ _ rfl
      · split
        · exact .raised _ _ rfl
        · exact encodeStage_storeEnd s.afterAssign_touched

theorem exec_storeEnd {i : Instr} (hi : i ∈ bothWindowCommands) (s : State) : StoreEnd s (exec i s) := by
  cases i with
  | encode => exact execEncode_storeEnd s
  | pack => exact execPack_storeEnd s
  | packBits => exact execPackBits_storeEnd s
  | unpackBits => exact execUnpackBits_storeEnd s
  | decodeBody => exact execDecodeBody_storeEnd s
  | decompress => exact execDecompress_storeEnd s
  | compress => exact execCompress_storeEnd s
  | nop | scan | build | assign | measure | parse | clear => exact absurd hi (by decide)

/-- RES_LEN of a stored output is its length, which fits the register as DST_CAP does (20_memory.md R75). -/
theorem State.storeDst_len_toNat {s : State} (u : State) {w : List Byte} (hw : w.length ≤ s.dstCapacity) :
    (u.storeDst w).res.len.toNat = w.length :=
  BitVec.toNat_ofNat .. |>.trans (Nat.mod_eq_of_lt (hw.trans_lt s.params.dstCap.isLt))

/-- RES_LEN is at most DST_CAP after a command that stores (20_memory.md R75). -/
theorem StoreEnd.len_le {s t : State} (h : StoreEnd s (.next t)) : t.res.len.toNat ≤ s.params.dstCap.toNat := by
  cases h with
  | raised => exact Nat.zero_le _
  | notCompressible => exact Nat.zero_le _
  | stored u w _ hw => exact (State.storeDst_len_toNat u hw).trans_le hw

/-- A command that ends in error or not-compressible stores nothing (60_exceptions.md R152, R153). -/
theorem StoreEnd.mem_of_failed {s t : State} (h : StoreEnd s (.next t)) (herr : s.status.err = false)
    (hnotcomp : s.status.notcomp = false) (ht : t.status.err = true ∨ t.status.notcomp = true) : t.mem = s.mem := by
  cases h with
  | raised _ _ hu => exact hu
  | notCompressible _ hu => exact hu
  | stored u w hu _ =>
    simp [hu.status, herr, hnotcomp] at ht

/-- Outside the RES_LEN bytes from DST_ADDR every byte reads as before (20_memory.md R75). -/
theorem StoreEnd.read_outside {s t : State} (h : StoreEnd s (.next t)) {a : Nat}
    (ha : ¬(s.params.dstAddr.toNat ≤ a ∧ a < s.params.dstAddr.toNat + t.res.len.toNat)) :
    t.mem.read a = s.mem.read a := by
  cases h with
  | raised _ _ hu => exact congrArg (Memory.read · a) hu
  | notCompressible _ hu => exact congrArg (Memory.read · a) hu
  | stored u w hu hw =>
    rw [State.finish_res, State.storeDst_len_toNat u hw] at ha
    rw [State.finish_mem, State.storeDst_mem, hu.mem, hu.params]
    exact Memory.read_writeBytes_outside _ _ _ _ ha

/-- A command writes DMEM or it is one of `storelessCommands` (30_encoding.md R83). -/
theorem mem_bothWindowCommands_iff (i : Instr) : i ∈ bothWindowCommands ↔ i ∉ storelessCommands := by
  cases i <;> decide

/-- Settles O9: a storeless command does not name DMEM in its write set, and any other ends as `StoreEnd` says. -/
theorem onlyTheOutputBytesOfDmemChange : Obligations.OnlyTheOutputBytesOfDmemChange := by
  intro i s t herr hnotcomp h
  by_cases hi : i ∈ bothWindowCommands
  · have hstores := (mem_bothWindowCommands_iff i).1 hi
    have hend : StoreEnd s (.next t) := h ▸ exec_storeEnd hi s
    exact ⟨fun hno => absurd hno hstores, hend.mem_of_failed herr hnotcomp, fun _ => hend.len_le,
      fun _ => hend.read_outside⟩
  · have hmem : t.mem = s.mem := (exec_within h).dst ((writeSetOf_mem_outcome i).1 hi)
    exact ⟨fun _ => hmem, fun _ => hmem, fun hno => absurd ((mem_bothWindowCommands_iff i).2 hno) hi,
      fun _ _ => by rw [hmem]⟩

end Sys2Proof.Machine

namespace Sys2Proof.Machine

/-! ## O1, O2, O3: the command word (30_encoding.md R81, R83, R86) -/

/-- The two fields are the whole word: none of its bits is dropped (30_encoding.md R81). -/
@[simp] theorem CommandWord.toWord_ofWord (w : Word) : (CommandWord.ofWord w).toWord = w :=
  BitVec.extractLsb'_append_extractLsb'_eq_extractLsb' rfl |>.trans BitVec.extractLsb'_eq_self

@[simp] theorem CommandWord.ofWord_toWord (c : CommandWord) : CommandWord.ofWord c.toWord = c := by
  have hrsvd : c.toWord.extractLsb' 8 24 = c.rsvd := BitVec.extractLsb'_append_eq_left
  have hop : c.toWord.extractLsb' 0 8 = c.op := BitVec.extractLsb'_append_eq_right
  rw [CommandWord.ofWord, hrsvd, hop]

/-- The opcode map read in both directions (30_encoding.md R83). -/
theorem Instr.ofOpcode_eq_some {op : BitVec 8} {i : Instr} : Instr.ofOpcode op = some i ↔ op = i.opcode := by
  constructor
  · intro h
    unfold Instr.ofOpcode at h
    split at h <;> cases h
    all_goals exact BitVec.eq_of_toNat_eq ‹_›
  · rintro rfl
    cases i <;> rfl

/-- The opcodes from 0x0E on are reserved (30_encoding.md R83). -/
theorem Instr.ofOpcode_eq_none {op : BitVec 8} : Instr.ofOpcode op = none ↔ 0x0E ≤ op.toNat := by
  unfold Instr.ofOpcode
  split
  case h_15 =>
    simp only [imp_false, true_iff] at *
    omega
  all_goals exact ⟨nofun, fun _ => by omega⟩

/-- A word decodes to a command iff RSVD is 0 and OP is its opcode (30_encoding.md R87). -/
theorem decode_eq_ok {w : Word} {i : Instr} :
    decode w = .ok i ↔ (CommandWord.ofWord w).rsvd = 0#24 ∧ (CommandWord.ofWord w).op = i.opcode := by
  rw [← Instr.ofOpcode_eq_some]
  simp only [decode]
  split
  · split <;> simp_all
  · simp_all

/-- A word is illegal iff RSVD is not 0 or OP is reserved (30_encoding.md R86). -/
theorem exists_decode_eq_error {w : Word} : (∃ e, decode w = .error e) ↔
    ((CommandWord.ofWord w).rsvd ≠ 0#24 ∨ 0x0E ≤ (CommandWord.ofWord w).op.toNat) := by
  rw [← Instr.ofOpcode_eq_none]
  simp only [decode]
  split
  · split <;> simp_all
  · simp_all

/-- Settles O1: a word is its two fields, and a command's word has RSVD = 0 and the command's opcode. -/
theorem decodeAndEncodeAgree : Obligations.DecodeAndEncodeAgree := by
  intro w i
  rw [decode_eq_ok]
  constructor
  · rintro ⟨hrsvd, hop⟩
    rw [encode, ← hrsvd, ← hop]
    exact (CommandWord.toWord_ofWord w).symm
  · rintro rfl
    rw [encode, CommandWord.ofWord_toWord]
    exact ⟨rfl, rfl⟩

/-- Settles O2: each of the words is the encoding of its command (O1). -/
theorem opcodeMapWordsDecode : Obligations.OpcodeMapWordsDecode := by
  and_intros <;> exact (decodeAndEncodeAgree _ _).2 rfl

/-- An unraced command with an illegal word ends as `State.illegalCommand` says (30_encoding.md R86). -/
theorem step_of_illegal {s : State} {e : DecodeError} (hf : s.flight = some ⟨0, false⟩) (hd : decode s.cmd = .error e) :
    step s = .next s.illegalCommand := by
  simp only [step, hf, complete, hd, State.settle_false]

/-- Settles O3: the illegal words by `exists_decode_eq_error`, their completion by `step_of_illegal`. -/
theorem illegalWordsCompleteWithIllegalCmd : Obligations.IllegalWordsCompleteWithIllegalCmd := by
  refine ⟨fun w => exists_decode_eq_error, fun s hf hw => ?_⟩
  obtain ⟨e, he⟩ := exists_decode_eq_error.2 hw
  exact step_of_illegal hf he

/-! ## O60: a command in flight completes (30_encoding.md R85, 70_reset_and_hazards.md R179) -/

/-- The access is no reset: neither the reset input nor a CTRL write with bit [31] set (`State.NoResetPending`). -/
def HostAction.NoReset (x : HostAction) : Prop :=
  x ≠ .hardReset ∧ ∀ (o : BitVec 8) (v : Word), x = .regWrite o v → RegName.ofOffset o = some .ctrl → v.getLsbD 31 = false

/-- The command of `s`, with `d` steps left, is in flight in `t` too; it may have been raced. -/
def StillInFlight (d : Nat) (s t : State) : Prop := t.cmd = s.cmd ∧ ∃ raced, t.flight = some ⟨d, raced⟩

/-- A register write that is no reset leaves the command in flight (10_state.md R56). -/
theorem State.regWrite_stillInFlight {s : State} {d : Nat} {raced : Bool} (hf : s.flight = some ⟨d, raced⟩) {o : BitVec 8}
    {v : Word} (hx : (HostAction.regWrite o v).NoReset) : StillInFlight d s (s.regWrite o v) := by
  have hbusy := State.busy_of_flight hf
  have same : StillInFlight d s s := ⟨rfl, raced, hf⟩
  unfold State.regWrite
  split
  · exact same
  · rename_i r hr
    by_cases hw : r.writableWhileBusy
    · cases r with
      | ctrl =>
        rw [State.writeReg, State.writeCtrl_noReset (hx.2 o v rfl hr)]
        exact same
      | cmd =>
        rw [State.writeReg, State.writeCmd, if_pos hbusy]
        exact same
      | status => exact same
      | _ => cases hw
    · rw [State.writeReg_eq (Bool.eq_false_iff.2 hw), if_pos hbusy]
      exact same

/-- No access of the host but a reset ends the command in flight, changes its word or its delay. -/
theorem State.access_stillInFlight {s : State} {d : Nat} {raced : Bool} (hf : s.flight = some ⟨d, raced⟩) {x : HostAction}
    (hx : x.NoReset) : StillInFlight d s (s.access x) := by
  have read (o : BitVec 8) : StillInFlight d s (s.regRead o) := by
    obtain ⟨v, n, e⟩ := s.regRead_cases o
    rw [e]
    exact ⟨rfl, raced, hf⟩
  cases x with
  | regWrite o v => exact State.regWrite_stillInFlight hf hx
  | regRead o => exact read o
  | poll => exact read _
  | memRead a =>
    obtain ⟨v, n, e⟩ := s.memRead_cases a
    rw [State.access, e]
    exact ⟨rfl, raced, hf⟩
  | memWrite a v =>
    rw [State.access]
    rcases s.memWrite_cases a v with e | ⟨-, e⟩ | ⟨-, f, hf', -, e⟩ <;> rw [e]
    · exact ⟨rfl, raced, hf⟩
    · exact ⟨rfl, raced, hf⟩
    · cases hf.symm.trans hf'
      exact ⟨rfl, true, rfl⟩
  | hardReset => exact absurd rfl hx.1

/-- A turn of the host with no reset pending leaves the command in flight, and no reset pending. -/
theorem State.hostTurn_stillInFlight {s : State} {d : Nat} {raced : Bool} (hf : s.flight = some ⟨d, raced⟩)
    (hs : s.NoResetPending) : StillInFlight d s s.hostTurn ∧ s.hostTurn.NoResetPending := by
  rcases hostTurn_cases s with ⟨-, e⟩ | ⟨x, rest, hh, e⟩ | ⟨rest, hh, -, e⟩ <;> rw [e]
  · exact ⟨⟨rfl, raced, hf⟩, hs⟩
  · exact ⟨State.access_stillInFlight hf (hs x (hh ▸ List.mem_cons_self)),
      fun y hy => hs y (hh ▸ List.mem_cons_of_mem x hy)⟩
  · exact ⟨State.access_stillInFlight hf (hs .poll (hh ▸ List.mem_cons_self)),
      fun y hy => hs y ((s.access_keeps .poll).2 ▸ hy)⟩

/-- The step with no delay left completes the command, whatever its word and raced or not (30_encoding.md R85, R86). -/
theorem step_completed {s : State} {raced : Bool} (hf : s.flight = some ⟨0, raced⟩) :
    ∃ t, step s = .next t ∧ Completed s t := by
  obtain ⟨t, ht⟩ := step_total s
  refine ⟨t, ht, ?_⟩
  rcases step_cases ht with ⟨hn, -⟩ | ⟨_, i, u, -, -, hu, rfl⟩ | ⟨_, e, -, -, rfl⟩ | ⟨d, _, hr, -⟩
  · cases hf.symm.trans hn
  · exact (exec_completed hu).1.settle _ _
  · exact (illegalCommand_completed s).settle _ _
  · cases hf.symm.trans hr

/-- A run of one step is that step. -/
theorem run_one (s : State) : Sys2Proof.core.run 1 s = step s := by
  obtain ⟨t, ht⟩ := step_total s
  exact (run_succ_of_step ht).trans ht.symm

/-- A command in flight completes when its delay has passed, by induction on the delay (30_encoding.md R85). -/
theorem run_completes {d : Nat} : ∀ {s : State} {raced : Bool}, s.flight = some ⟨d, raced⟩ → s.NoResetPending →
    ∃ t : State, Sys2Proof.core.run (d + 1) s = .next t ∧ t.flight = none ∧ t.status.done = true ∧ t.cmd = s.cmd := by
  induction d with
  | zero =>
    intro s raced hf _
    obtain ⟨t, ht, h⟩ := step_completed hf
    exact ⟨t, (run_one s).trans ht, h.flight, h.done, h.cmd⟩
  | succ d ih =>
    intro s raced hf hs
    obtain ⟨⟨hcmd, raced', hf'⟩, hs'⟩ :=
      State.hostTurn_stillInFlight (s := { s with flight := some ⟨d, raced⟩ }) rfl hs
    obtain ⟨t, ht, hflight, hdone, hcmd'⟩ := ih hf' hs'
    exact ⟨t, (run_succ_of_step (step_of_waiting hf)).trans ht, hflight, hdone, hcmd'.trans hcmd⟩

/-- While the host does nothing a delay shrinks and nothing else happens (70_reset_and_hazards.md R179). -/
theorem run_quiet {d : Nat} : ∀ {s : State} {raced : Bool}, s.flight = some ⟨d, raced⟩ → s.host = [] →
    Sys2Proof.core.run (d + 1) s = step { s with flight := some ⟨0, raced⟩ } := by
  induction d with
  | zero =>
    intro s raced hf _
    rw [← hf]
    exact run_one s
  | succ d ih =>
    intro s raced hf hs
    have waits : step s = .next { s with flight := some ⟨d, raced⟩ } :=
      (step_of_waiting hf).trans (congrArg Host.Outcome.next (hostTurn_nil (s := { s with flight := some ⟨d, raced⟩ }) hs))
    exact (run_succ_of_step waits).trans (ih rfl hs)

/-- Settles O60: by `run_completes` and `run_quiet`. -/
theorem acceptedCommandCompletes : Obligations.AcceptedCommandCompletes :=
  ⟨fun _ _ _ => run_completes, fun _ _ _ => run_quiet⟩

/-! ## O37: COMPRESS and its four stages (30_encoding.md R89, 42_archive_codec.md R137) -/

/-- The state with another word in CMD. -/
def State.withCmd (w : Word) (s : State) : State := { s with cmd := w }

/-- ENCODE after its checks where every byte has a code (42_archive_codec.md R126). -/
theorem encodeStage_of_enc {s : State} {bits : Bits} (h : enc s.code s.srcBytes = some bits) : encodeStage s =
    if NotCompressible s.code (archiveSize s.code s.term.length bits.length) s.srcLength then
      (s.setSizes bits.length).notComp
    else if s.dstCapacity < archiveSize s.code s.term.length bits.length then
      (s.setSizes bits.length).raise .dstOverflow
    else ((s.setSizes bits.length).storeDst (archiveOf s.code s.term bits)).finish := by
  simp only [encodeStage, h]

/-- The encode stage always sets RES_LEN, so what RES_LEN held before has no influence (42_archive_codec.md R126). -/
theorem encodeStage_setLen (n : Nat) {s : State} {bits : Bits} (h : enc s.code s.srcBytes = some bits) :
    encodeStage (s.setLen n) = encodeStage s := by
  rw [encodeStage_of_enc h, encodeStage_of_enc (s := s.setLen n) h]
  rfl

/-- The encode stage does not read CMD. -/
theorem encodeStage_withCmd (w : Word) {s : State} {bits : Bits} (h : enc s.code s.srcBytes = some bits) :
    encodeStage (s.withCmd w) = (encodeStage s).withCmd w := by
  rw [encodeStage_of_enc h, encodeStage_of_enc (s := s.withCmd w) h, apply_ite (State.withCmd w),
    apply_ite (State.withCmd w)]
  rfl

/-- NO_CODE does not occur where every byte has a code (42_archive_codec.md R126). -/
theorem encodeStage_errCode {s : State} {bits : Bits} (h : enc s.code s.srcBytes = some bits)
    (hs : s.status.errCode ≠ 0x07#8) : (encodeStage s).status.errCode ≠ 0x07#8 := by
  rw [encodeStage_of_enc h]
  split
  · simpa using hs
  · split
    · simp [ErrCode.code]
    · simpa using hs

/-- The encode stage writes no table (30_encoding.md R83). -/
theorem EncodeEnd.tables {v t : State} (h : EncodeEnd v t) :
    t.freq = v.freq ∧ t.nodes = v.nodes ∧ t.code = v.code := by
  cases h <;> simp

/-- A content that is not empty has some symbol present. -/
theorem countBytes_nonEmpty {c : List Byte} (h : c.length < 2 ^ 32) (hc : c ≠ []) :
    FreqTable.NonEmpty (countBytes c) := by
  rw [FreqTable.NonEmpty, nsym_countBytes c h, ne_eq, List.length_eq_zero_iff, List.dedup_eq_nil]
  exact hc

/-- BUILD makes at least a root (40_tree_builder.md R102). -/
theorem buildNodes_ne_nil {f : FreqTable} (hf : FreqTable.NonEmpty f) : buildNodes f ≠ [] := by
  have hcount : (buildNodes f).length + 1 = 2 * nsym f := (buildNodes_merging hf).count
  intro e
  rw [e, List.length_nil] at hcount
  omega

/-- Every byte of a content has a code in the table made of the content's own counts (42_archive_codec.md R137). -/
theorem exists_enc_assignCodes {c : List Byte} (h : c.length < 2 ^ 32) (hc : c ≠ []) :
    ∃ bits, enc (assignCodes (buildNodes (countBytes c))) c = some bits := by
  obtain ⟨-, -, hcode, -⟩ := assignedCodesArePrefixFree _ (countBytes_nonEmpty h hc)
  refine ⟨_, enc_eq_some fun b hb => (hcode b).2 fun e => ?_⟩
  have hcount := get_countBytes_toNat c h b
  rw [e] at hcount
  exact (List.count_pos_iff.2 hb).ne hcount

theorem State.srcBytes_eq_nil {s : State} : s.srcBytes = [] ↔ s.srcLength = 0 := by
  rw [← List.length_eq_zero_iff, State.srcBytes_length]

/-- The state with the tables of its own source window: the byte counts, their tree and its codes. -/
def State.withContentTables (s : State) : State :=
  { s with
    freq := countBytes s.srcBytes
    nodes := buildNodes (countBytes s.srcBytes)
    code := assignCodes (buildNodes (countBytes s.srcBytes)) }

theorem State.afterAssign_eq (s : State) : s.afterAssign = s.withContentTables.setLen 0 := by
  unfold State.afterAssign State.afterBuild State.afterScan
  rfl

/-- Every byte of a source window has a code in the tables made of it. -/
theorem State.exists_enc_withContentTables {s : State} (h : s.srcLength ≠ 0) :
    ∃ bits, enc s.withContentTables.code s.withContentTables.srcBytes = some bits :=
  exists_enc_assignCodes (c := s.srcBytes) s.srcBytes_length_lt (State.srcBytes_eq_nil.not.2 h)

/-- COMPRESS of an empty source window (42_archive_codec.md R137). -/
theorem execCompress_of_empty {s : State} (h : s.WindowsReady) (h0 : s.srcLength = 0) :
    execCompress s = .next (s.afterScan.raise .emptyInput) := by
  simp only [execCompress_eq, State.checkBoth_ready h, if_pos h0]

/-- COMPRESS of any other reaches its encode stage (42_archive_codec.md R137). -/
theorem execCompress_of_nonEmpty {s : State} (h : s.WindowsReady) (h0 : s.srcLength ≠ 0) :
    execCompress s = .next (encodeStage s.withContentTables) := by
  have hf := countBytes_nonEmpty s.srcBytes_length_lt (State.srcBytes_eq_nil.not.2 h0)
  obtain ⟨bits, hbits⟩ := State.exists_enc_withContentTables h0
  rw [← encodeStage_setLen 0 hbits, ← State.afterAssign_eq]
  simp only [execCompress_eq, State.checkBoth_ready h, if_neg h0, if_neg hf,
    if_neg (List.length_eq_zero_iff.not.2 (buildNodes_ne_nil hf))]

/-- SCAN run on a window in range (40_tree_builder.md R96). -/
theorem runScan_of_ready {s : State} (h : s.SrcReady) : runCommand .scan s =
    .next (if s.srcLength = 0 then (s.acceptAfter 0 (encode .scan)).afterScan.raise .emptyInput
      else (s.acceptAfter 0 (encode .scan)).afterScan.finish) :=
  execScan_of_ready (s := s.acceptAfter 0 (encode .scan)) h

/-- BUILD run on a table with a symbol present (40_tree_builder.md R97). -/
theorem runBuild_of_nonEmpty {s : State} (h : FreqTable.NonEmpty s.freq) : runCommand .build s =
    .next (((s.acceptAfter 0 (encode .build)).setNodes (buildNodes s.freq)).setLen 0).finish := by
  have stage : buildStage (s.acceptAfter 0 (encode .build)) = .ok _ := if_neg h
  simp only [runCommand, exec, execBuild, stage]
  rfl

/-- ASSIGN run on a tree (40_tree_builder.md R105). -/
theorem runAssign_of_tree {s : State} (h : s.nodes ≠ []) : runCommand .assign s =
    .next (((s.acceptAfter 0 (encode .assign)).setCode (assignCodes s.nodes)).setLen 0).finish := by
  have stage : assignStage (s.acceptAfter 0 (encode .assign)) = .ok _ := if_neg (List.length_eq_zero_iff.not.2 h)
  simp only [runCommand, exec, execAssign, stage]
  rfl

/-- ENCODE past its checks is its encode stage (42_archive_codec.md R126). -/
theorem execEncode_of_ready {s : State} (h : s.WindowsReady) (h0 : s.srcLength ≠ 0) :
    execEncode s = .next (encodeStage s) := by
  simp only [execEncode, State.checkBoth_ready h, if_neg h0]

/-- A run of commands stops after one that ends in error (30_encoding.md R89). -/
theorem runUntilError_of_error {i : Instr} {rest : List Instr} {s t : State} (h : runCommand i s = .next t)
    (ht : t.status.err = true) : runUntilError (i :: rest) s = .next t := by
  simp only [runUntilError, h, ht, if_true]

/-- It goes on after any other (30_encoding.md R89). -/
theorem runUntilError_of_success {i : Instr} {rest : List Instr} {s t : State} (h : runCommand i s = .next t)
    (ht : t.status.err = false) : runUntilError (i :: rest) s = runUntilError rest t := by
  simp only [runUntilError, h, ht, Bool.false_eq_true, if_false]

theorem runUntilError_singleton {i : Instr} {s t : State} (h : runCommand i s = .next t) :
    runUntilError [i] s = .next t := by
  simp only [runUntilError, h, ite_self]

/-- SCAN ends the run of the four commands on an empty source window (40_tree_builder.md R96). -/
theorem runStages_of_empty {s : State} (h : s.SrcReady) (h0 : s.srcLength = 0) :
    runUntilError [.scan, .build, .assign, .encode] s =
      .next ((s.acceptAfter 0 (encode .scan)).afterScan.raise .emptyInput) :=
  runUntilError_of_error (runScan_of_ready h |>.trans (by rw [if_pos h0])) rfl

/-- Accepting the next command after SCAN is accepting it before: the acceptance clears what the completion set
(30_encoding.md R84, R85). -/
theorem State.afterScan_acceptAfter (s : State) (v w : Word) :
    (s.acceptAfter 0 v).afterScan.finish.acceptAfter 0 w = (s.acceptAfter 0 w).afterScan := by
  unfold State.afterScan
  rfl

/-- The same after BUILD. -/
theorem State.afterBuild_acceptAfter (s : State) (v w : Word) :
    (s.acceptAfter 0 v).afterBuild.finish.acceptAfter 0 w = (s.acceptAfter 0 w).afterBuild := by
  unfold State.afterBuild State.afterScan
  rfl

/-- The same after ASSIGN. -/
theorem State.afterAssign_acceptAfter (s : State) (v w : Word) :
    (s.acceptAfter 0 v).afterAssign.finish.acceptAfter 0 w = (s.acceptAfter 0 w).afterAssign := by
  unfold State.afterAssign State.afterBuild State.afterScan
  rfl

/-- On any other, SCAN, BUILD and ASSIGN leave the tables that COMPRESS makes, and ENCODE goes on from them. -/
theorem runStages_of_nonEmpty {s : State} (h : s.WindowsReady) (h0 : s.srcLength ≠ 0) :
    runUntilError [.scan, .build, .assign, .encode] s =
      .next (encodeStage (s.acceptAfter 0 (encode .encode)).withContentTables) := by
  have hf := countBytes_nonEmpty s.srcBytes_length_lt (State.srcBytes_eq_nil.not.2 h0)
  have scanned : runCommand .scan s = .next (s.acceptAfter 0 (encode .scan)).afterScan.finish :=
    (runScan_of_ready h.1).trans (by rw [if_neg h0])
  have built : runCommand .build (s.acceptAfter 0 (encode .scan)).afterScan.finish =
      .next (s.acceptAfter 0 (encode .build)).afterBuild.finish := by
    rw [runBuild_of_nonEmpty hf, State.afterScan_acceptAfter]
    rfl
  have assigned : runCommand .assign (s.acceptAfter 0 (encode .build)).afterBuild.finish =
      .next (s.acceptAfter 0 (encode .assign)).afterAssign.finish := by
    rw [runAssign_of_tree (buildNodes_ne_nil hf), State.afterBuild_acceptAfter]
    rfl
  have encoded : runCommand .encode (s.acceptAfter 0 (encode .assign)).afterAssign.finish =
      .next (encodeStage (s.acceptAfter 0 (encode .encode)).afterAssign) := by
    rw [runCommand, State.afterAssign_acceptAfter]
    exact execEncode_of_ready h h0
  obtain ⟨bits, hbits⟩ := (s.acceptAfter 0 (encode .encode)).exists_enc_withContentTables h0
  rw [← encodeStage_setLen 0 hbits, ← State.afterAssign_eq]
  rw [runUntilError_of_success scanned rfl, runUntilError_of_success built rfl, runUntilError_of_success assigned rfl,
    runUntilError_singleton encoded]

/-- COMPRESS and the run of the four commands end in the same state but for CMD (30_encoding.md R89). -/
theorem runCompress_eq_runStages {s : State} (h : s.WindowsReady) : ∃ t u : State,
    runCommand .compress s = .next t ∧ runUntilError [.scan, .build, .assign, .encode] s = .next u ∧
    { t with cmd := u.cmd } = u := by
  by_cases h0 : s.srcLength = 0
  · exact ⟨_, _, execCompress_of_empty (s := s.acceptAfter 0 (encode .compress)) h h0,
      runStages_of_empty h.1 h0, rfl⟩
  · refine ⟨_, _, execCompress_of_nonEmpty (s := s.acceptAfter 0 (encode .compress)) h h0,
      runStages_of_nonEmpty h h0, ?_⟩
    obtain ⟨bits, hbits⟩ := State.exists_enc_withContentTables (s := s.acceptAfter 0 (encode .encode)) h0
    have other : (s.acceptAfter 0 (encode .compress)).withContentTables =
      (s.acceptAfter 0 (encode .encode)).withContentTables.withCmd (encode .compress) := rfl
    rw [other, encodeStage_withCmd _ hbits]
    rfl

/-- Settles O37: COMPRESS stops in SCAN on an empty window and else ends in its encode stage, where every byte has a
code; the run of the four commands by `runCompress_eq_runStages`. -/
theorem compressEqualsItsFourStages : Obligations.CompressEqualsItsFourStages := by
  intro s h
  refine ⟨fun h0 => ?_, fun h0 => ?_, runCompress_eq_runStages h⟩
  · have hlen : s.srcLength = 0 := by rw [State.srcLength, h0]; rfl
    refine (execCompress_of_empty h hlen).trans ?_
    rw [State.afterScan, State.srcBytes_eq_nil.2 hlen]
    rfl
  · have hlen : s.srcLength ≠ 0 := fun e => h0 (BitVec.eq_of_toNat_eq e)
    obtain ⟨bits, hbits⟩ := State.exists_enc_withContentTables hlen
    obtain ⟨hfreq, hnodes, hcode⟩ := (encodeStage_end s.withContentTables).tables
    have counted := get_countBytes_toNat _ s.srcBytes_length_lt
    exact ⟨countBytes s.srcBytes, encodeStage s.withContentTables, counted,
      execCompress_of_nonEmpty h hlen, execEncode_of_ready (s := s.withContentTables) h hlen,
      hfreq, hnodes, hcode, encodeStage_errCode hbits⟩

/-! ## O38: DECOMPRESS and PARSE with DECODE_BODY (30_encoding.md R89, 42_archive_codec.md R136) -/

/-- What a well-parsed archive says of its sizes: the header and the body make up the archive, and the padding is at most 7
bits and 0 where the body is empty (42_archive_codec.md R129, R133). -/
theorem parseArchive_sizes {t a : List Byte} {r : Parsed} (h : parseArchive t a = .ok r) :
    r.hdr + r.body = a.length ∧ r.pad ≤ 7 ∧ r.pad ≤ 8 * r.body := by
  unfold parseArchive at h
  split at h
  · cases h
  · rename_i content rest hsplit
    have hlen := congrArg List.length (eq_of_splitAtTerm a hsplit)
    simp only [List.length_append] at hlen
    split at h
    · cases h
    · split at h
      · cases h
      · split at h
        · cases h
        · split at h
          · cases h
          · cases h
            dsimp only
            omega

/-- DECODE_BODY after its checks, where decoding fails (43_prefix_decoder.md R145). -/
theorem execDecodeBody_error {s : State} {e : ErrCode} (hw : s.checkBoth = none) (hp : s.checkPad = none)
    (h : decodeBits (unpack s.srcBytes s.padIn) s.code s.dstCapacity = .error e) :
    execDecodeBody s = .next (s.raise e) := by
  simp only [execDecodeBody, hw, hp, h]

/-- DECODE_BODY after its checks, where decoding succeeds (43_prefix_decoder.md R145). -/
theorem execDecodeBody_ok {s : State} {out : List Byte} (hw : s.checkBoth = none) (hp : s.checkPad = none)
    (h : decodeBits (unpack s.srcBytes s.padIn) s.code s.dstCapacity = .ok out) :
    execDecodeBody s = .next ((s.setBits (8 * s.srcLength - s.padIn)).storeDst out).finish := by
  simp only [execDecodeBody, hw, hp, h, unpack_length, State.srcBytes_length]

/-- PARSE of a well-formed archive in range (42_archive_codec.md R135). -/
theorem execParse_ok {s : State} {r : Parsed} (hs : s.SrcReady) (hr : parseArchive s.term s.srcBytes = .ok r) :
    execParse s = .next (s.setParsed r).finish := by
  simp only [execParse_eq, State.checkSrc_ready hs, hr]

/-- DECOMPRESS of a well-formed archive whose body does not decode (42_archive_codec.md R136). -/
theorem execDecompress_error {s : State} {r : Parsed} {e : ErrCode} (hs : s.WindowsReady)
    (hr : parseArchive s.term s.srcBytes = .ok r)
    (h : decodeBits (unpack (s.srcBytes.drop r.hdr) r.pad) (CodeTable.ofEntries r.entries) s.dstCapacity = .error e) :
    execDecompress s = .next ((s.setParsed r).raise e) := by
  simp only [execDecompress_eq, State.checkBoth_ready hs, hr, h]

/-- DECOMPRESS of a well-formed archive whose body decodes (42_archive_codec.md R136). -/
theorem execDecompress_ok {s : State} {r : Parsed} {out : List Byte} (hs : s.WindowsReady)
    (hr : parseArchive s.term s.srcBytes = .ok r)
    (h : decodeBits (unpack (s.srcBytes.drop r.hdr) r.pad) (CodeTable.ofEntries r.entries) s.dstCapacity = .ok out) :
    execDecompress s = .next ((s.setParsed r).storeDst out).finish := by
  simp only [execDecompress_eq, State.checkBoth_ready hs, hr, h]

/-- What PARSE reports, and the body of the archive chosen as source (30_encoding.md R89). -/
def State.parsedBody (r : Parsed) (s : State) : State := (s.setParsed r).selectBody

/-- Accepting DECODE_BODY after PARSE and the choice of the body is accepting it before: the acceptance clears what the
completion of PARSE set (30_encoding.md R84, R85). -/
theorem State.parsedBody_acceptAfter (s : State) (r : Parsed) (v w : Word) :
    ((s.acceptAfter 0 v).setParsed r).finish.selectBody.acceptAfter 0 w = (s.acceptAfter 0 w).parsedBody r := by
  unfold State.parsedBody
  rfl

section
variable {s : State} {r : Parsed} (hcfg : s.cfg.wf = true) (hs : s.WindowsReady)
  (hr : parseArchive s.ctrl.term.bytes s.srcBytes = .ok r)
include hcfg hs hr

/-- The sizes of a parsed archive fit their registers, as the archive lies in DMEM (00_scope.md R9, 10_state.md R36). -/
theorem State.parsedBody_window :
    (s.parsedBody r).params.srcAddr.toNat = s.params.srcAddr.toNat + r.hdr ∧
    (s.parsedBody r).params.srcLen.toNat = r.body ∧ (s.parsedBody r).params.padIn.toNat = r.pad := by
  obtain ⟨hsize, hpad, -⟩ := parseArchive_sizes hr
  rw [State.srcBytes_length, State.srcLength] at hsize
  have hmem : s.cfg.memBytes ≤ 2 ^ 24 := of_decide_eq_true (Bool.and_eq_true_iff.1 hcfg).2
  have hin : s.params.srcAddr.toNat + s.params.srcLen.toNat ≤ s.cfg.memBytes := hs.1
  refine ⟨?_, ?_, ?_⟩
  · show (s.params.srcAddr + BitVec.ofNat 32 r.hdr).toNat = _
    rw [BitVec.toNat_add, BitVec.toNat_ofNat]
    omega
  · show (BitVec.ofNat 32 r.body).toNat = _
    rw [BitVec.toNat_ofNat]
    omega
  · show (BitVec.ofNat 3 r.pad).toNat = _
    rw [BitVec.toNat_ofNat]
    omega

/-- The body's window passes the checks that the archive's passed: it lies within it (20_memory.md R66, R67). -/
theorem State.parsedBody_windowsReady : (s.parsedBody r).WindowsReady := by
  obtain ⟨haddr, hlen, -⟩ := State.parsedBody_window hcfg hs hr
  obtain ⟨hsize, -, -⟩ := parseArchive_sizes hr
  rw [State.srcBytes_length, State.srcLength] at hsize
  obtain ⟨hsrc, hdst, hover⟩ := hs
  have hcfg' : (s.parsedBody r).cfg = s.cfg := rfl
  have haddr' : (s.parsedBody r).params.dstAddr = s.params.dstAddr := rfl
  have hcap' : (s.parsedBody r).params.dstCap = s.params.dstCap := rfl
  unfold State.WindowsReady State.SrcReady State.DstReady State.WindowsOverlap at *
  rw [haddr, hlen, hcfg', haddr', hcap']
  omega

/-- PAD_IN is no more than the body's bits (43_prefix_decoder.md R145). -/
theorem State.parsedBody_checkPad : (s.parsedBody r).checkPad = none := by
  obtain ⟨-, hlen, hpad⟩ := State.parsedBody_window hcfg hs hr
  rw [State.checkPad_eq_none, State.padIn, State.srcLength, hlen, hpad]
  exact (parseArchive_sizes hr).2.2

/-- Its bytes are those of the archive after the header (42_archive_codec.md R136). -/
theorem State.parsedBody_srcBytes : (s.parsedBody r).srcBytes = s.srcBytes.drop r.hdr := by
  obtain ⟨haddr, hlen, -⟩ := State.parsedBody_window hcfg hs hr
  obtain ⟨hsize, -, -⟩ := parseArchive_sizes hr
  apply List.ext_getElem
  · rw [State.srcBytes_length, State.srcLength, hlen, List.length_drop]
    omega
  · intro i h1 h2
    rw [List.getElem_drop]
    simp only [State.srcBytes, List.getElem_map, List.getElem_range, haddr, Nat.add_assoc]
    rfl

/-- DECODE_BODY of it decodes what DECOMPRESS decodes (43_prefix_decoder.md R145). -/
theorem State.parsedBody_bits :
    unpack (s.parsedBody r).srcBytes (s.parsedBody r).padIn = unpack (s.srcBytes.drop r.hdr) r.pad := by
  rw [State.parsedBody_srcBytes hcfg hs hr, State.padIn, (State.parsedBody_window hcfg hs hr).2.2]

/-- BITS has its value from PARSE already: DECODE_BODY sets it to the same number (43_prefix_decoder.md R145). -/
theorem State.parsedBody_setBits :
    (s.parsedBody r).setBits (8 * (s.parsedBody r).srcLength - (s.parsedBody r).padIn) = s.parsedBody r := by
  obtain ⟨-, hlen, hpad⟩ := State.parsedBody_window hcfg hs hr
  rw [State.srcLength, State.padIn, hlen, hpad]
  rfl

/-- DECODE_BODY of the body of a well-formed archive that does not decode. -/
theorem execDecodeBody_parsedBody_error {e : ErrCode}
    (h : decodeBits (unpack (s.srcBytes.drop r.hdr) r.pad) (CodeTable.ofEntries r.entries) s.dstCapacity = .error e) :
    execDecodeBody (s.parsedBody r) = .next ((s.parsedBody r).raise e) := by
  refine execDecodeBody_error (State.checkBoth_ready (State.parsedBody_windowsReady hcfg hs hr))
    (State.parsedBody_checkPad hcfg hs hr) ?_
  rw [State.parsedBody_bits hcfg hs hr]
  exact h

/-- DECODE_BODY of the body of a well-formed archive that decodes. -/
theorem execDecodeBody_parsedBody_ok {out : List Byte}
    (h : decodeBits (unpack (s.srcBytes.drop r.hdr) r.pad) (CodeTable.ofEntries r.entries) s.dstCapacity = .ok out) :
    execDecodeBody (s.parsedBody r) = .next ((s.parsedBody r).storeDst out).finish := by
  rw [← State.parsedBody_bits hcfg hs hr] at h
  rw [execDecodeBody_ok (State.checkBoth_ready (State.parsedBody_windowsReady hcfg hs hr))
    (State.parsedBody_checkPad hcfg hs hr) h, State.parsedBody_setBits hcfg hs hr]

end

/-- Settles O38: PARSE leaves what the parse stage of DECOMPRESS leaves, and DECODE_BODY of the body then decodes the same
bits with the same table and capacity. -/
theorem decompressEqualsParseThenDecodeBody : Obligations.DecompressEqualsParseThenDecodeBody := by
  rintro s hcfg hs ⟨r, hr⟩
  have parsed : runCommand .parse s = .next ((s.acceptAfter 0 (encode .parse)).setParsed r).finish :=
    execParse_ok (s := s.acceptAfter 0 (encode .parse)) hs.1 hr
  have decoded : runCommand .decodeBody ((s.acceptAfter 0 (encode .parse)).setParsed r).finish.selectBody =
      execDecodeBody ((s.acceptAfter 0 (encode .decodeBody)).parsedBody r) := by
    rw [runCommand, State.parsedBody_acceptAfter]
    rfl
  cases hd : decodeBits (unpack (s.srcBytes.drop r.hdr) r.pad) (CodeTable.ofEntries r.entries) s.dstCapacity with
  | error e =>
    exact ⟨_, _, _, execDecompress_error (s := s.acceptAfter 0 (encode .decompress)) hs hr hd, parsed,
      decoded.trans (execDecodeBody_parsedBody_error (s := s.acceptAfter 0 (encode .decodeBody)) hcfg hs hr hd), rfl⟩
  | ok out =>
    exact ⟨_, _, _, execDecompress_ok (s := s.acceptAfter 0 (encode .decompress)) hs hr hd, parsed,
      decoded.trans (execDecodeBody_parsedBody_ok (s := s.acceptAfter 0 (encode .decodeBody)) hcfg hs hr hd), rfl⟩

end Sys2Proof.Machine

namespace Sys2Proof.Machine

/-! ## O15: what each merge of BUILD takes from the queue (40_tree_builder.md R99 to R101) -/

/-- When node `k` is made, `l` is the first queued node in the order of R100 and `r` the next (40_tree_builder.md R101). -/
structure TakesTwoLeast (nodes : List Node) (k l r : Nat) : Prop where
  left : Queued nodes k l
  right : Queued nodes k r
  ne : l ≠ r
  least : ∀ j, Queued nodes k j → j ≠ l → Before nodes l j
  next : ∀ j, Queued nodes k j → j ≠ l → j ≠ r → Before nodes r j

/-- What holds of the nodes made so far and the queue during BUILD: the queue of the merge loop holds the nodes that are no
child yet, and every merge made has taken the two least of those that were there. -/
structure MergedInOrder (nodes : List Node) (q : List Nat) : Prop where
  queue : ∀ i, i ∈ q ↔ Queued nodes nodes.length i
  merges : ∀ (k : Nat) (g : BitVec 40) (l r : BitVec 9), nodes[k]? = some (.internal g l r) →
    TakesTwoLeast nodes k l.toNat r.toNat

/-- What was queued does not change by nodes made later. -/
theorem queued_append {nodes : List Node} {k i : Nat} (hk : k ≤ nodes.length) (more : List Node) :
    Queued (nodes ++ more) k i ↔ Queued nodes k i := by
  have same : ∀ j < k, (nodes ++ more)[j]? = nodes[j]? := fun j hj => List.getElem?_append_left (by omega)
  refine and_congr_right fun _ => ⟨fun h j g l r hj hn => ?_, fun h j g l r hj hn => ?_⟩
  · exact h j g l r hj ((same j hj).trans hn)
  · exact h j g l r hj ((same j hj).symm.trans hn)

theorem before_append {nodes : List Node} {i j : Nat} (hi : i < nodes.length) (hj : j < nodes.length)
    (more : List Node) : Before (nodes ++ more) i j ↔ Before nodes i j := by
  rw [Before, Before, nodeFreq_append _ _ hi, nodeFreq_append _ _ hj]

theorem TakesTwoLeast.append {nodes : List Node} {k l r : Nat} (h : TakesTwoLeast nodes k l r) (hk : k ≤ nodes.length)
    (more : List Node) : TakesTwoLeast (nodes ++ more) k l r where
  left := (queued_append hk more).2 h.left
  right := (queued_append hk more).2 h.right
  ne := h.ne
  least j hj hl := by
    rw [queued_append hk] at hj
    exact (before_append (h.left.1.trans_le hk) (hj.1.trans_le hk) _).2 (h.least j hj hl)
  next j hj hl hr := by
    rw [queued_append hk] at hj
    exact (before_append (h.right.1.trans_le hk) (hj.1.trans_le hk) _).2 (h.next j hj hl hr)

/-- A merge takes its two children out of the queue and puts its own node in (40_tree_builder.md R99). -/
theorem queued_succ {nodes : List Node} (hb : ChildrenBelow nodes) {k i : Nat} {g : BitVec 40} {l r : BitVec 9}
    (hk : nodes[k]? = some (.internal g l r)) :
    Queued nodes (k + 1) i ↔ i = k ∨ (Queued nodes k i ∧ i ≠ l.toNat ∧ i ≠ r.toNat) := by
  constructor
  · rintro ⟨hi, hno⟩
    obtain ⟨hl, hr⟩ := hno k g l r (by omega) hk
    rcases Nat.lt_succ_iff_lt_or_eq.1 hi with hlt | rfl
    · exact .inr ⟨⟨hlt, fun j g l r hj => hno j g l r (by omega)⟩, hl.symm, hr.symm⟩
    · exact .inl rfl
  · rintro (rfl | ⟨⟨hi, hno⟩, hl, hr⟩)
    · refine ⟨by omega, fun j g l r hj hn => ?_⟩
      obtain ⟨hl, hr⟩ := hb j g l r hn
      omega
    · refine ⟨by omega, fun j g' l' r' hj hn => ?_⟩
      rcases Nat.lt_succ_iff_lt_or_eq.1 hj with hlt | rfl
      · exact hno j g' l' r' hlt hn
      · rw [hk, Option.some.injEq, Node.internal.injEq] at hn
        obtain ⟨-, rfl, rfl⟩ := hn
        exact ⟨hl.symm, hr.symm⟩

/-- Two extractions in a row take the first two of the queue in the order of R100 and leave the others. -/
theorem extractMin_twice {nodes : List Node} {q q1 q2 : List Nat} {a b : Nat} (hq : q.Nodup)
    (h1 : extractMin nodes q = some (a, q1)) (h2 : extractMin nodes q1 = some (b, q2)) :
    (a ∈ q ∧ b ∈ q ∧ a ≠ b) ∧ (∀ j ∈ q, j ≠ a → Before nodes a j) ∧
      (∀ j ∈ q, j ≠ a → j ≠ b → Before nodes b j) ∧ ∀ j, j ∈ q2 ↔ j ∈ q ∧ j ≠ a ∧ j ≠ b := by
  obtain ⟨ha, rfl, least⟩ := extractMin_some h1
  obtain ⟨hb, rfl, next⟩ := extractMin_some h2
  have mem1 (j : Nat) : j ∈ q.erase a ↔ j ≠ a ∧ j ∈ q := hq.mem_erase_iff
  obtain ⟨hne, hbq⟩ := (mem1 b).1 hb
  refine ⟨⟨ha, hbq, hne.symm⟩, least, fun j hj hja => next j ((mem1 j).2 ⟨hja, hj⟩), fun j => ?_⟩
  rw [(hq.erase a).mem_erase_iff, mem1]
  tauto

theorem MergedInOrder.childrenBelow {nodes : List Node} {q : List Nat} (h : MergedInOrder nodes q) :
    ChildrenBelow nodes := fun k g l r hk => ⟨(h.merges k g l r hk).left.1, (h.merges k g l r hk).right.1⟩

/-- One merge of the loop keeps the order (40_tree_builder.md R100, R101). -/
theorem MergedInOrder.merge {f : FreqTable} {nodes : List Node} {q q1 q2 : List Nat} {a b : Nat}
    (h : MergedInOrder nodes q) (hm : Merging f nodes q) (h1 : extractMin nodes q = some (a, q1))
    (h2 : extractMin nodes q1 = some (b, q2)) :
    MergedInOrder (nodes ++ [mergedNode nodes a b]) (q2 ++ [nodes.length]) := by
  obtain ⟨⟨ha, hb, hne⟩, least, next, rest⟩ := extractMin_twice hm.nodup h1 h2
  have hperm : q.Perm (a :: b :: q2) := (extractMin_perm h1).trans ((extractMin_perm h2).cons a)
  obtain ⟨g, l, r, e, rfl, rfl, -⟩ := (hm.perm hperm).mergedNode_eq
  have taken : TakesTwoLeast nodes nodes.length l.toNat r.toNat :=
    ⟨(h.queue _).1 ha, (h.queue _).1 hb, hne, fun j hj => least j ((h.queue j).2 hj),
      fun j hj => next j ((h.queue j).2 hj)⟩
  have below := h.childrenBelow.concat_mergedNode taken.left.1 taken.right.1
  rw [e] at below ⊢
  refine ⟨fun i => ?_, fun k g' l' r' hk => ?_⟩
  · rw [List.length_append, List.length_singleton, queued_succ below List.getElem?_concat_length,
      queued_append le_rfl, ← h.queue, List.mem_append, List.mem_singleton, rest, or_comm]
  · rcases lt_trichotomy k nodes.length with hlt | rfl | hgt
    · rw [List.getElem?_append_left hlt] at hk
      exact (h.merges k g' l' r' hk).append hlt.le _
    · rw [List.getElem?_concat_length, Option.some.injEq, Node.internal.injEq] at hk
      obtain ⟨-, rfl, rfl⟩ := hk
      exact taken.append le_rfl _
    · rw [List.getElem?_eq_none (by simp; omega)] at hk
      cases hk

theorem leafNodes_getElem?_ne_internal (f : FreqTable) (k : Nat) (g : BitVec 40) (l r : BitVec 9) :
    (leafNodes f)[k]? ≠ some (.internal g l r) := by
  simp [leafNodes, List.getElem?_map]

/-- Before the first merge every leaf is in the queue (40_tree_builder.md R97). -/
theorem leafNodes_mergedInOrder (f : FreqTable) :
    MergedInOrder (leafNodes f) (List.range (leafNodes f).length) where
  queue i := by
    rw [List.mem_range]
    exact ⟨fun hi => ⟨hi, fun j g l r _ hn => absurd hn (leafNodes_getElem?_ne_internal f j g l r)⟩, fun h => h.1⟩
  merges k g l r hk := absurd hk (leafNodes_getElem?_ne_internal f k g l r)

/-- What every merge keeps holds of the nodes that the merge loop ends with. -/
theorem mergeLoop_keeps {P : List Node → List Nat → Prop}
    (hstep : ∀ (nodes : List Node) (q q1 q2 : List Nat) (a b : Nat), P nodes q → extractMin nodes q = some (a, q1) →
      extractMin nodes q1 = some (b, q2) → P (nodes ++ [mergedNode nodes a b]) (q2 ++ [nodes.length]))
    (k : Nat) {nodes : List Node} {q : List Nat} (h : P nodes q) : ∃ q', P (mergeLoop k nodes q) q' := by
  induction k generalizing nodes q with
  | zero => exact ⟨q, h⟩
  | succ k ih =>
    unfold mergeLoop
    split
    · exact ⟨q, h⟩
    · rename_i a q1 h1
      split
      · exact ⟨q, h⟩
      · rename_i b q2 h2
        exact ih (hstep nodes q q1 q2 a b h h1 h2)

/-- BUILD makes its tree in order (40_tree_builder.md R97, R100, R101). -/
theorem buildNodes_mergedInOrder (f : FreqTable) : ∃ q, MergedInOrder (buildNodes f) q := by
  have start : Merging f (leafNodes f) (List.range (leafNodes f).length) := leafNodes_length f ▸ leafNodes_merging f
  obtain ⟨q, -, h⟩ := mergeLoop_keeps (P := fun nodes q => Merging f nodes q ∧ MergedInOrder nodes q)
    (fun nodes q q1 q2 a b ⟨hm, h⟩ h1 h2 =>
      ⟨(hm.perm ((extractMin_perm h1).trans ((extractMin_perm h2).cons a))).merge, h.merge hm h1 h2⟩)
    (leafNodes f).length ⟨start, leafNodes_mergedInOrder f⟩
  exact ⟨q, h⟩

/-- Settles O15: by the invariant of the merge loop (`MergedInOrder`), which every merge keeps. -/
theorem mergesTakeTheTwoLeastQueuedNodes : Obligations.MergesTakeTheTwoLeastQueuedNodes := by
  intro f k g l r hk
  obtain ⟨q, h⟩ := buildNodes_mergedInOrder f
  obtain ⟨hl, hr, hne, least, next⟩ := h.merges k g l r hk
  exact ⟨hl, hr, fun e => hne (congrArg _ e), least, next⟩

/-! ## O17: codes and paths (40_tree_builder.md R104 to R106) -/

namespace Shape

/-- The root of a tree of two subtrees is no leaf. -/
theorem path_node_ne_nil {b : Byte} {l r : Shape} : (node l r).path b ≠ some [] := by
  intro h
  rcases path_node_some h with ⟨q, -, e⟩ | ⟨q, -, e⟩ <;> cases e

theorem path_node_false {b : Byte} {l r : Shape} {p : Bits} :
    (node l r).path b = some (false :: p) ↔ l.path b = some p := by
  simp only [path]
  cases l.path b <;> simp

/-- A path into the right subtree: the symbol has no leaf in the left one. -/
theorem path_node_true {b : Byte} {l r : Shape} (hn : (node l r).symbols.Nodup) {p : Bits} :
    (node l r).path b = some (true :: p) ↔ r.path b = some p := by
  obtain ⟨-, -, hdisj⟩ := List.nodup_append'.1 hn
  constructor
  · intro h
    rcases path_node_some h with ⟨q, -, e⟩ | ⟨q, hq, e⟩
    · cases e
    · cases e
      exact hq
  · intro h
    have hl : l.path b = none := path_eq_none.2 fun hb => hdisj hb (mem_symbols_of_path h)
    simp [path, hl, h]

/-- In a tree of two symbols or more the codes are the paths. -/
theorem codeOf_eq_iff {b : Byte} {T : Shape} (h : 2 ≤ T.symbols.length) {p : Bits} :
    T.codeOf b = p ∧ p ≠ [] ↔ T.path b = some p := by
  cases T with
  | leaf a => simp [symbols] at h
  | node l r =>
    rw [codeOf]
    cases hp : (node l r).path b with
    | none => simp [eq_comm]
    | some q =>
      rw [Option.getD_some, Option.some.injEq, and_iff_left_iff_imp]
      rintro rfl rfl
      exact path_node_ne_nil hp

/-- In a tree of one symbol its code is "0" (40_tree_builder.md R106). -/
theorem codeOf_of_length_one {T : Shape} (h : T.symbols.length = 1) (b : Byte) :
    T.codeOf b = if b ∈ T.symbols then [false] else [] := by
  cases T with
  | leaf a => simp [codeOf, symbols, eq_comm]
  | node l r =>
    have hl := l.depth_lt_length
    have hr := r.depth_lt_length
    simp only [symbols, List.length_append] at h
    omega

end Shape

/-- Following a path in the array from the root of a tree ends at the leaf whose path it is (40_tree_builder.md R104). -/
theorem Represents.leafAt_iff {nodes : List Node} {i : Nat} {T : Shape} (h : Represents nodes i T)
    (hn : T.symbols.Nodup) {b : Byte} {p : Bits} : leafAt nodes i p = some b ↔ T.path b = some p := by
  induction h generalizing p with
  | leaf h => cases p <;> simp [leafAt, h, Shape.path, eq_comm]
  | node h _ _ ihl ihr =>
    obtain ⟨hl, hr, -⟩ := List.nodup_append'.1 hn
    cases p with
    | nil =>
      simp only [leafAt, h, reduceCtorEq, false_iff]
      exact Shape.path_node_ne_nil
    | cons x p =>
      simp only [leafAt, h]
      cases x with
      | false => exact (ihl hl).trans Shape.path_node_false.symm
      | true => exact (ihr hr).trans (Shape.path_node_true hn).symm

/-- BUILD's tree as a shape whose leaves are the symbols present, each once. -/
theorem exists_represents_buildNodes {f : FreqTable} (hf : FreqTable.NonEmpty f) : ∃ T : Shape,
    Represents (buildNodes f) (rootIndex (buildNodes f)) T ∧ T.symbols.Perm (presentSymbols f) := by
  obtain ⟨shape, hshape, hsyms⟩ := (buildNodes_merging hf).shapes
  exact ⟨_, hshape _ (by simp), by rwa [List.flatMap_singleton] at hsyms⟩

section
variable {f : FreqTable} {T : Shape} (hsyms : T.symbols.Perm (presentSymbols f))
include hsyms

theorem Shape.symbols_nodup_of_perm : T.symbols.Nodup := hsyms.nodup_iff.2 (presentSymbols_nodup f)

theorem Shape.symbols_length_of_perm : T.symbols.length = nsym f := by rw [hsyms.length_eq, nsym_eq_length]

/-- ASSIGN gives every symbol its code in the tree of BUILD (40_tree_builder.md R105). -/
theorem Represents.get_assignCodes_buildNodes (hT : Represents (buildNodes f) (rootIndex (buildNodes f)) T) (b : Byte) :
    CodeTable.get (assignCodes (buildNodes f)) b = T.codeOf b :=
  hT.get_assignCodes (buildNodes_treeBounded f).2 (Shape.symbols_nodup_of_perm hsyms)
    (Shape.symbols_length_of_perm hsyms ▸ nsym_le f) b

end

/-- Settles O17: the codes are the paths of BUILD's tree (`Shape.codeOf_eq_iff`), and the array is walked along them
(`Represents.leafAt_iff`). -/
theorem codesAreRootToLeafPaths : Obligations.CodesAreRootToLeafPaths := by
  intro f hf
  obtain ⟨T, hT, hsyms⟩ := exists_represents_buildNodes hf
  have hcode := hT.get_assignCodes_buildNodes hsyms
  have hlen := Shape.symbols_length_of_perm hsyms
  refine ⟨fun h2 b p => ?_, fun h1 b => ?_⟩
  · rw [hcode, Shape.codeOf_eq_iff (hlen ▸ h2), hT.leafAt_iff (Shape.symbols_nodup_of_perm hsyms)]
  · rw [hcode, Shape.codeOf_of_length_one (hlen.trans h1)]
    simp only [hsyms.mem_iff, mem_presentSymbols, ite_not]

/-! ## O19: no gap between the codes (40_tree_builder.md R107) -/

/-- Following any bit string from the root meets a leaf, or stops above one. -/
theorem Shape.exists_path_comparable {T : Shape} (hn : T.symbols.Nodup) (bits : Bits) :
    ∃ (a : Byte) (p : Bits), T.path a = some p ∧ (p <+: bits ∨ bits <+: p) := by
  induction T generalizing bits with
  | leaf a => exact ⟨a, [], by simp [path], .inl List.nil_prefix⟩
  | node l r ihl ihr =>
    obtain ⟨hl, hr, -⟩ := List.nodup_append'.1 hn
    cases bits with
    | nil =>
      obtain ⟨a, p, hp, -⟩ := ihl hl []
      exact ⟨a, _, path_node_false.2 hp, .inr List.nil_prefix⟩
    | cons x bits =>
      cases x with
      | false =>
        obtain ⟨a, p, hp, h⟩ := ihl hl bits
        exact ⟨a, _, path_node_false.2 hp, by simpa using h⟩
      | true =>
        obtain ⟨a, p, hp, h⟩ := ihr hr bits
        exact ⟨a, _, (path_node_true hn).2 hp, by simpa using h⟩

/-- Settles O19: the string is comparable with some code (`Shape.exists_path_comparable`), and no code is longer than
MAXLEN. -/
theorem assignedCodesLeaveNoGap : Obligations.AssignedCodesLeaveNoGap := by
  intro f h2 bits hbits
  obtain ⟨T, hT, hsyms⟩ := exists_represents_buildNodes (f := f) (show nsym f ≠ 0 by omega)
  obtain ⟨a, p, hp, hcomp⟩ := Shape.exists_path_comparable (Shape.symbols_nodup_of_perm hsyms) bits
  obtain ⟨hcode, hne⟩ := (Shape.codeOf_eq_iff (Shape.symbols_length_of_perm hsyms ▸ h2)).2 hp
  rw [← hT.get_assignCodes_buildNodes hsyms] at hcode
  have hlen : p.length ≤ bits.length := by
    rw [hbits, ← hcode]
    exact length_get_le_maxLen _ a
  refine ⟨a, hcode ▸ hne, hcode ▸ ?_⟩
  rcases hcomp with h | h
  · exact h
  · exact (h.eq_of_length_le hlen) ▸ List.prefix_rfl

/-! ## O13, O16: BUILD and ASSIGN as commands (40_tree_builder.md R97, R105) -/

/-- Settles O13: NSYM decides whether BUILD raises EMPTY_INPUT, and it is 0 exactly when no symbol is present. -/
theorem buildReplacesTheTree : Obligations.BuildReplacesTheTree := by
  intro s
  have build : exec .build s = .next (buildStage s).complete := rfl
  refine ⟨fun h => ?_, fun ⟨b, hb⟩ => ?_⟩
  · rw [build, buildStage, if_pos ((nsym_eq_zero _).2 h)]
    rfl
  · rw [build, buildStage, if_neg fun h => hb ((nsym_eq_zero _).1 h b)]
    rfl

/-- Settles O16: ASSIGN raises NO_TREE exactly on no nodes. -/
theorem assignReplacesTheCodeTable : Obligations.AssignReplacesTheCodeTable := by
  intro s
  have assign : exec .assign s = .next (assignStage s).complete := rfl
  refine ⟨fun h => ?_, fun h => ?_⟩
  · rw [assign, assignStage, if_pos (List.length_eq_zero_iff.2 h)]
    rfl
  · rw [assign, assignStage, if_neg (List.length_eq_zero_iff.not.2 h)]
    rfl

end Sys2Proof.Machine

namespace Sys2Proof.Machine

/-! ## O20: unpacking a packed body (41_bit_packer.md R111) -/

/-- Within the string, bit `k` of the unpacked body is bit `7 - k mod 8` of its byte `k div 8` (20_memory.md R60), which is
bit `k` of the string; the padding is what `unpack` drops. -/
theorem unpack_packBody (b : Bits) : unpack (packBody b) (padCount b.length) = b := by
  obtain ⟨hpad, -⟩ := byteCount_spec b.length
  have hlen : 8 * (packBody b).length - padCount b.length = b.length := by rw [packBody_length]; omega
  refine List.ext_getElem? fun k => ?_
  rw [unpack, hlen]
  by_cases hk : k < b.length
  · rw [List.getElem?_take_of_lt hk, flatMap_bitsOfByte_getElem?, packBody_getLsbD (by omega),
      List.getElem?_eq_getElem hk, Option.getD_some]
  · have hk : b.length ≤ k := Nat.le_of_not_lt hk
    rw [List.getElem?_take_eq_none hk, List.getElem?_eq_none hk]

/-- Settles O20: the arithmetic of `byteCount_spec` and the round trip `unpack_packBody`. -/
theorem unpackUndoesPack : Obligations.UnpackUndoesPack := by
  intro b
  obtain ⟨hlen, hpad⟩ := byteCount_spec b.length
  exact ⟨by rw [packBody_length, hlen], hpad, Nat.mul_mod_right 8 _, unpack_packBody b⟩

/-! ## O22, O23: PACK and PACK_BITS (41_bit_packer.md R112, R113) -/

/-- Storing a string of `n` bytes (20_memory.md R75). -/
theorem State.storeDst_of_length (s : State) {w : List Byte} {n : Nat} (h : w.length = n) :
    s.storeDst w = { s.setLen n with mem := s.mem.writeBytes s.params.dstAddr.toNat w } := by
  subst h
  rfl

theorem packInto_of_overflow {s : State} {bits : Bits} (h : s.dstCapacity < byteCount bits.length) :
    packInto bits s = s.raise .dstOverflow := if_pos h

theorem packInto_of_fits {s : State} {bits : Bits} (h : byteCount bits.length ≤ s.dstCapacity) :
    packInto bits s =
      { (s.setBody (byteCount bits.length) (padCount bits.length) bits.length).setLen (byteCount bits.length) with
        mem := s.mem.writeBytes s.params.dstAddr.toNat (packBody bits) }.finish := by
  rw [packInto, if_neg (Nat.not_lt.2 h), State.storeDst_of_length _ (packBody_length bits)]
  rfl

theorem State.srcLength_eq_zero {s : State} : s.srcLength = 0 ↔ s.params.srcLen = 0#32 := by
  rw [State.srcLength, ← BitVec.toNat_inj, BitVec.toNat_zero]

/-- PACK of a non-empty source in which every byte has a code (41_bit_packer.md R110, R112). -/
theorem execPack_of_coded {s : State} (hw : s.WindowsReady) (h0 : s.srcLength ≠ 0)
    (hc : ∀ b ∈ s.srcBytes, CodeTable.get s.code b ≠ []) :
    execPack s = .next (packInto (s.srcBytes.flatMap fun b => CodeTable.get s.code b) s) := by
  simp only [execPack, State.checkBoth_ready hw, if_neg h0, enc_eq_some hc]

/-- Settles O22: `enc` is the codes of the bytes in order or fails at a byte without one, and the end of PACK is
`packInto`. -/
theorem packWritesTheCodedBody : Obligations.PackWritesTheCodedBody := by
  intro s hw
  have pack : exec .pack s = execPack s := rfl
  rw [pack]
  refine ⟨fun h0 => ?_, fun h0 hc => ?_, fun h0 hc bits n hbits hn => ?_⟩
  · simp only [execPack, State.checkBoth_ready hw, if_pos (State.srcLength_eq_zero.2 h0)]
  · simp only [execPack, State.checkBoth_ready hw, if_neg (State.srcLength_eq_zero.not.2 h0), enc_eq_none hc]
  · rw [execPack_of_coded hw (State.srcLength_eq_zero.not.2 h0) hc, ← hbits]
    subst hn
    refine ⟨fun hcap => ?_, fun hcap => ?_⟩
    · rw [packInto_of_overflow hcap]
    · rw [packInto_of_fits hcap]
      rfl

theorem isBitChar_iff {b : Byte} : isBitChar b = true ↔ b = ch0 ∨ b = ch1 := by
  rw [isBitChar, Bool.or_eq_true, beq_iff_eq, beq_iff_eq]

/-- PACK_BITS of a source that spells bits (41_bit_packer.md R113). -/
theorem execPackBits_of_ascii {s : State} {bits : Bits} (hw : s.WindowsReady) (h : s.srcBytes = ascii bits) :
    execPackBits s = .next (packInto bits s) := by
  simp only [execPackBits, State.checkBoth_ready hw, h, ascii_all_isBitChar, bitsOfAscii_ascii, if_true]

/-- PACK_BITS of a source with a byte that is no bit character (41_bit_packer.md R113). -/
theorem execPackBits_of_badBit {s : State} (hw : s.WindowsReady) (h : ∃ b ∈ s.srcBytes, b ≠ ch0 ∧ b ≠ ch1) :
    execPackBits s = .next (s.raise .badBit) := by
  obtain ⟨b, hb, h0, h1⟩ := h
  have hall : ¬ s.srcBytes.all isBitChar = true := fun hall =>
    (isBitChar_iff.1 (List.all_eq_true.1 hall b hb)).elim h0 h1
  simp only [execPackBits, State.checkBoth_ready hw, if_neg hall]

/-- Settles O23: a source of bit characters is the ASCII of the bits it spells, and the end of PACK_BITS is `packInto`. -/
theorem packBitsPacksAsciiBits : Obligations.PackBitsPacksAsciiBits := by
  intro s hw
  have packBits : exec .packBits s = execPackBits s := rfl
  rw [packBits]
  refine ⟨execPackBits_of_badBit hw, fun bits n hbits hn => ?_⟩
  rw [execPackBits_of_ascii hw hbits]
  subst hn
  refine ⟨fun hcap => ?_, fun hcap => ?_⟩
  · rw [packInto_of_overflow hcap]
  · rw [packInto_of_fits hcap]
    rfl

/-! ## O24: UNPACK_BITS (41_bit_packer.md R114) -/

/-- BAD_PAD comes after the window checks and before everything else (60_exceptions.md R154). -/
theorem exec_of_badPad {i : Instr} (hi : i ∈ [Instr.unpackBits, .decodeBody]) {s : State} (hw : s.WindowsReady)
    (h : 8 * s.srcLength < s.padIn) : exec i s = .next (s.raise .badPad) := by
  have hp : s.checkPad = some .badPad := if_pos h
  simp only [List.mem_cons, List.not_mem_nil, or_false] at hi
  rcases hi with rfl | rfl
  · simp only [exec, execUnpackBits, State.checkBoth_ready hw, hp]
  · simp only [exec, execDecodeBody, State.checkBoth_ready hw, hp]

theorem unpackInto_of_overflow {s : State} {bits : Bits} (h : s.dstCapacity < bits.length) :
    unpackInto bits s = s.raise .dstOverflow := if_pos h

theorem unpackInto_of_fits {s : State} {bits : Bits} (h : bits.length ≤ s.dstCapacity) :
    unpackInto bits s = { (s.setBits bits.length).setLen bits.length with
      mem := s.mem.writeBytes s.params.dstAddr.toNat (ascii bits) }.finish := by
  rw [unpackInto, if_neg (Nat.not_lt.2 h), State.storeDst_of_length _ (ascii_length bits)]
  rfl

/-- UNPACK_BITS after its checks (41_bit_packer.md R114). -/
theorem execUnpackBits_of_pad {s : State} (hw : s.WindowsReady) (hp : s.padIn ≤ 8 * s.srcLength) :
    execUnpackBits s = .next (unpackInto (unpack s.srcBytes s.padIn) s) := by
  simp only [execUnpackBits, State.checkBoth_ready hw, s.checkPad_eq_none.2 hp]

theorem State.unpack_srcBytes_length (s : State) : (unpack s.srcBytes s.padIn).length = 8 * s.srcLength - s.padIn := by
  rw [unpack_length, State.srcBytes_length]

/-- Settles O24: the unpacked bits number `8 * SRC_LEN - PAD_IN` (`State.unpack_srcBytes_length`), and the end of
UNPACK_BITS is `unpackInto`. -/
theorem unpackBitsWritesAsciiBits : Obligations.UnpackBitsWritesAsciiBits := by
  intro s hw
  refine ⟨exec_of_badPad (by decide) hw, fun hp n hn => ?_⟩
  have unpackBits : exec .unpackBits s = execUnpackBits s := rfl
  have hlen : (unpack s.srcBytes s.padIn).length = n := s.unpack_srcBytes_length.trans hn.symm
  have hbits : (s.srcBytes.flatMap bitsOfByte).take n = unpack s.srcBytes s.padIn := by
    rw [unpack, State.srcBytes_length, hn]
    rfl
  rw [unpackBits, execUnpackBits_of_pad hw hp, hbits, ← hlen]
  refine ⟨fun hcap => ?_, fun hcap => ?_⟩
  · rw [unpackInto_of_overflow hcap]
  · rw [unpackInto_of_fits hcap]
    rfl

/-! ## O27: DECODE_BODY (43_prefix_decoder.md R145) -/

/-- Settles O27: BAD_PAD, then the two ends of `decode` (`execDecodeBody_error`, `execDecodeBody_ok`). -/
theorem decodeBodyWritesTheSymbols : Obligations.DecodeBodyWritesTheSymbols := by
  intro s hw
  refine ⟨exec_of_badPad (by decide) hw, fun hp bits hbits => ?_⟩
  subst hbits
  have checked := s.checkPad_eq_none.2 hp
  refine ⟨fun e he => execDecodeBody_error (State.checkBoth_ready hw) checked he, fun out hout => ?_⟩
  have decoded := execDecodeBody_ok (State.checkBoth_ready hw) checked hout
  rw [← s.unpack_srcBytes_length] at decoded
  exact decoded

end Sys2Proof.Machine

namespace Sys2Proof.Machine

/-! ## O34: the refusals of the parser in order (42_archive_codec.md R128 to R132) -/

theorem mem_term_bytes (t : Term) : chLF ∈ t.bytes := by cases t <;> simp

/-- A line without LF holds no terminator, so it is read up to the terminator written after it
(42_archive_codec.md R128). -/
theorem readsLine_of_noLF (t : Term) {x : List Byte} (rest : List Byte) (h : ∀ b ∈ x, b ≠ chLF) :
    ReadsLine t.bytes (x ++ t.bytes ++ rest) x rest :=
  ⟨by simp [t.bytes_ne_nil], fun ht => h _ (ht.subset (mem_term_bytes t)) rfl, .inl rfl⟩

/-- A line of two numbers holds no LF (42_archive_codec.md R129). -/
theorem IsNumber.noLF {d1 d2 : List Byte} (h1 : IsNumber d1) (h2 : IsNumber d2) :
    ∀ b ∈ d1 ++ [chSP] ++ d2, b ≠ chLF := by
  obtain ⟨-, -, hd1, -⟩ := h1
  obtain ⟨-, -, hd2, -⟩ := h2
  have digit : ∀ b : Byte, 0x30 ≤ b.toNat → b ≠ chLF := by rintro b hb rfl; exact absurd hb (by decide)
  intro b hb
  simp only [List.mem_append, List.mem_singleton] at hb
  rcases hb with (hb | rfl) | hb
  · exact digit b (hd1 b hb).1
  · decide
  · exact digit b (hd2 b hb).1

/-- The archive after a first line of two numbers: PAD_RANGE, BODY_LENGTH, or what the region before the body gives
(42_archive_codec.md R129, R133). -/
theorem parseArchive_line1 (t : Term) {d1 d2 : List Byte} (rest : List Byte) (h1 : IsNumber d1) (h2 : IsNumber d2) :
    parseArchive t.bytes (d1 ++ [chSP] ++ d2 ++ t.bytes ++ rest) =
      if 7 < decVal d2 ∨ (decVal d1 = 0 ∧ 0 < decVal d2) then .error .padRange
      else if rest.length < decVal d1 then .error .bodyLength
      else (parseRegion t.bytes (rest.take (rest.length - decVal d1))).map fun w =>
        ⟨w, decVal d1, decVal d2, (d1 ++ [chSP] ++ d2 ++ t.bytes ++ rest).length - decVal d1⟩ := by
  simp only [parseArchive, splitAtTerm_line t _ rest (h1.noLF h2), parseLine1_number h1 h2]
  cases parseRegion t.bytes (rest.take (rest.length - decVal d1)) <;> rfl

/-- The same with the header region and the body named. -/
theorem parseArchive_region (t : Term) {d1 d2 region body : List Byte} (h1 : IsNumber d1) (h2 : IsNumber d2)
    (hpad : decVal d2 ≤ 7) (hzero : decVal d1 = 0 → decVal d2 = 0) (hbody : body.length = decVal d1) :
    parseArchive t.bytes (d1 ++ [chSP] ++ d2 ++ t.bytes ++ (region ++ body)) =
      (parseRegion t.bytes region).map fun w =>
        ⟨w, decVal d1, decVal d2, d1.length + 1 + d2.length + t.bytes.length + region.length⟩ := by
  have htake : (region ++ body).take ((region ++ body).length - decVal d1) = region := by
    simp [← hbody]
  have hhdr : (d1 ++ [chSP] ++ d2 ++ t.bytes ++ (region ++ body)).length - decVal d1 =
      d1.length + 1 + d2.length + t.bytes.length + region.length := by
    simp only [List.length_append, List.length_singleton]; omega
  rw [parseArchive_line1 t _ h1 h2, if_neg (by omega), if_neg (by simp; omega), htake, hhdr]

/-- The entries of a working table have codes of at most 255 bits, and no two share a code
(42_archive_codec.md R132). -/
structure CodesOnce (w : Entries) : Prop where
  bounded : ∀ e ∈ w, e.2.length ≤ 255
  unique : ∀ e ∈ w, ∀ e' ∈ w, e.2 = e'.2 → e = e'

/-- What the parser can answer after line 1: a refusal that is not line 1's, or a table with each code once
(42_archive_codec.md R130 to R132). -/
inductive HeaderOutcome : Except SubCause Entries → Prop where
  | refused {k : SubCause} (hk : k ≠ .line1Unterminated) : HeaderOutcome (.error k)
  | parsed {w : Entries} (hw : CodesOnce w) : HeaderOutcome (.ok w)

theorem HeaderOutcome.ne_line1Unterminated {o : Except SubCause Entries} (h : HeaderOutcome o) :
    o ≠ .error .line1Unterminated := by
  rintro rfl
  cases h with
  | refused hk => exact hk rfl

theorem HeaderOutcome.codesOnce {w : Entries} (h : HeaderOutcome (.ok w)) : CodesOnce w := by
  cases h with
  | parsed hw => exact hw

theorem codesOnce_nil : CodesOnce [] := ⟨by simp, by simp⟩

theorem CodesOnce.concat {w : Entries} (hw : CodesOnce w) {s : Byte} {c : Bits} (hlen : c.length ≤ 255)
    (hnew : ∀ e ∈ w, e.2 ≠ c) : CodesOnce (w ++ [(s, c)]) where
  bounded e he := by
    rcases List.mem_append.1 he with he | he
    · exact hw.bounded e he
    · rw [List.mem_singleton.1 he]; exact hlen
  unique e he e' he' heq := by
    rcases List.mem_append.1 he with he | he <;> rcases List.mem_append.1 he' with he' | he'
    · exact hw.unique e he e' he' heq
    · rw [List.mem_singleton.1 he'] at heq; exact absurd heq (hnew e he)
    · rw [List.mem_singleton.1 he] at heq; exact absurd heq.symm (hnew e' he')
    · rw [List.mem_singleton.1 he, List.mem_singleton.1 he']

theorem register_codeTooLong {w : Entries} {s : Byte} {c : Bits} (h : 255 < c.length) :
    register w s c = .error .codeTooLong := if_pos h

theorem register_dupSymbol {w : Entries} {s : Byte} {c : Bits} (hlen : c.length ≤ 255) (h : ∃ e ∈ w, e.1 = s) :
    register w s c = .error .dupSymbol := by
  rw [register, if_neg (Nat.not_lt.2 hlen), if_pos (by simpa using h)]

theorem register_dupCode {w : Entries} {s : Byte} {c : Bits} (hlen : c.length ≤ 255) (hs : ∀ e ∈ w, e.1 ≠ s)
    (h : ∃ e ∈ w, e.2 = c) : register w s c = .error .dupCode := by
  rw [register, if_neg (Nat.not_lt.2 hlen), if_neg, if_pos (by simpa using h)]
  simpa only [List.any_eq_true, beq_iff_eq, not_exists, not_and] using hs

/-- A registration keeps each code once (42_archive_codec.md R132). -/
theorem register_outcome {w : Entries} (hw : CodesOnce w) (s : Byte) (c : Bits) : HeaderOutcome (register w s c) := by
  cases h : register w s c with
  | error k => exact .refused (by rcases register_error h with rfl | rfl | rfl <;> decide)
  | ok w' =>
    obtain ⟨hlen, -, hnew, rfl⟩ := register_ok_iff.1 h
    exact .parsed (hw.concat hlen hnew)

theorem parseLine2_outcome (c : List Byte) : HeaderOutcome (parseLine2 c) := by
  have first (f : Bits) (hf : ¬ 255 < f.length) : CodesOnce (if f = [] then [] else [(chLF, f)]) := by
    split
    · exact codesOnce_nil
    · exact codesOnce_nil.concat (Nat.le_of_not_lt hf) (by simp)
  by_cases h1 : ∃ f : Bits, c = ascii f
  · obtain ⟨f, rfl⟩ := h1
    rw [parseLine2_one]
    split
    · exact .refused (by decide)
    · exact .parsed (first f ‹_›)
  · by_cases h2 : ∃ f g : Bits, c = ascii f ++ [chSP] ++ ascii g
    · obtain ⟨f, g, rfl⟩ := h2
      rw [parseLine2_two]
      split
      · exact .refused (by decide)
      · split
        · exact .refused (by decide)
        · exact register_outcome (first f ‹_›) _ _
    · rw [parseLine2_other h1 h2]
      exact .refused (by decide)

theorem parseSymbolLine_outcome (c : List Byte) {w : Entries} (hw : CodesOnce w) :
    HeaderOutcome (parseSymbolLine c w) := by
  by_cases h : ∃ (b : Byte) (p : Bits), b ≠ chLF ∧ b ≠ chCR ∧ c = [b, chColon, chSP] ++ ascii p
  · obtain ⟨b, p, hlf, hcr, rfl⟩ := h
    rw [parseSymbolLine_code p w hlf hcr]
    split
    · exact .refused (by decide)
    · exact register_outcome hw _ _
  · rw [parseSymbolLine_other w h]
    exact .refused (by decide)

/-- By the lines of the region: each is the sentinel, a refusal, or one entry more. -/
theorem parseOrdinary_outcome (t : Term) (region : List Byte) {w : Entries} (hw : CodesOnce w) :
    HeaderOutcome (parseOrdinary t.bytes region w) := by
  by_cases hr : region = []
  · rw [hr, parseOrdinary_nil]
    exact .refused (by decide)
  · obtain ⟨c, rest, hline⟩ := exists_readsLine t hr
    have hlt := hline.rest_lt
    have houtcome := parseSymbolLine_outcome c hw
    rw [parseOrdinary_line hline]
    split
    · exact .parsed hw
    · cases h : parseSymbolLine c w with
      | error k => rw [h] at houtcome; exact houtcome
      | ok w' => rw [h] at houtcome; exact parseOrdinary_outcome t rest houtcome.codesOnce
termination_by region.length

theorem parseRegion_outcome (t : Term) (region : List Byte) : HeaderOutcome (parseRegion t.bytes region) := by
  by_cases hr : region = []
  · rw [hr]
    exact .refused (by decide)
  · obtain ⟨c, rest, hline⟩ := exists_readsLine t hr
    have houtcome := parseLine2_outcome c
    rw [parseRegion_line hline]
    cases h : parseLine2 c with
    | error k => rw [h] at houtcome; exact houtcome
    | ok w => rw [h] at houtcome; exact parseOrdinary_outcome t rest houtcome.codesOnce

/-- A first line that is not two numbers is refused (42_archive_codec.md R129). -/
theorem parseArchive_line1Syntax (t : Term) {c : List Byte} (rest : List Byte) (hc : ¬ t.bytes <:+: c)
    (h : ¬ ∃ d1 d2 : List Byte, IsNumber d1 ∧ IsNumber d2 ∧ c = d1 ++ [chSP] ++ d2) :
    parseArchive t.bytes (c ++ t.bytes ++ rest) = .error .line1Syntax := by
  have none : parseLine1 c = none := by
    cases hp : parseLine1 c with
    | none => rfl
    | some p =>
      obtain ⟨d1, d2, h1, h2, hd, -⟩ := parseLine1_some (m := p.1) (n := p.2) hp
      exact absurd ⟨d1, d2, h1, h2, hd⟩ h
  simp only [parseArchive, splitAtTerm_first t c rest hc, none]

/-- An archive without a terminator is refused by that name, and no other is (42_archive_codec.md R129). -/
theorem parseArchive_line1Unterminated_iff (t : Term) (a : List Byte) :
    parseArchive t.bytes a = .error .line1Unterminated ↔ ¬ t.bytes <:+: a := by
  rw [← splitAtTerm_eq_none a t.bytes_ne_nil]
  refine ⟨fun h => ?_, fun h => by simp only [parseArchive, h]⟩
  cases hs : splitAtTerm t.bytes a with
  | none => rfl
  | some p =>
    obtain ⟨c, rest⟩ := p
    have hc := splitAtTerm_content a hs t.bytes_ne_nil
    rw [eq_of_splitAtTerm a hs] at h
    by_cases hd : ∃ d1 d2 : List Byte, IsNumber d1 ∧ IsNumber d2 ∧ c = d1 ++ [chSP] ++ d2
    · obtain ⟨d1, d2, h1, h2, rfl⟩ := hd
      rw [parseArchive_line1 t rest h1 h2] at h
      have hregion := parseRegion_outcome t (rest.take (rest.length - decVal d1))
      split at h
      · cases h
      · split at h
        · cases h
        · cases hr : parseRegion t.bytes (rest.take (rest.length - decVal d1)) with
          | error k => rw [hr] at h hregion; cases h; exact absurd rfl hregion.ne_line1Unterminated
          | ok w => rw [hr] at h; cases h
    · rw [parseArchive_line1Syntax t rest hc hd] at h
      cases h

theorem lineOneRule (t : Term) : LineOneRule t := by
  refine ⟨parseArchive_line1Unterminated_iff t, fun c rest hc h => parseArchive_line1Syntax t rest hc h,
    fun d1 d2 rest h1 h2 => ⟨fun hpad => ?_, fun hpad hzero hlen => ?_,
      fun hpad hzero region body hrest hbody => ?_⟩⟩
  · rw [parseArchive_line1 t rest h1 h2, if_pos hpad]
  · rw [parseArchive_line1 t rest h1 h2, if_neg (by omega), if_pos hlen]
  · rw [hrest, parseArchive_region t h1 h2 hpad hzero hbody]
    exact ⟨fun k hk => by rw [hk]; rfl, fun w hw => by rw [hw]; rfl⟩

theorem lineTwoRule (t : Term) : LineTwoRule t := by
  refine ⟨rfl, fun region c rest hline => ?_⟩
  rw [parseRegion_line hline]
  refine ⟨fun h1 h2 => by rw [parseLine2_other h1 h2], ?_, ?_⟩
  · rintro f1 rfl
    rw [parseLine2_one]
    exact ⟨fun hlong => by rw [if_pos hlong], fun hshort => by rw [if_neg (Nat.not_lt.2 hshort)]⟩
  · rintro f1 f2 rfl
    rw [parseLine2_two]
    refine ⟨fun hlong => by rw [if_pos hlong], fun hshort => ?_⟩
    rw [if_neg (Nat.not_lt.2 hshort)]
    refine ⟨fun hnil => by rw [if_pos hnil], fun hlong => ?_, fun hne hlen => ⟨fun heq => ?_, fun hdiff => ?_⟩⟩
    · rw [if_neg (by rintro rfl; simp at hlong), register_codeTooLong hlong]
    · subst heq
      rw [if_neg hne, if_neg hne, register_dupCode hlen (by simp; decide) (by simp)]
    · have hs : ∀ e ∈ (if f1 = [] then [] else [(chLF, f1)] : Entries), e.1 ≠ chCR := by
        split
        · simp
        · simp; decide
      have hnew : ∀ e ∈ (if f1 = [] then [] else [(chLF, f1)] : Entries), e.2 ≠ f2 := by
        split
        · simp
        · simpa using hdiff
      rw [if_neg hne, register_ok hlen hs hnew]

theorem ordinaryLineRule (t : Term) : OrdinaryLineRule t := by
  refine fun w => ⟨parseOrdinary_nil t.bytes w, fun region c rest hline => ?_⟩
  rw [parseOrdinary_line hline]
  refine ⟨fun hc => if_pos hc, fun hc h => (if_neg hc).trans (by rw [parseSymbolLine_other w h]), ?_⟩
  rintro b p hlf hcr rfl
  rw [if_neg (by simp [sentinel]), parseSymbolLine_code p w hlf hcr]
  refine ⟨fun hnil => by rw [if_pos hnil], fun hlong => ?_, fun hne hlen => ?_⟩
  · rw [if_neg (by rintro rfl; simp at hlong), register_codeTooLong hlong]
  · rw [if_neg hne]
    exact ⟨fun hdup => by rw [register_dupSymbol hlen hdup], fun hs hdup => by rw [register_dupCode hlen hs hdup],
      fun hs hnew => by rw [register_ok hlen hs hnew]⟩

/-- Settles O34: a region has a next line (`exists_readsLine`), and each line has its rule. -/
theorem lineOneErrorsInOrder : Obligations.LineOneErrorsInOrder :=
  ⟨fun d b => ⟨rfl, decVal_concat d b⟩, fun t =>
    ⟨fun _ => exists_readsLine t, lineOneRule t, lineTwoRule t, ordinaryLineRule t⟩⟩

/-! ## O33: what a parsed archive says of its table (42_archive_codec.md R129, R132) -/

/-- The entries of an accepted archive are those of its header region (42_archive_codec.md R133). -/
theorem parseArchive_entries {t a : List Byte} {r : Parsed} (h : parseArchive t a = .ok r) :
    ∃ region, parseRegion t region = .ok r.entries := by
  unfold parseArchive at h
  split at h
  · cases h
  · split at h
    · cases h
    · split at h
      · cases h
      · split at h
        · cases h
        · split at h
          · cases h
          · cases h
            exact ⟨_, ‹_›⟩

/-- A symbol's code in the table made of a working table: none without an entry, else that of one of its entries
(42_archive_codec.md R135). -/
theorem get_ofEntries_cases {w : Entries} (hw : ∀ e ∈ w, e.2.length ≤ 255) (a : Byte) :
    (CodeTable.get (CodeTable.ofEntries w) a = [] ∧ ∀ e ∈ w, e.1 ≠ a) ∨
      (a, CodeTable.get (CodeTable.ofEntries w) a) ∈ w := by
  induction w using List.reverseRecOn with
  | nil => exact .inl ⟨CodeTable.get_empty a, by simp⟩
  | append_singleton w e ih =>
    rw [CodeTable.ofEntries_concat]
    by_cases ha : a = e.1
    · subst ha
      rw [CodeTable.get_put_same _ _ (hw e (by simp))]
      exact .inr (by simp)
    · rw [CodeTable.get_put_ne _ ha]
      rcases ih fun e he => hw e (by simp [he]) with ⟨hget, hno⟩ | hmem
      · refine .inl ⟨hget, fun e' he' => ?_⟩
        rcases List.mem_append.1 he' with he' | he'
        · exact hno e' he'
        · rw [List.mem_singleton.1 he']; exact Ne.symm ha
      · exact .inr (List.mem_append_left _ hmem)

/-- Where no two entries share a code, no two symbols do (43_prefix_decoder.md R141). -/
theorem CodesOnce.distinct {w : Entries} (hw : CodesOnce w) : CodeTable.Distinct (CodeTable.ofEntries w) := by
  have entry (a : Byte) (h : CodeTable.get (CodeTable.ofEntries w) a ≠ []) :
      (a, CodeTable.get (CodeTable.ofEntries w) a) ∈ w :=
    (get_ofEntries_cases hw.bounded a).resolve_left fun hn => h hn.1
  intro a b ha heq
  have ha : CodeTable.get (CodeTable.ofEntries w) a ≠ [] := List.length_eq_zero_iff.not.1 ha
  exact congrArg Prod.fst (hw.unique _ (entry a ha) _ (entry b (heq ▸ ha)) heq)

/-- Settles O33: the table by what every line keeps (`parseRegion_outcome`), the sizes by `parseArchive_sizes`. -/
theorem parsedArchivesAreConsistent : Obligations.ParsedArchivesAreConsistent := by
  intro t a r h
  obtain ⟨hlen, hpad, hpad8⟩ := parseArchive_sizes h
  obtain ⟨region, hregion⟩ := parseArchive_entries h
  have hcodes : CodesOnce r.entries := (hregion ▸ parseRegion_outcome t region).codesOnce
  exact ⟨hcodes.distinct, CodeTable.bounded_ofEntries _, hpad, by omega, by omega, by omega⟩

/-! ## O32: parsing what the writer wrote (42_archive_codec.md R134) -/

/-- A number below `10 ^ k` has at most `k` decimal digits (00_scope.md R15). -/
theorem decFuel_length_le (m : Nat) {n k : Nat} (hk : 1 ≤ k) (h : n < 10 ^ k) : (decFuel m n).length ≤ k := by
  induction m generalizing n k with
  | zero => simpa [decFuel] using hk
  | succ m ih =>
    rw [decFuel]
    split
    · simpa using hk
    · obtain ⟨k, rfl⟩ : ∃ j, k = j + 1 := ⟨k - 1, by omega⟩
      have hk : 1 ≤ k := by
        by_contra h0
        obtain rfl : k = 0 := by omega
        omega
      have := ih hk (n := n / 10) (by rw [Nat.pow_succ] at h; omega)
      simpa using this

/-- The decimal text of a 32-bit value is a number of line 1 (42_archive_codec.md R116, R129). -/
theorem isNumber_dec {n : Nat} (h : n < 2 ^ 32) : IsNumber (dec n) := by
  obtain ⟨hdigit, hval, hlen⟩ := dec_spec n
  refine (isNumber_iff _).1 ?_
  have hle : (dec n).length ≤ 10 := decFuel_length_le n (by decide) (by omega)
  simp only [isNumber, hdigit, hval, hlen, hle, decide_true, Bool.and_self, Bool.true_and, decide_eq_true_eq]
  omega

theorem ascii_ne_LF (p : Bits) : ∀ b ∈ ascii p, b ≠ chLF := by
  intro b hb
  have : isBitChar b = true := List.all_eq_true.1 (ascii_all_isBitChar p) b hb
  rintro rfl
  exact absurd this (by decide)

/-- The entry that the writer's line of a symbol registers. -/
def CodeTable.entry (code : CodeTable) (b : Byte) : Byte × Bits := (b, CodeTable.get code b)

/-- The symbols that line 2 gives codes for (42_archive_codec.md R117). -/
def separatorSymbols (code : CodeTable) : List Byte := [chLF, chCR].filter fun b => (CodeTable.get code b).length != 0

theorem mem_separatorSymbols {code : CodeTable} {b : Byte} :
    b ∈ separatorSymbols code ↔ (b = chLF ∨ b = chCR) ∧ CodeTable.get code b ≠ [] := by
  simp [separatorSymbols]

theorem mem_ordinarySymbols {code : CodeTable} {b : Byte} :
    b ∈ ordinarySymbols code ↔ b ≠ chLF ∧ b ≠ chCR ∧ CodeTable.get code b ≠ [] := by
  simp [ordinarySymbols, mem_allSymbols, and_assoc]

/-- Every symbol with a code has its line, and only one (42_archive_codec.md R120). -/
theorem headerSymbols_nodup (code : CodeTable) : (separatorSymbols code ++ ordinarySymbols code).Nodup := by
  refine List.nodup_append'.2 ⟨List.Nodup.filter _ (by decide), allSymbols_nodup.filter _, fun b hs ho => ?_⟩
  obtain ⟨hlf, hcr, -⟩ := mem_ordinarySymbols.1 ho
  exact (mem_separatorSymbols.1 hs).1.elim hlf hcr

theorem mem_headerSymbols {code : CodeTable} {b : Byte} :
    b ∈ separatorSymbols code ++ ordinarySymbols code ↔ CodeTable.get code b ≠ [] := by
  rw [List.mem_append, mem_separatorSymbols, mem_ordinarySymbols]
  tauto

section
variable {code : CodeTable} (hb : CodeTable.Bounded code) (hd : CodeTable.Distinct code)
include hb

/-- The table made of the entries of all symbols with a code is the table itself (42_archive_codec.md R135). -/
theorem ofEntries_map_entry {symbols : List Byte} (hs : ∀ b, CodeTable.get code b ≠ [] → b ∈ symbols) :
    CodeTable.ofEntries (symbols.map code.entry) = code := by
  refine CodeTable.ext_get fun a => ?_
  have hlen : ∀ e ∈ symbols.map code.entry, e.2.length ≤ 255 := fun e he => by
    obtain ⟨b, -, rfl⟩ := List.mem_map.1 he
    exact hb b
  rcases get_ofEntries_cases hlen a with ⟨hget, hno⟩ | hmem
  · rw [hget]
    by_contra hne
    exact hno _ (List.mem_map_of_mem (hs a (Ne.symm hne))) rfl
  · obtain ⟨b, -, he⟩ := List.mem_map.1 hmem
    obtain ⟨rfl, hcode⟩ := Prod.mk.injEq .. ▸ he
    exact hcode.symm

include hd

/-- A symbol that is new to the working table is registered with its code (42_archive_codec.md R132). -/
theorem register_entry {done : List Byte} {b : Byte} (hnew : b ∉ done) (hcode : CodeTable.get code b ≠ []) :
    register (done.map code.entry) b (CodeTable.get code b) = .ok ((done ++ [b]).map code.entry) := by
  have entry : ∀ e ∈ done.map code.entry, ∃ c ∈ done, e = (c, CodeTable.get code c) := fun e he => by
    obtain ⟨c, hc, rfl⟩ := List.mem_map.1 he
    exact ⟨c, hc, rfl⟩
  rw [register_ok (hb b), List.map_append]
  · rfl
  · rintro e he rfl
    obtain ⟨c, hc, rfl⟩ := entry e he
    exact hnew hc
  · intro e he heq
    obtain ⟨c, hc, rfl⟩ := entry e he
    have hne : (CodeTable.get code b).length ≠ 0 := List.length_eq_zero_iff.not.2 hcode
    exact hnew (hd b c hne heq.symm ▸ hc)

/-- The ordinary lines register the symbols they are of, up to the sentinel (42_archive_codec.md R118, R131). -/
theorem parseOrdinary_symbolLines (t : Term) {done todo : List Byte} (hn : (done ++ todo).Nodup)
    (hs : ∀ b ∈ todo, b ≠ chLF ∧ b ≠ chCR ∧ CodeTable.get code b ≠ []) :
    parseOrdinary t.bytes (todo.flatMap (symbolLine code t.bytes) ++ (sentinel ++ t.bytes)) (done.map code.entry) =
      .ok ((done ++ todo).map code.entry) := by
  induction todo generalizing done with
  | nil =>
    have hline := readsLine_of_noLF t (x := sentinel) [] (by decide)
    rw [List.append_nil] at hline
    rw [List.flatMap_nil, List.nil_append, parseOrdinary_line hline, if_pos rfl, List.append_nil]
  | cons b todo ih =>
    obtain ⟨hlf, hcr, hcode⟩ := hs b (by simp)
    have hnew : b ∉ done := fun h => (List.disjoint_of_nodup_append hn) h (by simp)
    have hline := readsLine_of_noLF t (x := [b, chColon, chSP] ++ ascii (CodeTable.get code b))
      (todo.flatMap (symbolLine code t.bytes) ++ (sentinel ++ t.bytes)) (by
        simp only [List.mem_append, List.mem_cons, List.not_mem_nil, or_false]
        rintro c ((rfl | rfl | rfl) | hc)
        exacts [hlf, by decide, by decide, ascii_ne_LF _ c hc])
    have hregion : (b :: todo).flatMap (symbolLine code t.bytes) ++ (sentinel ++ t.bytes) =
        [b, chColon, chSP] ++ ascii (CodeTable.get code b) ++ t.bytes ++
          (todo.flatMap (symbolLine code t.bytes) ++ (sentinel ++ t.bytes)) := by
      simp only [List.flatMap_cons, symbolLine, List.append_assoc]
    rw [hregion, parseOrdinary_line hline, if_neg (by simp [sentinel]), parseSymbolLine_code _ _ hlf hcr, if_neg hcode,
      register_entry hb hd hnew hcode]
    simpa using ih (done := done ++ [b]) (by simpa using hn) fun c hc => hs c (by simp [hc])

/-- Line 2 registers LF and CR, those of them that have a code (42_archive_codec.md R117, R130). -/
theorem parseLine2_line2 : parseLine2 (line2 code []) = .ok ((separatorSymbols code).map code.entry) := by
  have first : (if CodeTable.get code chLF = [] then [] else [(chLF, CodeTable.get code chLF)] : Entries) =
      ([chLF].filter fun b => (CodeTable.get code b).length != 0).map code.entry := by
    by_cases hlf : CodeTable.get code chLF = [] <;> simp [hlf, CodeTable.entry]
  have hlf := hb chLF
  by_cases hcr : CodeTable.get code chCR = []
  · have hline : line2 code [] = ascii (CodeTable.get code chLF) := by simp [line2, hcr]
    have hsyms : separatorSymbols code = [chLF].filter fun b => (CodeTable.get code b).length != 0 := by
      simp [separatorSymbols, List.filter_cons, hcr]
    rw [hline, parseLine2_one, if_neg (by omega), first, hsyms]
  · have hline : line2 code [] = ascii (CodeTable.get code chLF) ++ [chSP] ++ ascii (CodeTable.get code chCR) := by
      simp [line2, hcr]
    have hsyms : separatorSymbols code = ([chLF].filter fun b => (CodeTable.get code b).length != 0) ++ [chCR] := by
      rw [separatorSymbols, ← List.singleton_append, List.filter_append]
      simp [hcr]
    have hnew : chCR ∉ [chLF].filter fun b => (CodeTable.get code b).length != 0 := fun h =>
      absurd (List.mem_filter.1 h).1 (by decide)
    rw [hline, parseLine2_two, if_neg (by omega), if_neg hcr, first, register_entry hb hd hnew hcr, hsyms]

/-- The header after line 1, parsed: the entries of all symbols with a code (42_archive_codec.md R134). -/
theorem parseRegion_headerLines (t : Term) :
    parseRegion t.bytes (line2 code t.bytes ++ (ordinarySymbols code).flatMap (symbolLine code t.bytes) ++
      (sentinel ++ t.bytes)) = .ok ((separatorSymbols code ++ ordinarySymbols code).map code.entry) := by
  have hnoLF : ∀ b ∈ line2 code [], b ≠ chLF := by
    intro b hmem
    simp only [line2, List.append_nil, List.mem_append] at hmem
    rcases hmem with hmem | hmem
    · exact ascii_ne_LF _ b hmem
    · split at hmem
      · rcases List.mem_append.1 hmem with hmem | hmem
        · rw [List.mem_singleton.1 hmem]; decide
        · exact ascii_ne_LF _ b hmem
      · cases hmem
  have hline2 : line2 code t.bytes = line2 code [] ++ t.bytes := by simp [line2]
  rw [hline2, List.append_assoc (_ ++ _), parseRegion_line (readsLine_of_noLF t _ hnoLF), parseLine2_line2 hb hd]
  exact parseOrdinary_symbolLines hb hd t (headerSymbols_nodup code) fun b h => mem_ordinarySymbols.1 h

end

/-- Settles O32: line 1 holds the two sizes (`isNumber_dec`), and the other lines the entries of all symbols with a code
(`parseRegion_headerLines`), which make up the table (`ofEntries_map_entry`). -/
theorem parseInvertsTheArchiveWriter : Obligations.ParseInvertsTheArchiveWriter := by
  intro code t bits hb hd hlen
  obtain ⟨hcount, hpad⟩ := byteCount_spec bits.length
  obtain ⟨-, hbody, -⟩ := dec_spec (byteCount bits.length)
  obtain ⟨-, hpadVal, -⟩ := dec_spec (padCount bits.length)
  have hparse := parseArchive_region t (body := packBody bits) (region := line2 code t.bytes ++
      (ordinarySymbols code).flatMap (symbolLine code t.bytes) ++ (sentinel ++ t.bytes))
    (isNumber_dec hlen) (isNumber_dec (n := padCount bits.length) (by omega)) (by omega) (by omega)
    (by rw [packBody_length, hbody])
  rw [parseRegion_headerLines hb hd, hbody, hpadVal] at hparse
  refine ⟨_, .trans (congrArg _ ?_) hparse, ofEntries_map_entry hb fun b h => mem_headerSymbols.2 h, rfl, rfl, ?_⟩
  · simp only [archiveOf, header, line1, List.append_assoc]
  · simp only [header, List.length_append, line1_length]
    omega

end Sys2Proof.Machine

namespace Sys2Proof.Machine

/-! ## O29, O30: MEASURE and ENCODE (42_archive_codec.md R125, R126) -/

/-- The projected archive size, by the header written (42_archive_codec.md R122, R123). -/
theorem archiveSize_eq (code : CodeTable) (t : List Byte) (n : Nat) : archiveSize code t.length n =
    (header code (byteCount n) (padCount n) t).length + byteCount n := by
  rw [header_length, archiveSize]

/-- The five size registers, by the header written (42_archive_codec.md R125). -/
theorem State.setSizes_eq (n : Nat) (s : State) : s.setSizes n =
    (s.setBody (byteCount n) (padCount n) n).setArch (header s.code (byteCount n) (padCount n) s.term).length
      ((header s.code (byteCount n) (padCount n) s.term).length + byteCount n) := by
  rw [State.setSizes, header_length, archiveSize]

/-- Completion with a decision on NOTCOMP, RES_LEN being 0 either way (60_exceptions.md R153). -/
theorem State.ite_notComp_finish (s : State) (c : Prop) [Decidable c] :
    (if c then (s.setLen 0).notComp else (s.setLen 0).finish) = { s.setLen 0 with
      flight := none
      status := { s.status with done := true, notcomp := s.status.notcomp || decide c } } := by
  by_cases h : c
  · rw [if_pos h, decide_eq_true h, Bool.or_true]
    rfl
  · rw [if_neg h, decide_eq_false h, Bool.or_false]
    rfl

/-- MEASURE of a non-empty source in which every byte has a code (42_archive_codec.md R124, R125). -/
theorem execMeasure_of_enc {s : State} {bits : Bits} (hs : s.SrcReady) (h0 : s.srcLength ≠ 0)
    (h : enc s.code s.srcBytes = some bits) : execMeasure s = .next
      (if NotCompressible s.code (archiveSize s.code s.term.length bits.length) s.srcLength then
        ((s.setSizes bits.length).setLen 0).notComp
      else ((s.setSizes bits.length).setLen 0).finish) := by
  simp only [execMeasure, State.checkSrc_ready hs, if_neg h0, h]
  split <;> rfl

/-- Settles O29: after its checks MEASURE sets the sizes and the decision (`execMeasure_of_enc`). -/
theorem measureReportsSizesAndDecision : Obligations.MeasureReportsSizesAndDecision := by
  intro s hs
  have measure : exec .measure s = execMeasure s := rfl
  rw [measure]
  refine ⟨fun h0 => ?_, fun h0 hc => ?_, fun h0 hc n body pad hdr hn hbody hpad hhdr => ?_⟩
  · simp only [execMeasure, State.checkSrc_ready hs, if_pos (State.srcLength_eq_zero.2 h0)]
  · simp only [execMeasure, State.checkSrc_ready hs, if_neg (State.srcLength_eq_zero.not.2 h0), enc_eq_none hc]
  · rw [execMeasure_of_enc hs (State.srcLength_eq_zero.not.2 h0) (enc_eq_some hc), State.ite_notComp_finish, ← hn,
      State.setSizes_eq, archiveSize_eq]
    subst hhdr hpad hbody
    rfl

/-- Settles O30: past its checks ENCODE is its encode stage (`encodeStage_of_enc`), whose sizes are those of the header
and the body. -/
theorem encodeWritesTheArchive : Obligations.EncodeWritesTheArchive := by
  intro s hw
  have encode : exec .encode s = execEncode s := rfl
  rw [encode]
  refine ⟨fun h0 => ?_, fun h0 hc => ?_, fun h0 hc bits body pad hdr t hbits hbody hpad hhdr ht => ?_⟩
  · simp only [execEncode, State.checkBoth_ready hw, if_pos (State.srcLength_eq_zero.2 h0)]
  · rw [execEncode_of_ready hw (State.srcLength_eq_zero.not.2 h0), encodeStage, enc_eq_none hc]
  · have henc : enc s.code s.srcBytes = some bits := hbits ▸ enc_eq_some hc
    have hsizes : s.setSizes bits.length = t := by
      rw [State.setSizes_eq, ht, hhdr, hpad, hbody]
      rfl
    have hsize : archiveSize s.code s.term.length bits.length = hdr.length + body := by
      rw [archiveSize_eq, hhdr, hpad, hbody]
      rfl
    rw [execEncode_of_ready hw (State.srcLength_eq_zero.not.2 h0), encodeStage_of_enc henc, hsizes, hsize]
    refine ⟨fun hnot => ?_, fun h1 hlen hcap => ?_, fun h1 hlen hcap => ?_⟩
    · exact congrArg _ (if_pos hnot)
    · have hyes : ¬ NotCompressible s.code (hdr.length + body) s.srcLength := not_or.2 ⟨h1, Nat.not_le.2 hlen⟩
      exact congrArg _ ((if_neg hyes).trans (if_pos hcap))
    · have hyes : ¬ NotCompressible s.code (hdr.length + body) s.srcLength := not_or.2 ⟨h1, Nat.not_le.2 hlen⟩
      have harchive : archiveOf s.code s.term bits = hdr ++ packBody bits := by
        rw [hhdr, hpad, hbody]
        rfl
      have hwritten : (hdr ++ packBody bits).length = hdr.length + body := by
        rw [← harchive, archiveOf_length, hsize]
      refine congrArg _ ((if_neg hyes).trans ((if_neg (Nat.not_lt.2 hcap)).trans ?_))
      rw [harchive, State.storeDst_of_length _ hwritten, ht]
      rfl

/-! ## O31: the size of a written archive (42_archive_codec.md R139) -/

theorem encode_compress_subset : [Instr.encode, .compress] ⊆ bothWindowCommands := by decide

/-- The state that the encode stage of ENCODE or COMPRESS starts from: COMPRESS has made the tables of the content
(42_archive_codec.md R137). -/
def State.beforeEncode (i : Instr) (s : State) : State := if i = .compress then s.withContentTables else s

/-- The stages before it touch tables alone. -/
theorem State.beforeEncode_keeps (i : Instr) (s : State) :
    (s.beforeEncode i).params = s.params ∧ (s.beforeEncode i).mem = s.mem := by
  unfold State.beforeEncode
  split <;> exact ⟨rfl, rfl⟩

/-- An ENCODE or COMPRESS without an error has reached its encode stage (42_archive_codec.md R126, R137). -/
theorem exec_eq_encodeStage {i : Instr} (hi : i ∈ [Instr.encode, .compress]) {s t : State} (h : exec i s = .next t)
    (herr : t.status.err = false) : s.srcLength ≠ 0 ∧ t = encodeStage (s.beforeEncode i) := by
  have notRaised (u : State) (e : ErrCode) : exec i s ≠ .next (u.raise e) := fun hu => by
    rw [h] at hu; cases hu; cases herr
  have hw : s.WindowsReady := by
    cases hc : s.checkBoth with
    | none => exact s.checkBoth_eq_none.1 hc
    | some e => exact absurd (exec_of_checkBoth (encode_compress_subset hi) hc) (notRaised s e)
  simp only [List.mem_cons, List.not_mem_nil, or_false] at hi
  have h0 : s.srcLength ≠ 0 := fun h0 => by
    rcases hi with rfl | rfl
    · exact notRaised _ _ ((encodeWritesTheArchive s hw).1 (State.srcLength_eq_zero.1 h0))
    · exact notRaised _ _ (execCompress_of_empty hw h0)
  refine ⟨h0, Host.Outcome.next.inj (h.symm.trans ?_)⟩
  rcases hi with rfl | rfl
  · exact execEncode_of_ready hw h0
  · exact execCompress_of_nonEmpty hw h0

/-- An encode stage that succeeds has written the archive, which is smaller than the content
(42_archive_codec.md R126). -/
theorem encodeStage_success {u : State} (herr : (encodeStage u).status.err = false)
    (hcomp : (encodeStage u).status.notcomp = false) : ∃ bits, enc u.code u.srcBytes = some bits ∧
      archiveSize u.code u.term.length bits.length < u.srcLength ∧
      encodeStage u = ((u.setSizes bits.length).storeDst (archiveOf u.code u.term bits)).finish := by
  cases henc : enc u.code u.srcBytes with
  | none => simp [encodeStage, henc] at herr
  | some bits =>
    rw [encodeStage_of_enc henc] at herr hcomp ⊢
    by_cases hnot : NotCompressible u.code (archiveSize u.code u.term.length bits.length) u.srcLength
    · simp [if_pos hnot] at hcomp
    · rw [if_neg hnot] at herr ⊢
      by_cases hcap : u.dstCapacity < archiveSize u.code u.term.length bits.length
      · simp [if_pos hcap] at herr
      · exact ⟨bits, rfl, Nat.lt_of_not_le (not_or.1 hnot).2, if_neg hcap⟩

/-- A command that stores has RES_LEN = 0 when its result is not-compressible (60_exceptions.md R153). -/
theorem StoreEnd.len_of_notcomp {s t : State} (h : StoreEnd s (.next t)) (hs : s.status.notcomp = false)
    (ht : t.status.notcomp = true) : t.res.len = 0#32 := by
  cases h with
  | raised u e => rfl
  | notCompressible u => rfl
  | stored u w hu =>
    have : u.status.notcomp = true := ht
    rw [hu.status, hs] at this
    cases this

/-- The length registers of a written archive smaller than a 32-bit length: none of them wraps
(42_archive_codec.md R139). -/
theorem archive_registers {u : State} {bits : Bits} {len : Word}
    (h : archiveSize u.code u.term.length bits.length < len.toNat) {t : State}
    (ht : t = ((u.setSizes bits.length).storeDst (archiveOf u.code u.term bits)).finish) :
    t.res.len = t.res.arch ∧ t.res.arch.toNat = archiveSize u.code u.term.length bits.length ∧
      t.res.arch.toNat = t.res.hdr.toNat + t.res.body.toNat := by
  have hlen := len.isLt
  have hsum : archiveSize u.code u.term.length bits.length =
    headerSize u.code (byteCount bits.length) (padCount bits.length) u.term.length + byteCount bits.length := rfl
  subst ht
  simp only [State.finish_res, State.storeDst_res, State.setSizes_res, archiveOf_length, BitVec.toNat_ofNat, true_and]
  omega

/-- Settles O31. -/
theorem archivesAreSmallerThanTheirInput : Obligations.ArchivesAreSmallerThanTheirInput := by
  intro i s t hi hs hcomp h
  refine ⟨fun herr hok => ?_, fun hnot => ?_⟩
  · obtain ⟨-, rfl⟩ := exec_eq_encodeStage hi h herr
    obtain ⟨bits, -, hsize, ht⟩ := encodeStage_success herr hok
    rw [State.srcLength, (s.beforeEncode_keeps i).1] at hsize
    obtain ⟨hlen, harch, hsum⟩ := archive_registers hsize ht
    exact ⟨hlen, hsum, harch ▸ hsize⟩
  · exact (h ▸ exec_storeEnd (encode_compress_subset hi) s).len_of_notcomp hcomp hnot

end Sys2Proof.Machine

namespace Sys2Proof.Machine

/-! ## O35, O36: PARSE and DECOMPRESS (42_archive_codec.md R135, R136) -/

/-- The code table and the size registers of a successful parse (42_archive_codec.md R135). -/
theorem State.setParsed_eq (r : Parsed) (s : State) : s.setParsed r = { s with
    code := CodeTable.ofEntries r.entries
    res := ⟨0#32, BitVec.ofNat 32 r.body, BitVec.ofNat 3 r.pad, BitVec.ofNat 32 r.hdr, s.params.srcLen,
      BitVec.ofNat 32 (8 * r.body - r.pad)⟩ } := by
  have hlen : BitVec.ofNat 32 s.srcLength = s.params.srcLen := BitVec.ofNat_toNat ..
  rw [← hlen]
  rfl

/-- Settles O35: PARSE past its window check (`execParse_eq`), and the registers of a successful parse
(`State.setParsed_eq`). -/
theorem parseReplacesTheCodeTable : Obligations.ParseReplacesTheCodeTable := by
  intro s hs
  have parse : exec .parse s = execParse s := rfl
  rw [parse]
  refine ⟨fun k hk => ?_, fun r hr => ?_⟩
  · have hk : parseArchive s.term s.srcBytes = .error k := hk
    simp only [execParse_eq, State.checkSrc_ready hs, hk]
    rfl
  · rw [execParse_ok hs hr, State.setParsed_eq]
    rfl

/-- Settles O36: DECOMPRESS past its window checks (`execDecompress_eq`), by the outcomes of its parse and of its decode
stage. -/
theorem decompressParsesThenDecodes : Obligations.DecompressParsesThenDecodes := by
  intro s hw
  have decompress : exec .decompress s = execDecompress s := rfl
  rw [decompress]
  refine ⟨fun k hk => ?_, fun r t hr ht => ?_⟩
  · have hk : parseArchive s.term s.srcBytes = .error k := hk
    simp only [execDecompress_eq, State.checkBoth_ready hw, hk]
    rfl
  · have hparsed : s.setParsed r = t := (State.setParsed_eq r s).trans ht.symm
    have hcode : t.code = CodeTable.ofEntries r.entries := by rw [ht]
    rw [hcode]
    refine ⟨fun e he => ?_, fun out hout => ?_⟩
    · rw [execDecompress_error hw hr he, hparsed]
    · rw [execDecompress_ok hw hr hout, hparsed, ht]
      rfl

/-! ## O39: DECOMPRESS of a written archive (42_archive_codec.md R138) -/

theorem CodeTable.PrefixFree.distinct {code : CodeTable} (h : CodeTable.PrefixFree code) : CodeTable.Distinct code :=
  fun a b ha heq => h a b ha (heq ▸ List.prefix_rfl)

/-- In a table of distinct codes the lookup of a symbol's code finds the symbol (43_prefix_decoder.md R141). -/
theorem CodeTable.Distinct.lookup_get {code : CodeTable} (h : CodeTable.Distinct code) {b : Byte}
    (hb : CodeTable.get code b ≠ []) : CodeTable.lookup code (CodeTable.get code b) = some b := by
  cases hl : CodeTable.lookup code (CodeTable.get code b) with
  | none => exact absurd rfl (CodeTable.ne_of_lookup_none hl b)
  | some a => rw [h b a (List.length_eq_zero_iff.not.2 hb) (CodeTable.get_of_lookup hl).symm]

/-- In a prefix-free table nothing matches before the whole of a code has been read (43_prefix_decoder.md R140). -/
theorem CodeTable.PrefixFree.lookup_take {code : CodeTable} (h : CodeTable.PrefixFree code) {b : Byte} {k : Nat}
    (hk : 1 ≤ k) (hlt : k < (CodeTable.get code b).length) :
    CodeTable.lookup code ((CodeTable.get code b).take k) = none := by
  refine CodeTable.lookup_eq_none fun a ha => ?_
  have hlen : (CodeTable.get code a).length = k := by rw [ha, List.length_take]; omega
  obtain rfl := h a b (by omega) (ha ▸ List.take_prefix _ _)
  omega

/-- One code read, one symbol out (43_prefix_decoder.md R140). -/
theorem decodeLoop_code {code : CodeTable} (h : CodeTable.PrefixFree code) {b : Byte} (hb : CodeTable.get code b ≠ [])
    {cap : Nat} {out : List Byte} (hcap : out.length < cap) (rest : Bits) :
    decodeLoop code (maxLen code) cap (CodeTable.get code b ++ rest) [] out =
      decodeLoop code (maxLen code) cap rest [] (out ++ [b]) := by
  obtain ⟨q, x, hqx⟩ := (List.eq_nil_or_concat' (CodeTable.get code b)).resolve_left hb
  have hmax := length_get_le_maxLen code b
  have hlookup := h.distinct.lookup_get hb
  have hnone : ∀ k, 1 ≤ k → k ≤ q.length → code.lookup ([] ++ q.take k) = none := fun k hk hkq => by
    have := h.lookup_take (b := b) hk (by simp [hqx]; omega)
    rwa [hqx, List.take_append_of_le_length hkq] at this
  rw [hqx] at hmax hlookup
  rw [hqx, List.append_assoc, decodeLoop_collect q [] _ out hnone (by simpa using hmax), List.nil_append,
    List.singleton_append, decodeLoop, hlookup]
  exact if_neg hcap.ne

/-- What a prefix-free table encodes it decodes, given the capacity (43_prefix_decoder.md R144). -/
theorem decodeLoop_enc {code : CodeTable} (h : CodeTable.PrefixFree code) {c : List Byte} {bits : Bits}
    (henc : enc code c = some bits) {cap : Nat} {out : List Byte} (hcap : out.length + c.length ≤ cap) :
    decodeLoop code (maxLen code) cap bits [] out = .ok (out ++ c) := by
  induction c generalizing bits out with
  | nil =>
    cases henc
    simp [decodeLoop]
  | cons b c ih =>
    obtain ⟨hb, rest, hrest, rfl⟩ := enc_cons henc
    rw [List.length_cons] at hcap
    rw [decodeLoop_code h hb (by omega), ih hrest (by simp; omega), List.append_assoc, List.singleton_append]

theorem decodeBits_enc {code : CodeTable} (h : CodeTable.PrefixFree code) {c : List Byte} {bits : Bits}
    (henc : enc code c = some bits) {cap : Nat} (hcap : c.length ≤ cap) : decodeBits bits code cap = .ok c :=
  decodeLoop_enc h henc (out := []) (by simpa using hcap)

/-- DECOMPRESS of a source window that holds an archive of a content gives the content
(42_archive_codec.md R134, R138). -/
theorem execDecompress_archiveOf {q : State} {code : CodeTable} {c : List Byte} {bits : Bits} (hq : q.WindowsReady)
    (hp : CodeTable.PrefixFree code) (hb : CodeTable.Bounded code) (henc : enc code c = some bits)
    (hsrc : q.srcBytes = archiveOf code q.term bits) (hcap : c.length ≤ q.dstCapacity) :
    ∃ r, execDecompress q = .next ((q.setParsed r).storeDst c).finish := by
  have hsize : byteCount bits.length < 2 ^ 32 := by
    have hlen := q.srcBytes_length_lt
    rw [hsrc, archiveOf, List.length_append, packBody_length] at hlen
    omega
  obtain ⟨r, hr, htable, -, hpad, hhdr⟩ := parseInvertsTheArchiveWriter code q.ctrl.term bits hb hp.distinct hsize
  have hr : parseArchive q.term q.srcBytes = .ok r := hsrc ▸ hr
  have hbody : q.srcBytes.drop r.hdr = packBody bits := by
    rw [hsrc, hhdr]
    exact List.drop_left
  refine ⟨r, execDecompress_ok hq hr ?_⟩
  rw [hbody, hpad, unpack_packBody, htable, decodeBits_enc hp henc hcap]

/-- The encode stage of COMPRESS, or of ENCODE with a table that ASSIGN made, has a prefix-free table of bounded codes
(40_tree_builder.md R107). -/
theorem State.beforeEncode_code {i : Instr} {s : State} (h0 : s.srcLength ≠ 0)
    (h : i = .compress ∨
      (i = .encode ∧ ∃ f : FreqTable, FreqTable.NonEmpty f ∧ s.code = assignCodes (buildNodes f))) :
    CodeTable.PrefixFree (s.beforeEncode i).code ∧ CodeTable.Bounded (s.beforeEncode i).code := by
  have assigned {f : FreqTable} (hf : FreqTable.NonEmpty f) := assignedCodesArePrefixFree f hf
  rcases h with rfl | ⟨rfl, f, hf, hcode⟩
  · obtain ⟨hp, hb, -⟩ := assigned (countBytes_nonEmpty s.srcBytes_length_lt (State.srcBytes_eq_nil.not.2 h0))
    exact ⟨hp, hb⟩
  · obtain ⟨hp, hb, -⟩ := assigned hf
    rw [← hcode] at hp hb
    exact ⟨hp, hb⟩

/-- The source window set on a stored output reads as that output (20_memory.md R75). -/
theorem selectArchive_srcBytes {u : State} {w : List Byte} (dst cap : Word) (hw : w.length < 2 ^ 32) :
    ((u.storeDst w).finish.selectArchive dst cap).srcBytes = w := by
  have hlen : (BitVec.ofNat 32 w.length).toNat = w.length := Nat.mod_eq_of_lt hw
  refine List.ext_getElem (State.srcBytes_length _ |>.trans hlen) fun i _ hi => ?_
  simp only [State.srcBytes, List.getElem_map, List.getElem_range]
  exact Memory.read_writeBytes_inside w u.mem u.params.dstAddr.toNat i hi

/-- DECOMPRESS turns what the encode stage has written with success back into its content (42_archive_codec.md R138). -/
theorem decompress_encodeStage {u : State} {dst cap : Word} (hp : CodeTable.PrefixFree u.code)
    (hb : CodeTable.Bounded u.code) (herr : (encodeStage u).status.err = false)
    (hcomp : (encodeStage u).status.notcomp = false) (hready : ((encodeStage u).selectArchive dst cap).WindowsReady)
    (hcap : u.srcLength ≤ cap.toNat) :
    ∃ v : State, exec .decompress ((encodeStage u).selectArchive dst cap) = .next v ∧ v.status.err = false ∧
      v.res.len = u.params.srcLen ∧
      ∀ k : Nat, k < u.srcLength → v.mem.read (dst.toNat + k) = u.mem.read (u.params.srcAddr.toNat + k) := by
  obtain ⟨bits, henc, hsize, ht⟩ := encodeStage_success herr hcomp
  have hlt : (archiveOf u.code u.term bits).length < 2 ^ 32 := by
    rw [archiveOf_length]
    exact hsize.trans (BitVec.isLt _)
  have hsrc : ((encodeStage u).selectArchive dst cap).srcBytes = archiveOf u.code u.term bits := by
    rw [ht]
    exact selectArchive_srcBytes dst cap hlt
  have hterm : ((encodeStage u).selectArchive dst cap).term = u.term := by rw [ht]; rfl
  obtain ⟨r, hr⟩ := execDecompress_archiveOf hready hp hb henc (hterm ▸ hsrc) (u.srcBytes_length.trans_le hcap)
  refine ⟨_, hr, herr, ?_, fun k hk => ?_⟩
  · rw [State.finish_res, State.storeDst_res, State.srcBytes_length]
    exact BitVec.ofNat_toNat ..
  · have hk : k < u.srcBytes.length := u.srcBytes_length.symm ▸ hk
    refine (Memory.read_writeBytes_inside u.srcBytes _ dst.toNat k hk).trans ?_
    simp only [State.srcBytes, List.getElem_map, List.getElem_range]

/-- Settles O39: the command has ended in its encode stage (`exec_eq_encodeStage`), whose table is prefix-free
(`State.beforeEncode_code`). -/
theorem decompressUndoesCompress : Obligations.DecompressUndoesCompress := by
  intro i s t dst cap hi _ _ h herr hcomp hready hcap
  have hmem : i ∈ [Instr.encode, .compress] := by
    rcases hi with rfl | ⟨rfl, -⟩ <;> decide
  obtain ⟨h0, rfl⟩ := exec_eq_encodeStage hmem h herr
  obtain ⟨hp, hb⟩ := State.beforeEncode_code h0 hi
  obtain ⟨hparams, hmemory⟩ := s.beforeEncode_keeps i
  have hlen : (s.beforeEncode i).srcLength = s.params.srcLen.toNat := by rw [State.srcLength, hparams]
  obtain ⟨v, hv, hok, hres, hread⟩ := decompress_encodeStage hp hb herr hcomp hready (hlen.trans_le hcap)
  rw [hparams] at hres
  rw [hlen, hparams, hmemory] at hread
  exact ⟨v, hv, hok, hres, hread⟩

end Sys2Proof.Machine

namespace Sys2Proof.Machine

/-! ## O26: decode by what stands at the front of the bits (43_prefix_decoder.md R140 to R143) -/

/-- The bit buffer `b` has met no code: no prefix of it but the empty one is a code. -/
def CodeTable.NoCodeIn (code : CodeTable) (b : Bits) : Prop :=
  ∀ q : Bits, q <+: b → q ≠ [] → ∀ a : Byte, CodeTable.get code a ≠ q

theorem CodeTable.noCodeIn_nil (code : CodeTable) : CodeTable.NoCodeIn code [] :=
  fun _ hq hne => absurd (List.prefix_nil.1 hq) hne

/-- A buffer that met no code is never looked up with success while it fills. -/
theorem CodeTable.NoCodeIn.lookup_take {code : CodeTable} {b : Bits} (h : CodeTable.NoCodeIn code b) {k : Nat}
    (hk : 1 ≤ k) (hb : k ≤ b.length) : CodeTable.lookup code (b.take k) = none :=
  CodeTable.lookup_eq_none (h _ (List.take_prefix k b) (List.ne_nil_of_length_pos (by rw [List.length_take]; omega)))

theorem CodeTable.NoCodeIn.concat {code : CodeTable} {b : Bits} {x : Bool} (h : CodeTable.NoCodeIn code b)
    (hx : CodeTable.lookup code (b ++ [x]) = none) : CodeTable.NoCodeIn code (b ++ [x]) := by
  intro q hq hne
  rcases List.prefix_concat_iff.1 hq with rfl | hq
  · exact CodeTable.ne_of_lookup_none hx
  · exact h q hq hne

/-- The shortest code at the front of the bits is taken (43_prefix_decoder.md R140, R142). -/
theorem decodeLoop_shortest {code : CodeTable} {q : Bits} {x : Bool} {a : Byte} (hq : CodeTable.NoCodeIn code q)
    (ha : CodeTable.lookup code (q ++ [x]) = some a) (cap : Nat) (rest : Bits) (out : List Byte) :
    decodeLoop code (maxLen code) cap (q ++ x :: rest) [] out =
      if out.length = cap then .error .dstOverflow else decodeLoop code (maxLen code) cap rest [] (out ++ [a]) := by
  have hmax : (q ++ [x]).length ≤ maxLen code := CodeTable.get_of_lookup ha ▸ length_get_le_maxLen code a
  rw [List.length_append, List.length_singleton] at hmax
  rw [decodeLoop_collect q [] _ out (fun _ => hq.lookup_take) (by rw [List.length_nil]; omega), List.nil_append,
    decodeLoop, ha]

theorem decodeBits_shortest_zero {code : CodeTable} {q : Bits} {x : Bool} {a : Byte} (hq : CodeTable.NoCodeIn code q)
    (ha : CodeTable.lookup code (q ++ [x]) = some a) (rest : Bits) :
    decodeBits (q ++ x :: rest) code 0 = .error .dstOverflow :=
  decodeLoop_shortest hq ha 0 rest []

theorem decodeBits_shortest_succ {code : CodeTable} {q : Bits} {x : Bool} {a : Byte} (hq : CodeTable.NoCodeIn code q)
    (ha : CodeTable.lookup code (q ++ [x]) = some a) (cap : Nat) (rest : Bits) :
    decodeBits (q ++ x :: rest) code (cap + 1) = (decodeBits rest code cap).map (a :: ·) := by
  rw [decodeBits, decodeLoop_shortest hq ha, if_neg (by simp), Nat.add_comm]
  exact decodeLoop_prepend code (maxLen code) [a] rest cap [] []

/-- Bits that reach MAXLEN and meet no code end in UNMATCHED (43_prefix_decoder.md R143). -/
theorem decodeLoop_unmatched {code : CodeTable} {longest cap : Nat} {bits buf : Bits} {out : List Byte}
    (h : CodeTable.NoCodeIn code (buf ++ bits)) (hne : bits ≠ []) (hlen : longest ≤ buf.length + bits.length) :
    decodeLoop code longest cap bits buf out = .error (.malformedArchive .unmatched) := by
  induction bits generalizing buf with
  | nil => exact absurd rfl hne
  | cons x r ih =>
    rw [← List.singleton_append, ← List.append_assoc] at h
    have hx : CodeTable.lookup code (buf ++ [x]) = none :=
      CodeTable.lookup_eq_none (h _ (List.prefix_append _ _) (by simp))
    simp only [decodeLoop, hx]
    split
    · rfl
    · next hlt =>
      rw [List.length_append, List.length_singleton] at hlt
      rw [List.length_cons] at hlen
      exact ih h (List.ne_nil_of_length_pos (by omega)) (by rw [List.length_append, List.length_singleton]; omega)

theorem decodeBits_unmatched {code : CodeTable} {bits : Bits} (h : CodeTable.NoCodeIn code bits) (hne : bits ≠ [])
    (hlen : maxLen code ≤ bits.length) (cap : Nat) :
    decodeBits bits code cap = .error (.malformedArchive .unmatched) :=
  decodeLoop_unmatched (buf := []) h hne (by rwa [List.length_nil, Nat.zero_add])

/-- Bits that end below MAXLEN and have met no code are a truncated stream (43_prefix_decoder.md R143). -/
theorem decodeBits_truncated {code : CodeTable} {bits : Bits} (h : CodeTable.NoCodeIn code bits) (hne : bits ≠ [])
    (hlen : bits.length < maxLen code) (cap : Nat) : decodeBits bits code cap = .error .truncatedStream := by
  have hcollect := decodeLoop_collect (cap := cap) bits [] [] [] (fun _ => h.lookup_take)
    (by rwa [List.length_nil, Nat.zero_add])
  rw [List.append_nil, List.nil_append] at hcollect
  rw [decodeBits, hcollect, decodeLoop, if_neg (List.length_eq_zero_iff.not.2 hne)]

/-- What the loop adds to the output encodes to the bits it has read (43_prefix_decoder.md R140). -/
theorem enc_of_decodeLoop {code : CodeTable} {longest cap : Nat} {bits buf : Bits} {out w : List Byte}
    (h : decodeLoop code longest cap bits buf out = .ok w) :
    ∃ c : List Byte, w = out ++ c ∧ enc code c = some (buf ++ bits) := by
  induction bits generalizing buf out with
  | nil =>
    simp only [decodeLoop] at h
    split at h
    · next hbuf =>
      cases h
      exact ⟨[], (List.append_nil _).symm, by rw [List.length_eq_zero_iff.1 hbuf]; rfl⟩
    · cases h
  | cons x r ih =>
    simp only [decodeLoop] at h
    split at h
    · next a ha =>
      split at h
      · cases h
      · obtain ⟨c, rfl, hc⟩ := ih h
        refine ⟨a :: c, List.append_assoc .., ?_⟩
        simp [enc, CodeTable.get_of_lookup ha, hc]
    · split at h
      · cases h
      · obtain ⟨c, hw, hc⟩ := ih h
        exact ⟨c, hw, by rw [hc, List.append_assoc, List.singleton_append]⟩

theorem enc_of_decodeBits {code : CodeTable} {cap : Nat} {bits : Bits} {out : List Byte}
    (h : decodeBits bits code cap = .ok out) : enc code out = some bits := by
  obtain ⟨c, rfl, hc⟩ := enc_of_decodeLoop h
  exact hc

/-- The shortest code at the front of some bits is a buffer that met no code and one bit with which it is found. -/
theorem CodeTable.exists_concat_of_shortest {code : CodeTable} {p : Bits} (hne : p ≠ [])
    (hcode : ∃ a : Byte, CodeTable.get code a = p)
    (hmin : ∀ q : Bits, q <+: p → q ≠ [] → q ≠ p → ∀ a : Byte, CodeTable.get code a ≠ q) :
    ∃ (q : Bits) (x : Bool) (a : Byte), p = q ++ [x] ∧ CodeTable.NoCodeIn code q ∧
      CodeTable.lookup code (q ++ [x]) = some a := by
  obtain ⟨q, x, rfl⟩ := (List.eq_nil_or_concat' p).resolve_left hne
  have hq : CodeTable.NoCodeIn code q := fun r hr hrne => hmin r (hr.trans (List.prefix_append _ _)) hrne fun he => by
    have := he ▸ hr.length_le
    rw [List.length_append, List.length_singleton] at this
    omega
  cases hl : CodeTable.lookup code (q ++ [x]) with
  | none =>
    obtain ⟨a, ha⟩ := hcode
    exact absurd ha (CodeTable.ne_of_lookup_none hl a)
  | some a => exact ⟨q, x, a, rfl, hq, hl⟩

/-- Settles O26: the bits begin with a shortest code (`decodeBits_shortest_zero`, `decodeBits_shortest_succ`) or with
none (`decodeBits_unmatched`, `decodeBits_truncated`), and the output encodes back (`enc_of_decodeBits`). -/
theorem decodedOutputEncodesBack : Obligations.DecodedOutputEncodesBack := by
  intro code cap
  refine ⟨rfl, fun p rest hne hcode hmin => ?_, fun bits hne hnone => ?_, fun bits out h => ?_⟩
  · obtain ⟨q, x, a, rfl, hq, ha⟩ := CodeTable.exists_concat_of_shortest hne hcode hmin
    rw [List.append_assoc, List.singleton_append]
    refine ⟨decodeBits_shortest_zero hq ha rest, a, CodeTable.get_of_lookup ha, fun e he => ?_, fun out hout => ?_⟩
    · rw [decodeBits_shortest_succ hq ha, he]
      rfl
    · rw [decodeBits_shortest_succ hq ha, hout]
      rfl
  · exact ⟨fun hlen => decodeBits_unmatched hnone hne hlen cap, fun hlen => decodeBits_truncated hnone hne hlen cap⟩
  · exact ⟨decodeBits_length_le h, enc_of_decodeBits h⟩

/-! ## O25: the tables that ASSIGN makes decode what they encode (43_prefix_decoder.md R144) -/

/-- Every bit string of MAXLEN bits begins with a code (40_tree_builder.md R107). -/
def CodeTable.NoGap (code : CodeTable) : Prop :=
  ∀ b : Bits, b.length = maxLen code → ∃ a : Byte, CodeTable.get code a ≠ [] ∧ CodeTable.get code a <+: b

/-- In a table without a gap a buffer that met no code is shorter than MAXLEN. -/
theorem CodeTable.NoGap.length_lt {code : CodeTable} (h : CodeTable.NoGap code) {b : Bits}
    (hb : CodeTable.NoCodeIn code b) : b.length < maxLen code := by
  by_contra hlen
  obtain ⟨a, hne, ha⟩ := h (b.take (maxLen code)) (List.length_take_of_le (not_lt.1 hlen))
  exact hb _ (ha.trans (List.take_prefix _ _)) hne a rfl

theorem CodeTable.NoGap.decodeLoop_ne_unmatched {code : CodeTable} (h : CodeTable.NoGap code) {cap : Nat}
    {bits buf : Bits} {out : List Byte} (hbuf : CodeTable.NoCodeIn code buf) :
    decodeLoop code (maxLen code) cap bits buf out ≠ .error (.malformedArchive .unmatched) := by
  induction bits generalizing buf out with
  | nil =>
    simp only [decodeLoop]
    split <;> simp
  | cons x r ih =>
    simp only [decodeLoop]
    split
    · split
      · simp
      · exact ih (CodeTable.noCodeIn_nil code)
    · next hx =>
      have hbuf' := hbuf.concat hx
      rw [if_neg (h.length_lt hbuf').not_ge]
      exact ih hbuf'

/-- In a table whose one code is "0", the first 1 bit after any number of 0 bits is UNMATCHED, where the capacity lets it
be reached (43_prefix_decoder.md R143, R144). -/
theorem decodeBits_one_symbol {code : CodeTable} {s : Byte} (hs : CodeTable.get code s = [false])
    (honly : ∀ b : Byte, CodeTable.get code b = [] ∨ CodeTable.get code b = [false]) {n cap : Nat} (hn : n ≤ cap)
    (rest : Bits) :
    decodeBits (List.replicate n false ++ true :: rest) code cap = .error (.malformedArchive .unmatched) := by
  induction n generalizing cap with
  | zero =>
    have hnone : CodeTable.NoCodeIn code (true :: rest) := fun q hq hne b hb => by
      subst hb
      have hf := (honly b).resolve_left hne
      rw [hf] at hq
      exact absurd hq (by simp)
    obtain ⟨b, hb⟩ := exists_length_eq_maxLen code
    refine decodeBits_unmatched hnone (List.cons_ne_nil _ _) ?_ cap
    rcases honly b with h | h <;> simp [← hb, h]
  | succ n ih =>
    obtain ⟨cap, rfl⟩ := Nat.exists_eq_add_one_of_ne_zero (show cap ≠ 0 by omega)
    cases hl : CodeTable.lookup code ([] ++ [false]) with
    | none => exact absurd hs (CodeTable.ne_of_lookup_none hl s)
    | some a =>
      rw [List.replicate_succ, List.cons_append]
      refine (decodeBits_shortest_succ (CodeTable.noCodeIn_nil code) hl cap _).trans ?_
      rw [ih (Nat.le_of_succ_le_succ hn)]
      rfl

/-- Settles O25: the table is prefix-free (O18, `decodeBits_enc`) and has no gap (O19), and of one symbol its only code
is "0" (O17). -/
theorem assignedTablesDecodeWhatTheyEncode : Obligations.AssignedTablesDecodeWhatTheyEncode := by
  intro f
  refine ⟨fun h2 => ⟨fun c bits cap henc hcap => ?_, fun bits cap => ?_⟩, fun h1 n cap rest hn => ?_⟩
  · obtain ⟨hprefix, -⟩ := assignedCodesArePrefixFree f (show nsym f ≠ 0 by omega)
    exact decodeBits_enc hprefix henc hcap
  · have hgap : CodeTable.NoGap (assignCodes (buildNodes f)) := assignedCodesLeaveNoGap f h2
    exact hgap.decodeLoop_ne_unmatched (CodeTable.noCodeIn_nil _)
  · have hf : nsym f ≠ 0 := by omega
    obtain ⟨-, hcode⟩ := codesAreRootToLeafPaths f hf
    obtain ⟨s, hs⟩ := not_forall.1 fun h => hf ((nsym_eq_zero f).2 h)
    refine decodeBits_one_symbol (s := s) ?_ (fun b => ?_) hn rest
    · rw [hcode h1, if_neg hs]
    · rw [hcode h1]
      exact ite_eq_or_eq ..

end Sys2Proof.Machine

namespace Sys2Proof.Machine

/-! ## O41, O42: NOP, and CLEAR with the commands after it (44_control.md R146 to R148) -/

@[simp] theorem nsym_zero : nsym FreqTable.zero = 0 := (nsym_eq_zero _).2 FreqTable.get_zero

@[simp] theorem ncodes_empty : ncodes CodeTable.empty = 0 := by
  rw [ncodes_eq_filter, List.length_eq_zero_iff, List.filter_eq_nil_iff]
  exact fun b _ => by simp

@[simp] theorem maxLen_empty : maxLen CodeTable.empty = 0 := by
  obtain ⟨b, hb⟩ := exists_length_eq_maxLen CodeTable.empty
  rw [← hb, CodeTable.get_empty, List.length_nil]

/-- Settles O41: NOP is `State.finish`, and CLEAR stores the empty tables and the reset results before it. -/
theorem nopCompletesAndClearEmptiesTheTables : Obligations.NopCompletesAndClearEmptiesTheTables :=
  ⟨fun _ => rfl, fun _ => ⟨_, rfl, fun b => ⟨FreqTable.get_zero b, CodeTable.get_empty b⟩, rfl, rfl,
    nsym_zero, ncodes_empty, maxLen_empty, rfl, rfl⟩⟩

/-- The tables that CLEAR leaves (44_control.md R147). -/
theorem tables_of_exec_clear {s t : State} (h : exec .clear s = .next t) :
    t.freq = FreqTable.zero ∧ t.nodes = [] ∧ t.code = CodeTable.empty := by
  cases h
  exact ⟨rfl, rfl, rfl⟩

/-- With no symbol coded, the first byte of a non-empty source window is one without a code (44_control.md R148). -/
theorem State.exists_uncoded_of_code_empty {s : State} (hcode : s.code = CodeTable.empty) (h0 : s.params.srcLen ≠ 0#32) :
    ∃ b ∈ s.srcBytes, CodeTable.get s.code b = [] := by
  obtain ⟨b, hb⟩ := List.exists_mem_of_ne_nil _ (State.srcBytes_eq_nil.not.2 (State.srcLength_eq_zero.not.2 h0))
  exact ⟨b, hb, hcode ▸ CodeTable.get_empty b⟩

theorem CodeTable.noCodeIn_empty (bits : Bits) : CodeTable.NoCodeIn CodeTable.empty bits :=
  fun _ _ hne a ha => hne (ha.symm.trans (CodeTable.get_empty a))

/-- MAXLEN of the empty table is 0, so its first bit is already UNMATCHED (43_prefix_decoder.md R143). -/
theorem decodeBits_empty_unmatched {bits : Bits} (hne : bits ≠ []) (cap : Nat) :
    decodeBits bits CodeTable.empty cap = .error (.malformedArchive .unmatched) :=
  decodeBits_unmatched (CodeTable.noCodeIn_empty bits) hne (maxLen_empty ▸ Nat.zero_le _) cap

/-- Settles O42: no symbol is present, there is no node and no code (`tables_of_exec_clear`), so each command takes the
error clause of its own statement (O13, O16, O29, O30, O22, O27). -/
theorem commandsAfterClear : Obligations.CommandsAfterClear := by
  intro s t u hclear hfreq hnodes hcode
  obtain ⟨tfreq, tnodes, tcode⟩ := tables_of_exec_clear hclear
  rw [tfreq] at hfreq
  rw [tnodes] at hnodes
  rw [tcode] at hcode
  have uncoded := State.exists_uncoded_of_code_empty hcode
  refine ⟨?build, ?assign, fun hs h0 => ?measure, fun hw h0 => ⟨?encode, ?pack⟩, fun hw hpad => ?decodeBody⟩
  case build =>
    obtain ⟨emptyInput, -⟩ := buildReplacesTheTree u
    exact emptyInput fun b => hfreq ▸ FreqTable.get_zero b
  case assign =>
    obtain ⟨noTree, -⟩ := assignReplacesTheCodeTable u
    exact noTree hnodes
  case measure =>
    obtain ⟨-, noCode, -⟩ := measureReportsSizesAndDecision u hs
    exact noCode h0 (uncoded h0)
  case encode =>
    obtain ⟨-, noCode, -⟩ := encodeWritesTheArchive u hw
    exact noCode h0 (uncoded h0)
  case pack =>
    obtain ⟨-, noCode, -⟩ := packWritesTheCodedBody u hw
    exact noCode h0 (uncoded h0)
  case decodeBody =>
    have hbits : unpack u.srcBytes u.padIn ≠ [] := List.ne_nil_of_length_pos <| by
      rw [State.unpack_srcBytes_length]
      exact Nat.sub_pos_of_lt hpad
    obtain ⟨-, padOk⟩ := decodeBodyWritesTheSymbols u hw
    obtain ⟨onError, -⟩ := padOk hpad.le _ rfl
    exact onError _ (hcode ▸ decodeBits_empty_unmatched hbits _)

end Sys2Proof.Machine

namespace Sys2Proof.Machine

/-! ## O10: the codes of the errors, and the two ends that are not success (60_exceptions.md R149 to R153) -/

/-- All of what `raise` changes: RES_LEN and STATUS, and the command in flight (60_exceptions.md R152, R156). -/
theorem State.raise_eq (e : ErrCode) (s : State) :
    s.raise e = { s with
      flight := none
      res := { s.res with len := 0#32 }
      status := { s.status with done := true, err := true, errCode := e.code, errInfo := e.info } } :=
  rfl

/-- All of what `notcomp` changes; ERR and its code are not among it (60_exceptions.md R153). -/
theorem State.notComp_eq (s : State) :
    s.notComp = { s with
      flight := none
      res := { s.res with len := 0#32 }
      status := { s.status with done := true, notcomp := true } } :=
  rfl

/-- Settles O10: the two tables are evaluated row by row, and the ends of a command are `State.raise_eq` and
`State.notComp_eq`. -/
theorem errorAndNotCompressibleCompletion : Obligations.ErrorAndNotCompressibleCompletion := by
  refine ⟨?errors, ?subCauses, fun s e => ⟨State.raise_eq e s, State.notComp_eq s⟩⟩
  case errors => decide
  case subCauses => decide

end Sys2Proof.Machine

namespace Sys2Proof.Machine

/-! ## O40: an archive under the other terminator (42_archive_codec.md R129, 70_reset_and_hazards.md R176) -/

/-- The bytes that can stand in line 1 before its terminator: digits and SP (42_archive_codec.md R116, R129). -/
def isLine1Char (b : Byte) : Bool := isDigit b || b == chSP

theorem all_isLine1Char {d1 d2 : List Byte} (h1 : d1.all isDigit = true) (h2 : d2.all isDigit = true) :
    (d1 ++ [chSP] ++ d2).all isLine1Char = true := by
  have digits {d : List Byte} (h : d.all isDigit = true) : d.all isLine1Char = true :=
    List.all_eq_true.2 fun b hb => by simp [isLine1Char, List.all_eq_true.1 h b hb]
  rw [List.all_append, List.all_append, digits h1, digits h2]
  rfl

theorem IsNumber.all_isDigit {d : List Byte} (h : IsNumber d) : d.all isDigit = true := by
  have number := (isNumber_iff d).2 h
  simp only [isNumber, Bool.and_eq_true] at number
  exact number.1.2

/-- Neither terminator begins with a byte of line 1, so line 1 is dropped up to its terminator. -/
theorem dropWhile_isLine1Char {x : List Byte} (t : Term) (rest : List Byte) (hx : x.all isLine1Char = true) :
    (x ++ t.bytes ++ rest).dropWhile isLine1Char = t.bytes ++ rest := by
  rw [List.append_assoc]
  refine (takeWhile_dropWhile_append _ hx ?_).2
  cases t <;> simp <;> decide

/-- The terminator of line 1 can be read off the archive. -/
theorem term_eq_of_line1_eq {t u : Term} {x y r q : List Byte} (hx : x.all isLine1Char = true)
    (hy : y.all isLine1Char = true) (h : x ++ t.bytes ++ r = y ++ u.bytes ++ q) : t = u := by
  have tail : t.bytes ++ r = u.bytes ++ q := by
    rw [← dropWhile_isLine1Char t r hx, h, dropWhile_isLine1Char u q hy]
  have headNe : chLF ≠ chCR := by decide
  cases t <;> cases u
  case lf.lf | crlf.crlf => rfl
  case lf.crlf => exact absurd (List.cons.inj tail).1 headNe
  case crlf.lf => exact absurd (List.cons.inj tail).1 headNe.symm

/-- A parse fails at line 1, or the bytes begin with a line of two numbers under its terminator
(42_archive_codec.md R129). -/
theorem parseArchive_line1_cases (t : Term) (a : List Byte) :
    (parseArchive t.bytes a = .error .line1Syntax ∨ parseArchive t.bytes a = .error .line1Unterminated) ∨
      ∃ d1 d2 rest : List Byte, IsNumber d1 ∧ IsNumber d2 ∧ a = d1 ++ [chSP] ++ d2 ++ t.bytes ++ rest := by
  cases hs : splitAtTerm t.bytes a with
  | none =>
    have unterminated : ¬ t.bytes <:+: a := (splitAtTerm_eq_none a t.bytes_ne_nil).1 hs
    exact .inl (.inr ((parseArchive_line1Unterminated_iff t a).2 unterminated))
  | some p =>
    obtain ⟨c, rest⟩ := p
    have hc : ¬ t.bytes <:+: c := splitAtTerm_content a hs t.bytes_ne_nil
    obtain rfl := eq_of_splitAtTerm a hs
    by_cases numbers : ∃ d1 d2 : List Byte, IsNumber d1 ∧ IsNumber d2 ∧ c = d1 ++ [chSP] ++ d2
    · obtain ⟨d1, d2, h1, h2, rfl⟩ := numbers
      exact .inr ⟨d1, d2, rest, h1, h2, rfl⟩
    · exact .inl (.inl (parseArchive_line1Syntax t rest hc numbers))

/-- An archive begins with its line 1 (42_archive_codec.md R121). -/
theorem line1_prefix_archiveOf (code : CodeTable) (t : List Byte) (bits : Bits) :
    line1 (byteCount bits.length) (padCount bits.length) t <+: archiveOf code t bits := by
  simp only [archiveOf, header, List.append_assoc]
  exact List.prefix_append _ _

theorem dec_line_all_isLine1Char (body pad : Nat) : (dec body ++ [chSP] ++ dec pad).all isLine1Char = true :=
  all_isLine1Char (dec_spec body).1 (dec_spec pad).1

/-- Settles O40: a parse that gets past line 1 has read two numbers under its own terminator
(`parseArchive_line1_cases`), but the archive has the other one there (`line1_prefix_archiveOf`,
`term_eq_of_line1_eq`). -/
theorem terminatorMismatchFails : Obligations.TerminatorMismatchFails := by
  intro code t u bits hne
  refine (parseArchive_line1_cases u (archiveOf code t.bytes bits)).resolve_right ?_
  rintro ⟨d1, d2, rest, h1, h2, read⟩
  obtain ⟨written, hwritten⟩ := line1_prefix_archiveOf code t.bytes bits
  exact hne (term_eq_of_line1_eq (dec_line_all_isLine1Char _ _)
    (all_isLine1Char h1.all_isDigit h2.all_isDigit) (hwritten.trans read))

end Sys2Proof.Machine
